-- ==== Sys2Proof/Word.lean ====
section
/-! DEFINITION. The word types of the FSTC block: bytes on a transport lane and the 32-bit command word
(30_encoding.md R80). Widths of registers stand with the registers, in Machine/State.lean. -/

namespace Sys2Proof

/-- One byte of a command word carried over byte lanes (20_memory.md R62). -/
abbrev Byte := BitVec 8

/-- The command word: the one format, of the one length 32 bits (30_encoding.md R80). -/
abbrev CmdWord := BitVec 32

end Sys2Proof
end

