-- ==== Sys2Proof/Syntax.lean ====
section
/-! DEFINITION. The abstract syntax: the twelve operations of 30_encoding.md R84 with the operands of R83. Operand
bits that an operation does not use are no part of an operation (R82). -/

namespace Sys2Proof

/-- MotorDirection (30_encoding.md R92). -/
inductive Direction where
  /-- Clockwise, code 0 -/
  | cw
  /-- CounterClockwise, code 1 -/
  | ccw
deriving DecidableEq, Repr, Inhabited

/-- One operation, one constructor per row of spec/opcode_table.json; operands with the widths of R83. -/
inductive Instr where
  /-- `NOP` (45_control_loop.md R180) -/
  | nop
  /-- `ADC_INIT refs, div` (41_adc_sampling.md R110) -/
  | adcInit (refs : BitVec 2) (div : BitVec 3)
  /-- `ADC_READ channel` (41_adc_sampling.md R114) -/
  | adcRead (channel : BitVec 16)
  /-- `ADC_SHUTDOWN` (41_adc_sampling.md R121) -/
  | adcShutdown
  /-- `TEMP_CONV sample` (42_temperature.md R130) -/
  | tempConv (sample : BitVec 10)
  /-- `PWM_START duty` (43_pwm.md R142) -/
  | pwmStart (duty : BitVec 8)
  /-- `MOT_INIT` (44_motor.md R162) -/
  | motInit
  /-- `MOT_ROTATE dir, speed` (44_motor.md R165) -/
  | motRotate (dir : Direction) (speed : BitVec 8)
  /-- `MOT_STOP` (44_motor.md R168) -/
  | motStop
  /-- `BAND_SEL temp` (45_control_loop.md R183) -/
  | bandSel (temp : BitVec 16)
  /-- `CTL_ITER` (45_control_loop.md R188) -/
  | ctlIter
  /-- `CTL_RUN` (45_control_loop.md R197) -/
  | ctlRun
deriving DecidableEq, Repr, Inhabited

end Sys2Proof
end

