-- ==== Sys2Proof/Decode.lean ====
section
/-! DEFINITION. The decoder and, after it, the encoder (30_encoding.md R80 to R88). Decoding is total: every word is one
of the twelve operations or a reserved code (R81, R84, R85). -/

namespace Sys2Proof

/-- Why the decoder gives no operation, by name. -/
inductive DecodeReject where
  /-- The OP field is reserved, `0x0C` to `0xFF` (R85). SAFE: the machine still accepts such a word and ignores it. -/
  | reservedOp (op : BitVec 8)
  /-- Fewer than four bytes: not a whole command word (R80). SAFE. -/
  | truncated
deriving DecidableEq, Repr

/-! ## Fields (R80) -/

/-- `OP = w[31:24]`. -/
def opField (w : CmdWord) : BitVec 8 := w.extractLsb' 24 8

/-- `A = w[23:16]`. -/
def aField (w : CmdWord) : BitVec 8 := w.extractLsb' 16 8

/-- `B = w[15:0]`. -/
def bField (w : CmdWord) : BitVec 16 := w.extractLsb' 0 16

/-- MotorDirection from its one-bit code (R92). -/
def Direction.ofCode (c : BitVec 1) : Direction := if c = 0#1 then .cw else .ccw

/-- The one-bit code of a MotorDirection (R92). -/
def Direction.code : Direction → BitVec 1
  | .cw => 0#1
  | .ccw => 1#1

/-! ## Decoding (R81, R83, R84, R85) -/

/-- The operation of a command word, operands taken from the bits of R83, unused bits ignored (R82). -/
def decodeWord (w : CmdWord) : Except DecodeReject Instr :=
  let a := aField w
  let b := bField w
  match (opField w).toNat with
  | 0x00 => .ok .nop
  | 0x01 => .ok (.adcInit (a.extractLsb' 0 2) (b.extractLsb' 0 3))
  | 0x02 => .ok (.adcRead b)
  | 0x03 => .ok .adcShutdown
  | 0x04 => .ok (.tempConv (b.extractLsb' 0 10))
  | 0x05 => .ok (.pwmStart (b.extractLsb' 0 8))
  | 0x06 => .ok .motInit
  | 0x07 => .ok (.motRotate (Direction.ofCode (a.extractLsb' 0 1)) (b.extractLsb' 0 8))
  | 0x08 => .ok .motStop
  | 0x09 => .ok (.bandSel b)
  | 0x0A => .ok .ctlIter
  | 0x0B => .ok .ctlRun
  | _ => .error (.reservedOp (opField w))

/-- A command word from four byte lanes, least significant byte first (20_memory.md R62). -/
def wordOfBytes (b0 b1 b2 b3 : Byte) : CmdWord := b3 ++ b2 ++ b1 ++ b0

/-- The first operation of a list of bytes, with the bytes that follow it. -/
def decodeBytes : List Byte → Except DecodeReject (Instr × List Byte)
  | b0 :: b1 :: b2 :: b3 :: rest =>
    match decodeWord (wordOfBytes b0 b1 b2 b3) with
    | .ok i => .ok (i, rest)
    | .error e => .error e
  | _ => .error .truncated

/-- The four byte lanes of a command word, least significant byte first (20_memory.md R62). -/
def bytesOfWord (w : CmdWord) : List Byte :=
  [w.extractLsb' 0 8, w.extractLsb' 8 8, w.extractLsb' 16 8, w.extractLsb' 24 8]

/-- The command word whose low `nbits` bits are those of `w`, all higher bits 0. -/
def tableWord (nbits w : Nat) : CmdWord := BitVec.ofNat 32 (w % 2 ^ nbits)

/-- What the decoder reads from an instruction whose bits are `w`, laid out in byte lanes. -/
def decodeTableWord (nbits w : Nat) : Option Instr :=
  match decodeBytes (bytesOfWord (tableWord nbits w)) with
  | .ok (i, _) => some i
  | .error _ => none

/-! ## Encoding (R84, R88) -/

/-- The OP code of an operation (R84). -/
def Instr.op : Instr → BitVec 8
  | .nop => 0x00#8
  | .adcInit _ _ => 0x01#8
  | .adcRead _ => 0x02#8
  | .adcShutdown => 0x03#8
  | .tempConv _ => 0x04#8
  | .pwmStart _ => 0x05#8
  | .motInit => 0x06#8
  | .motRotate _ _ => 0x07#8
  | .motStop => 0x08#8
  | .bandSel _ => 0x09#8
  | .ctlIter => 0x0A#8
  | .ctlRun => 0x0B#8

/-- The A field of the assembled word, unused bits 0 (R83, R88). -/
def Instr.fieldA : Instr → BitVec 8
  | .adcInit refs _ => refs.setWidth 8
  | .motRotate dir _ => dir.code.setWidth 8
  | .nop => 0#8
  | .adcRead _ => 0#8
  | .adcShutdown => 0#8
  | .tempConv _ => 0#8
  | .pwmStart _ => 0#8
  | .motInit => 0#8
  | .motStop => 0#8
  | .bandSel _ => 0#8
  | .ctlIter => 0#8
  | .ctlRun => 0#8

/-- The B field of the assembled word, unused bits 0 (R83, R88). -/
def Instr.fieldB : Instr → BitVec 16
  | .adcInit _ div => div.setWidth 16
  | .adcRead channel => channel
  | .tempConv sample => sample.setWidth 16
  | .pwmStart duty => duty.setWidth 16
  | .motRotate _ speed => speed.setWidth 16
  | .bandSel temp => temp
  | .nop => 0#16
  | .adcShutdown => 0#16
  | .motInit => 0#16
  | .motStop => 0#16
  | .ctlIter => 0#16
  | .ctlRun => 0#16

/-- The assembled word `OP << 24 | A << 16 | B` (R88). -/
def encode (i : Instr) : CmdWord := i.op ++ i.fieldA ++ i.fieldB

/-- The assembled word over byte lanes (20_memory.md R62). -/
def encodeBytes (i : Instr) : List Byte := bytesOfWord (encode i)

/-- The bits of a word that mean something for the operation with the given OP code: OP itself and the operand bits of
R83. A reserved code uses no operand bit. -/
def usedBits (op : BitVec 8) : CmdWord :=
  match op.toNat with
  | 0x01 => 0xFF030007#32
  | 0x02 => 0xFF00FFFF#32
  | 0x04 => 0xFF0003FF#32
  | 0x05 => 0xFF0000FF#32
  | 0x07 => 0xFF0100FF#32
  | 0x09 => 0xFF00FFFF#32
  | _ => 0xFF000000#32

/-! ## Assembler syntax (R88) -/

/-- The mnemonic of an operation (R84). -/
def Instr.mnemonic : Instr → String
  | .nop => "NOP"
  | .adcInit _ _ => "ADC_INIT"
  | .adcRead _ => "ADC_READ"
  | .adcShutdown => "ADC_SHUTDOWN"
  | .tempConv _ => "TEMP_CONV"
  | .pwmStart _ => "PWM_START"
  | .motInit => "MOT_INIT"
  | .motRotate _ _ => "MOT_ROTATE"
  | .motStop => "MOT_STOP"
  | .bandSel _ => "BAND_SEL"
  | .ctlIter => "CTL_ITER"
  | .ctlRun => "CTL_RUN"

/-- The operands of an operation in assembler syntax (R88). -/
def Instr.operandText : Instr → List String
  | .adcInit refs div => [toString refs.toNat, toString div.toNat]
  | .adcRead channel => [toString channel.toNat]
  | .tempConv sample => [toString sample.toNat]
  | .pwmStart duty => [toString duty.toNat]
  | .motRotate .cw speed => ["CW", toString speed.toNat]
  | .motRotate .ccw speed => ["CCW", toString speed.toNat]
  | .bandSel temp => [toString temp.toNat]
  | .nop => []
  | .adcShutdown => []
  | .motInit => []
  | .motStop => []
  | .ctlIter => []
  | .ctlRun => []

/-- An operation as a line of assembler text: the mnemonic, then the operands separated by commas (R88). -/
def Instr.asm (i : Instr) : String :=
  match i.operandText with
  | [] => i.mnemonic
  | xs => i.mnemonic ++ " " ++ String.intercalate ", " xs

end Sys2Proof
end

