-- ==== Sys2Proof/Config.lean ====
section
/-! DEFINITION. What an implementation of the block fixes: the FIXED constants and the OPEN parameters of
00_scope.md R9, and the free values: what no rule fixes (constants without a body, so that nothing can be
proved of the value they have). -/

namespace Sys2Proof

/-! ## Fixed constants (00_scope.md R9, rows marked FIXED) -/

/-- Full-scale sample of the transducer (R9, 42_temperature.md R131). -/
def Config.maxDigitalValue : Nat := 1023

/-- Full-scale temperature of the sensor in degrees; a scale constant, not a bound (R131, 90_conflicts.md C3). -/
def Config.maxTemperature : Nat := 150

/-- Full-scale output voltage of the sensor in millivolts (R131). -/
def Config.maxSensorMv : Nat := 1500

/-- Counter top value of the 8-bit timer (R9, 43_pwm.md R140). -/
def Config.pwmTop : Nat := 255

/-- The output frequency "in the reference design" (R9, R148): nominal, read by no rule. -/
def Config.pwmNominalHz : Nat := 500

/-! ## Open parameters -/

/-- A pin of the surrounding microcontroller (20_memory.md R72). -/
structure PinId where
  port : Nat
  pin : Nat
deriving DecidableEq, Repr, Inhabited

/-- The parameter PINMAP (20_memory.md R72): what the three outputs are bound to, and which pins the
surrounding microcontroller has (the document gives no range of valid identifiers, R72; N10). -/
structure PinMap where
  in1 : PinId
  in2 : PinId
  pwmOut : PinId
  /-- the pins that exist; a binding to any other pin is fail-silent (R71) -/
  present : List PinId
deriving DecidableEq, Repr, Inhabited

/-- The parameter REF_VOLTAGE_mV[0..3]: the voltage each ReferenceVoltage code selects (30_encoding.md R90).
Stored and interpreted by no rule. -/
structure RefVoltages where
  ref0 : Nat
  ref1 : Nat
  ref2 : Nat
  ref3 : Nat
deriving DecidableEq, Repr, Inhabited

/-- The voltage that a ReferenceVoltage code selects (30_encoding.md R90). -/
def RefVoltages.select (t : RefVoltages) (code : BitVec 2) : Nat :=
  match code.toNat with
  | 0 => t.ref0
  | 1 => t.ref1
  | 2 => t.ref2
  | _ => t.ref3

/-- The OPEN parameters of 00_scope.md R9. A model takes them as an argument; here they are plain data that a
state carries, so that a statement about every state holds for every value of them. -/
structure Params where
  /-- `VREF_mV`: the fixed reference voltage in millivolts -/
  vrefMv : Nat
  /-- `REFS_SEL`: the ReferenceVoltage code that boot programs -/
  refsSel : BitVec 2
  /-- `DIV_SEL`: the ClockDivisor code that boot programs -/
  divSel : BitVec 3
  /-- `CH_BITS`: the number of channel-address bits -/
  chBits : Nat
  /-- `SENSOR_CHANNEL`: the channel the control loop samples -/
  sensorChannel : Nat
  /-- `PWM_PS_SEL`: the prescaler selector that `PWM_START` programs -/
  pwmPsSel : BitVec 3
  /-- `PWM_PRESCALE`: the divisor the selector stands for -/
  pwmPrescale : Nat
  /-- `F_CLK_HZ`: core clock rate -/
  fClkHz : Nat
  /-- `AUTORUN`: the strap; true is 1 -/
  autorun : Bool
  /-- `POLL_BOUND`: none is the normative "infinite" (60_exceptions.md R216) -/
  pollBound : Option Nat
  /-- `REF_VOLTAGE_mV[0..3]` -/
  refVoltageMv : RefVoltages
  /-- `PINMAP` -/
  pinMap : PinMap
deriving DecidableEq, Repr, Inhabited

/-- The defaults of 00_scope.md R9. The last two rows have no default in the spec.
DESIGN CHOICE (notes/assumptions/2.md, unsafe): `REF_VOLTAGE_mV` is `VREF_mV` at `REFS_SEL` and 0 elsewhere;
`PINMAP` binds three distinct pins that exist. -/
def Config.defaults : Params where
  vrefMv := 2560
  refsSel := 3#2
  divSel := 3#3
  chBits := 3
  sensorChannel := 2
  pwmPsSel := 2#3
  pwmPrescale := 8
  fClkHz := 1000000
  autorun := true
  pollBound := none
  refVoltageMv := ⟨0, 0, 0, 2560⟩
  pinMap := ⟨⟨0, 0⟩, ⟨0, 1⟩, ⟨0, 2⟩, [⟨0, 0⟩, ⟨0, 1⟩, ⟨0, 2⟩]⟩

/-- The nominal output frequency `F_CLK_HZ / (PWM_PRESCALE * 256)` in hertz, an exact rational (43_pwm.md R148,
70_reset_and_hazards.md R252). No rule reads it. -/
def Params.pwmFrequency (p : Params) : ℚ := (p.fClkHz : ℚ) / ((p.pwmPrescale : ℚ) * 256)

/-! ## Free values -/

/-- What the other agents do in one gap between two micro-steps of SEQ (20_memory.md R74): how many times TMR
ticks, and whether CONV completes the conversion in flight. CONV has at most one step per triggered conversion and
shares no state with TMR, so the order of the two inside a gap shows nowhere. -/
structure Gap where
  ticks : Nat
  complete : Bool
deriving DecidableEq, Repr, Inhabited

/-- FREE VALUE. What the agents do in gap number `n` when the state's own list of gaps has run out: no rule fixes
it (R74, R118, R119, R149). DESIGN CHOICE, safe: notes/assumptions/5.md. -/
opaque Config.freeGap : Nat → Gap

/-- FREE VALUE. `AIN(channel, k)`, the environment's answer to conversion `k` on a channel, where the state's own
table gives none (41_adc_sampling.md R118). DESIGN CHOICE, safe: notes/assumptions/6.md. -/
opaque Config.ain : BitVec 8 → Nat → BitVec 10

/-- FREE VALUE. The draw from 0 to 255 that PWM.CMP receives for this duty above 100 (43_pwm.md R145), for
draw number `n`. DESIGN CHOICE, safe for one run: notes/assumptions/7.md. -/
opaque Config.freeCompare : BitVec 8 → Nat → BitVec 8

end Sys2Proof
end

