-- ==== Sys2Proof/Machine/State.lean ====
section
/-! DEFINITION. The state of the block as plain data: the registers of 10_state.md, the sequencer's place inside an
operation, the event trace (00_scope.md R15), the parameters, and what the environment and the other agents will do. -/

namespace Sys2Proof.Machine

/-! ## Names -/

/-- MotorState (30_encoding.md R94). -/
inductive MotorState where
  /-- Off, code 0 -/
  | off
  /-- On, code 1 -/
  | on
deriving DecidableEq, Repr, Inhabited

/-- The phases of the sequencer (10_state.md R37); their codes are `Phase.code`. -/
inductive Phase where
  | idle
  | bootAdc
  | bootMot
  | bootDisp
  | itSample
  | itDispTemp
  | itSelect
  | itAct
  | itDispFan
deriving DecidableEq, Repr, Inhabited

/-- The three pins the block drives (10_state.md R45). -/
inductive PinName where
  | in1
  | in2
  | pwmOut
deriving DecidableEq, Repr, Inhabited

/-- What of a pin is written: its output enable or its level (00_scope.md R15). -/
inductive PinField where
  | oe
  | level
deriving DecidableEq, Repr, Inhabited

/-- The events of the trace (00_scope.md R15, 70_reset_and_hazards.md R233). -/
inductive Event where
  /-- `Reset` (R233) -/
  | reset
  /-- the start of an operation, by its OP code (a reserved code too, 30_encoding.md R85) -/
  | opStart (op : BitVec 8)
  /-- the return of an operation, by its OP code -/
  | opReturn (op : BitVec 8)
  /-- `PinWrite(name, field, value)` -/
  | pinWrite (pin : PinName) (field : PinField) (value : Bool)
  /-- `CmpWrite(value)` -/
  | cmpWrite (value : BitVec 8)
  /-- `ConvStart(ch)` -/
  | convStart (ch : BitVec 8)
  /-- `ConvDone(value)` -/
  | convDone (value : BitVec 10)
  /-- `DispInit` -/
  | dispInit
  /-- `DispTemp(t)` -/
  | dispTemp (t : BitVec 16)
  /-- `DispFan(m)` -/
  | dispFan (m : MotorState)
deriving DecidableEq, Repr

/-! ## Micro-steps -/

/-- Where `TEMP_CONV` finds its sample: the operand of a command word, or, inside an iteration, the value that
`ADC_READ` has just returned in RES (45_control_loop.md R188, R189). -/
inductive SampleSrc where
  | imm (sample : BitVec 10)
  | result
deriving DecidableEq, Repr

/-- Where `BAND_SEL` finds its temperature: the operand of a command word, or, inside an iteration, CTL.TEMP
(45_control_loop.md R188, R191). -/
inductive TempSrc where
  | imm (temp : BitVec 16)
  | latch
deriving DecidableEq, Repr

/-- The micro-steps of SEQ (00_scope.md R13): each writes one field, emits one event, or looks at the completion
flag. An operation is a list of them, in the order its rule writes them. -/
inductive Micro where
  /-- the operation with this OP code starts (R15) -/
  | opStart (op : BitVec 8)
  /-- the operation with this OP code returns (R15) -/
  | opReturn (op : BitVec 8)
  /-- `ADC.REFS <- v` -/
  | adcRefs (v : BitVec 2)
  /-- `ADC.DIV <- v` -/
  | adcDiv (v : BitVec 3)
  /-- `ADC.EN <- b` -/
  | adcEn (b : Bool)
  /-- `ADC.CH <- trunc_CH_BITS(channel)` -/
  | adcCh (channel : Nat)
  /-- `ADC.BUSY <- 1`; emits ConvStart(ADC.CH) -/
  | adcTrigger
  /-- `wait until ADC.DONE = 1`: one look at the flag, with the looks left under a finite POLL_BOUND -/
  | adcPoll (looks : Option Nat)
  /-- `ADC.DONE <- 0` -/
  | adcClearDone
  /-- `return zext_16(ADC.DATA)` -/
  | retSample
  /-- `return` of TEMP_CONV -/
  | retTemp (src : SampleSrc)
  /-- `return` of BAND_SEL -/
  | retTier (src : TempSrc)
  /-- `PWM.CNT <- 0` -/
  | pwmCntZero
  /-- `PWM.FAST <- 1` -/
  | pwmFast
  /-- `PWM.NINV <- 1` -/
  | pwmNinv
  /-- `PWM.PS <- PWM_PS_SEL` -/
  | pwmPs
  /-- `PWM.CMP <- compare(duty)`; emits CmpWrite -/
  | pwmCmp (duty : BitVec 8)
  /-- `PIN.PWM_OE <- 1` -/
  | pwmOe
  /-- `PIN.IN1_OE <- 1` -/
  | in1Oe
  /-- `PIN.IN2_OE <- 1` -/
  | in2Oe
  /-- `PIN.IN1 <- level` -/
  | in1 (level : Bool)
  /-- `PIN.IN2 <- level` -/
  | in2 (level : Bool)
  /-- `MOT.RUN <- b` -/
  | motRun (b : Bool)
  /-- `MOT.DIR <- d` -/
  | motDir (d : Direction)
  /-- `MOT.SPEED <- v` -/
  | motSpeed (v : BitVec 8)
  /-- `CTL.PHASE <- p` -/
  | ctlPhase (p : Phase)
  /-- `CTL.LOOP <- b` -/
  | ctlLoop (b : Bool)
  /-- `CTL.TEMP <-` the value TEMP_CONV returned -/
  | ctlTemp
  /-- `CTL.TIER <-` the value BAND_SEL returned -/
  | ctlTier
  /-- `CTL.MSTATE <- m` -/
  | ctlMstate (m : MotorState)
  /-- `CTL.FAULT <- 1` (60_exceptions.md R216) -/
  | ctlFault
  /-- `emit DispInit` -/
  | dispInit
  /-- `emit DispTemp(CTL.TEMP)` -/
  | dispTemp
  /-- `emit DispFan(CTL.MSTATE)` -/
  | dispFan
deriving DecidableEq, Repr

/-! ## Registers -/

/-- The converter's registers, numbers 0 to 3 (10_state.md R21 to R24). -/
structure Adc where
  en : Bool
  refs : BitVec 2
  div : BitVec 3
  /-- CH_BITS bits inside an 8-bit register -/
  ch : BitVec 8
  busy : Bool
  done : Bool
  data : BitVec 10
deriving DecidableEq, Repr

/-- The timer's registers, numbers 4 to 6 (10_state.md R25 to R27). -/
structure Pwm where
  fast : Bool
  ninv : Bool
  ps : BitVec 3
  cnt : BitVec 8
  cmp : BitVec 8
deriving DecidableEq, Repr

/-- The pin latches, numbers 7 and 8 (10_state.md R28, R29). -/
structure Pins where
  in1Oe : Bool
  in2Oe : Bool
  pwmOe : Bool
  in1 : Bool
  in2 : Bool
deriving DecidableEq, Repr

/-- The actuator's state machine, number 9 (10_state.md R31). -/
structure Mot where
  run : Bool
  dir : Direction
  speed : BitVec 8
deriving DecidableEq, Repr

/-- The control loop's registers, numbers 10 and 11, and the latch CTL.TIER (10_state.md R32 to R34, R37). -/
structure Ctl where
  /-- the sequencer's position, a code of R37 (9 to 15 reserved) -/
  phase : BitVec 4
  loop : Bool
  mstate : MotorState
  fault : Bool
  temp : BitVec 16
  tier : BitVec 3
deriving DecidableEq, Repr

/-! ## The environment -/

/-- One value of the environment's function AIN (41_adc_sampling.md R118): the answer to conversion `k` on `ch`. -/
structure AinEntry where
  ch : BitVec 8
  k : Nat
  value : BitVec 10
deriving DecidableEq, Repr

/-- What comes from outside SEQ, as plain data (the MODEL's own fields). -/
structure Env where
  /-- the coming assertions of `rst`, as many as there are: the first comes when its number of gaps has passed, one before
  each micro-step and one wherever SEQ only waits; each further one is counted from the reset before it; beyond the list
  `rst` stays low (R11, R230; notes/assumptions/8.md) -/
  rst : List Nat
  /-- what is presented on the command port at each coming step (20_memory.md R67); nothing beyond the list -/
  cmds : List (Option CmdWord)
  /-- what CONV and TMR do in the coming gaps (R74); `Config.freeGap` beyond the list -/
  gaps : List Gap
  /-- the values of AIN that are given; `Config.ain` elsewhere -/
  ain : List AinEntry
deriving DecidableEq, Repr

/-! ## The state -/

/-- The whole state of the block. -/
structure State where
  adc : Adc
  pwm : Pwm
  pin : Pins
  mot : Mot
  ctl : Ctl
  /-- the result latch RES (10_state.md R35) -/
  res : BitVec 16
  /-- the micro-steps that remain of the operation SEQ executes; empty between operations. Between two steps of the machine
  it is non-empty only where SEQ is held at a poll; between two micro-steps (`microStep`) it is the rest of the operation -/
  pending : List Micro
  /-- the number of conversions completed since reset, the `k` of R118 -/
  convs : Nat
  /-- the event trace, oldest event first (00_scope.md R15) -/
  trace : List Event
  env : Env
  /-- how many gaps have passed: the argument of the next `Config.freeGap` -/
  gapsUsed : Nat
  /-- how many over-range duties have been drawn: the count that the next `Config.freeCompare` is applied to -/
  draws : Nat
  /-- the parameters of 00_scope.md R9, which no step changes -/
  params : Params
deriving DecidableEq, Repr

/-- The reasons the machine stops with a fault: NONE. The block raises no exception and has no trap mechanism
(60_exceptions.md R210, R215); a hang (R212) and the HardwareTimeout of R216 are states. Nobody raises one. -/
inductive Fault where
deriving DecidableEq, Repr

/-- The reasons the model refuses a step. -/
inductive Refusal where
  /-- Raised by an arm of `exec` whose instruction has no meaning yet; no arm of this model does. SAFE. -/
  | notModelled (mnemonic : String)
  /-- Raised by the sequencer when CTL.PHASE holds a reserved code, 9 to 15: "never entered" (10_state.md R37), to be
  refused by 93_implementation_defined.md U5. SAFE: unreachable from reset, nothing is proved of such a step. -/
  | reservedPhase (code : BitVec 4)
  /-- Raised by the sequencer at IT_ACT when CTL.TIER holds a reserved code, 5 to 7: "never produced"
  (30_encoding.md R93), to be refused by U5. SAFE: unreachable from reset. -/
  | reservedTier (code : BitVec 3)
deriving DecidableEq, Repr

/-- The machine right after reset: every field as in the table of 10_state.md R42, no conversion and no operation in
progress (70_reset_and_hazards.md R230, R232), `Reset` in the trace (R233), the default parameters of 00_scope.md R9,
and an environment of which nothing is given. -/
def State.reset : State where
  adc := { en := false, refs := 0#2, div := 0#3, ch := 0#8, busy := false, done := false, data := 0#10 }
  pwm := { fast := false, ninv := false, ps := 0#3, cnt := 0#8, cmp := 0#8 }
  pin := { in1Oe := false, in2Oe := false, pwmOe := false, in1 := false, in2 := false }
  mot := { run := false, dir := .cw, speed := 0#8 }
  ctl := { phase := 0#4, loop := false, mstate := .off, fault := false, temp := 0#16, tier := 0#3 }
  res := 0#16
  pending := []
  convs := 0
  trace := [.reset]
  env := { rst := [], cmds := [], gaps := [], ain := [] }
  gapsUsed := 0
  draws := 0
  params := Config.defaults

end Sys2Proof.Machine
end

