-- ==== Sys2Proof/Machine/Flags.lean ====
section
/-! DEFINITION. Codes, enables and outputs: everything the spec computes from the state as one bit or one code, and the
registers as the observation port shows them. No arithmetic of the block sets a flag (10_state.md R38). -/

namespace Sys2Proof.Machine

/-! ## Codes (10_state.md R37, 30_encoding.md R94) -/

/-- The code of a phase (R37). -/
def Phase.code : Phase → BitVec 4
  | .idle => 0#4
  | .bootAdc => 1#4
  | .bootMot => 2#4
  | .bootDisp => 3#4
  | .itSample => 4#4
  | .itDispTemp => 5#4
  | .itSelect => 6#4
  | .itAct => 7#4
  | .itDispFan => 8#4

/-- The phase of a code; none for the reserved codes 9 to 15 (R37). -/
def Phase.ofCode (c : BitVec 4) : Option Phase :=
  match c.toNat with
  | 0 => some .idle
  | 1 => some .bootAdc
  | 2 => some .bootMot
  | 3 => some .bootDisp
  | 4 => some .itSample
  | 5 => some .itDispTemp
  | 6 => some .itSelect
  | 7 => some .itAct
  | 8 => some .itDispFan
  | _ => none

/-- The bit of a MotorState (R94). -/
def MotorState.bit : MotorState → Bool
  | .off => false
  | .on => true

/-- The bit of a MotorDirection (R92). -/
def dirBit : Direction → Bool
  | .cw => false
  | .ccw => true

/-! ## Enables -/

/-- CONV's step `complete` is enabled exactly when BUSY = 1, EN = 1 and DIV != 0 (41_adc_sampling.md R118). -/
def State.convEnabled (s : State) : Bool := s.adc.busy && s.adc.en && (s.adc.div != 0#3)

/-- TMR is enabled exactly when PS != 0 (43_pwm.md R149). -/
def State.tmrEnabled (s : State) : Bool := s.pwm.ps != 0#3

/-- `cmd_ready` (20_memory.md R67): IDLE, no fault, no operation executing (nothing of one left in `pending`, at the grain
of `microStep` too); never with AUTORUN = 1, when the port is
closed from reset on (R68, 70_reset_and_hazards.md R234; DEDUCED, notes/assumptions/9.md). -/
def State.cmdReady (s : State) : Bool :=
  (s.ctl.phase == Phase.idle.code) && !s.ctl.fault && s.pending.isEmpty && !s.params.autorun

/-- The MotorState that a tier leads to: Off for the stop tier, On for the others (45_control_loop.md R192). -/
def mstateOfTier (tier : BitVec 3) : MotorState := if tier = 0#3 then .off else .on

/-! ## Outputs -/

/-- What the block drives on `in1` (10_state.md R29): the latch while its output enable is 1, else no level. -/
def State.in1Out (s : State) : Option Bool := if s.pin.in1Oe then some s.pin.in1 else none

/-- What the block drives on `in2` (R29). -/
def State.in2Out (s : State) : Option Bool := if s.pin.in2Oe then some s.pin.in2 else none

/-- What the block drives on `pwm_out` (43_pwm.md R151): high while CNT < CMP; not driven unless PWM_OE, FAST and NINV
are all 1. -/
def State.pwmOut (s : State) : Option Bool :=
  if s.pin.pwmOe && s.pwm.fast && s.pwm.ninv then some (decide (s.pwm.cnt.toNat < s.pwm.cmp.toNat)) else none

/-- The binding of a pin (20_memory.md R72). -/
def PinMap.bound (m : PinMap) : PinName → PinId
  | .in1 => m.in1
  | .in2 => m.in2
  | .pwmOut => m.pwmOut

/-- The level that the block drives onto the wire of a pin through one output, or none where the binding names a pin that
does not exist, so that no write reaches a wire (20_memory.md R71).
DESIGN CHOICE (notes/assumptions/21.md, unsafe): where PINMAP binds two outputs to one and the same existing pin, which R72
neither forbids nor resolves, each output has its own level here, even a different one; what the shared pin itself then
shows is stated nowhere and is not modelled. -/
def State.wire (s : State) (p : PinName) : Option Bool :=
  if (PinMap.bound s.params.pinMap p) ∈ s.params.pinMap.present then
    match p with
    | .in1 => s.in1Out
    | .in2 => s.in2Out
    | .pwmOut => s.pwmOut
  else none

/-! ## The observation port (10_state.md R20, 20_memory.md R66) -/

/-- A bit at a position of a 16-bit register value. -/
def bitAt (b : Bool) (pos : Nat) : BitVec 16 := (BitVec.ofBool b).setWidth 16 <<< pos

/-- The register with number `n` as the observation port answers it, zero-extended to 16 bits; bits that R20 lists no
field for are 0, and so is every register above 11 (R63). Reading changes nothing (R64): this is a function. -/
def State.readReg (s : State) (n : Nat) : BitVec 16 :=
  match n with
  | 0 => bitAt s.adc.en 7 ||| (s.adc.refs.setWidth 16 <<< 5) ||| s.adc.div.setWidth 16
  | 1 => s.adc.ch.setWidth 16
  | 2 => bitAt s.adc.busy 1 ||| bitAt s.adc.done 0
  | 3 => s.adc.data.setWidth 16
  | 4 => bitAt s.pwm.fast 7 ||| bitAt s.pwm.ninv 6 ||| s.pwm.ps.setWidth 16
  | 5 => s.pwm.cnt.setWidth 16
  | 6 => s.pwm.cmp.setWidth 16
  | 7 => bitAt s.pin.pwmOe 2 ||| bitAt s.pin.in2Oe 1 ||| bitAt s.pin.in1Oe 0
  | 8 => bitAt s.pin.in2 1 ||| bitAt s.pin.in1 0
  | 9 => bitAt s.mot.run 15 ||| bitAt (dirBit s.mot.dir) 14 ||| s.mot.speed.setWidth 16
  | 10 => bitAt s.ctl.fault 7 ||| bitAt s.ctl.loop 5 ||| bitAt s.ctl.mstate.bit 4 ||| s.ctl.phase.setWidth 16
  | 11 => s.ctl.temp
  | _ => 0#16

end Sys2Proof.Machine
end

