-- ==== Sys2Proof/Machine/Operands.lean ====
section
/-! DEFINITION. Operand forms and the arithmetic of the block (42_temperature.md R138): truncation of a channel, the
transducer's formula, the compare value, band selection. All of it unsigned and exact. -/

namespace Sys2Proof.Machine

/-- `trunc_CH_BITS(channel)` (41_adc_sampling.md R113; 90_conflicts.md C2), in the 8-bit register ADC_MUX. -/
def chanTrunc (p : Params) (channel : Nat) : BitVec 8 := BitVec.ofNat 8 (channel % 2 ^ p.chBits)

/-- The sampling-clock factor of a ClockDivisor code: `2^c`, none for code 0 (30_encoding.md R91). It bears on how long
a conversion takes, which no rule fixes. -/
def divFactor (c : BitVec 3) : Option Nat := if c = 0#3 then none else some (2 ^ c.toNat)

/-- The temperature of a sample: the floor of the exact quotient, with no clamp and no wrap (42_temperature.md R130,
R132 to R134). -/
def temperature (vrefMv sample : Nat) : Nat :=
  (Config.maxTemperature * sample * vrefMv) / (Config.maxDigitalValue * Config.maxSensorMv)

/-- `zext_16` of a temperature (R130); exact for parameters that meet 00_scope.md R10; beyond them reduced
modulo 2^16 (DESIGN CHOICE, unsafe, notes/assumptions/17.md). -/
def tempWord (p : Params) (sample : BitVec 10) : BitVec 16 := BitVec.ofNat 16 (temperature p.vrefMv sample.toNat)

/-- `compare(d) = ceil(d * 255 / 100)` as an integer quotient (43_pwm.md R143, R144; 90_conflicts.md C1). -/
def compareNat (d : Nat) : Nat := (Config.pwmTop * d + 99) / 100

/-- The compare value of a duty of 0 to 100, in the 8 bits of PWM.CMP (R143). -/
def compareWord (duty : BitVec 8) : BitVec 8 := BitVec.ofNat 8 (compareNat duty.toNat)

/-- Whether a duty is within the contract 0 to 100 (43_pwm.md R141). -/
def dutyInContract (duty : BitVec 8) : Bool := decide (duty.toNat ≤ 100)

/-- The tier code of a temperature: bands tried from high to low, boundaries in the higher band (45_control_loop.md
R181 to R183). -/
def bandTier (temp : BitVec 16) : BitVec 3 :=
  if 120 ≤ temp.toNat then 4#3
  else if 90 ≤ temp.toNat then 3#3
  else if 60 ≤ temp.toNat then 2#3
  else if 30 ≤ temp.toNat then 1#3
  else 0#3

/-- The duty cycle `25 * k` of tier code `k` (30_encoding.md R93). -/
def tierDuty (tier : BitVec 3) : BitVec 8 := BitVec.ofNat 8 (25 * tier.toNat)

/-- The sample `TEMP_CONV` converts: its operand, or the sample `ADC_READ` returned in RES (45_control_loop.md R188;
a sample is 10 bits, R95; DEDUCED, safe, notes/assumptions/16.md). -/
def sampleOf (src : SampleSrc) (s : State) : BitVec 10 :=
  match src with
  | .imm sample => sample
  | .result => s.res.setWidth 10

/-- The temperature `BAND_SEL` looks at: its operand, or CTL.TEMP (45_control_loop.md R188, R191). -/
def tempOf (src : TempSrc) (s : State) : BitVec 16 :=
  match src with
  | .imm temp => temp
  | .latch => s.ctl.temp

end Sys2Proof.Machine
end

