-- ==== Sys2Proof/Machine/Ops.lean ====
section
/-! DEFINITION. The shared operations: the steps of CONV and TMR and the gap in which they fall, reset, the
HardwareTimeout of the bounded poll (the one thing the spec raises), the effect of every micro-step, and the run of a
list of micro-steps. -/

namespace Sys2Proof.Machine

/-! ## The other agents (41_adc_sampling.md R118, 43_pwm.md R150, 20_memory.md R74) -/

/-- `AIN(ch, k)` (R118): the environment's table, and the free value where the table gives nothing. -/
def State.ainAt (s : State) (ch : BitVec 8) (k : Nat) : BitVec 10 :=
  match s.env.ain.find? (fun e => e.ch == ch && e.k == k) with
  | some e => e.value
  | none => Config.ain ch k

/-- The sample that CONV would write now. -/
def State.sampleNow (s : State) : BitVec 10 := s.ainAt s.adc.ch s.convs

/-- `CONV.complete` (R118): the three writes as one atomic step, and ConvDone. -/
def State.convComplete (s : State) : State :=
  { s with
    adc := { s.adc with data := s.sampleNow, busy := false, done := true }
    convs := s.convs + 1
    trace := s.trace ++ [.convDone s.sampleNow] }

/-- `TMR.tick` (R150), nothing while the timer has no clock (R149). -/
def State.tmrTick (s : State) : State :=
  { s with pwm := { s.pwm with cnt := if s.tmrEnabled then s.pwm.cnt + 1#8 else s.pwm.cnt } }

/-- `n` ticks of TMR at once. -/
def State.tmrTicks (n : Nat) (s : State) : State :=
  { s with pwm := { s.pwm with cnt := if s.tmrEnabled then s.pwm.cnt + BitVec.ofNat 8 n else s.pwm.cnt } }

/-- The gap that lies `k` gaps ahead: from the environment's list, and the free value beyond it. -/
def State.gapAt (s : State) (k : Nat) : Gap :=
  match s.env.gaps[k]? with
  | some g => g
  | none => Config.freeGap (s.gapsUsed + (k - s.env.gaps.length))

/-- CONV's part of a gap: it completes if the gap says so and it is enabled (R118). -/
def State.convMove (g : Gap) (s : State) : State :=
  if s.convEnabled && g.complete then s.convComplete else s

/-- The next reset is one gap nearer; the ones behind it are counted from it. -/
def rstNearer : List Nat → List Nat
  | [] => []
  | n :: later => (n - 1) :: later

/-- The bookkeeping of a gap: one gap of the list is used up (or one free value, past its end), and the next reset is
one gap nearer. -/
def State.useGap (s : State) : State :=
  { s with
    env := { s.env with gaps := s.env.gaps.tail, rst := rstNearer s.env.rst }
    gapsUsed := if s.env.gaps.isEmpty then s.gapsUsed + 1 else s.gapsUsed }

/-- One gap between two micro-steps of SEQ: CONV and TMR move (R74). -/
def State.gapStep (s : State) : State :=
  ((s.convMove (s.gapAt 0)).tmrTicks (s.gapAt 0).ticks).useGap

/-! ## Reset (70_reset_and_hazards.md R230 to R233) -/

/-- `rst`: every field takes its value of 10_state.md R42, the operation in progress and a conversion in flight are
abandoned, `k` restarts at 0; the parameters are untouched (R233) and `Reset` is recorded. The model's own fields are the
environment's and go on, the resets that are still to come among them. -/
def State.applyReset (s : State) : State :=
  { State.reset with
    trace := s.trace ++ [.reset]
    env := { s.env with rst := s.env.rst.tail }
    gapsUsed := s.gapsUsed
    draws := s.draws
    params := s.params }

/-- Whether `rst` is asserted now, before the next micro-step. -/
def State.rstNow (s : State) : Bool := s.env.rst.head? == some 0

/-- Do `k` after the gap before it; reset wins over everything (R230). -/
def gapThen (k : State → State) (s : State) : State :=
  if s.rstNow then s.applyReset else k s.gapStep

/-! ## The bounded poll (41_adc_sampling.md R114, R115; 60_exceptions.md R216) -/

/-- What one look of the poll leads to. -/
inductive PollResult where
  /-- the flag is set: the wait is over -/
  | through
  /-- keep waiting, with this many looks left -/
  | again (looks : Option Nat)
  /-- the last look found nothing -/
  | timeout
deriving DecidableEq, Repr

/-- One look at ADC.DONE (41_adc_sampling.md R114, R115; with a finite bound 60_exceptions.md R216, the flag being
tested before the bound). A bound of 0 allows no look. -/
def pollLook (looks : Option Nat) (done : Bool) : PollResult :=
  match looks with
  | none => if done then .through else .again none
  | some 0 => .timeout
  | some (n + 1) => if done then .through else if n = 0 then .timeout else .again (some n)

/-! ## Micro-steps (00_scope.md R13) -/

/-- An event is appended to the trace (R15). -/
def State.emit (s : State) (e : Event) : State := { s with trace := s.trace ++ [e] }

/-- The value that `PWM.CMP <- compare(duty)` writes: the ceiling for a duty of 0 to 100 (43_pwm.md R143), else the
free draw (R145).
DESIGN CHOICE (notes/assumptions/7.md): the draw is a free value of the duty and of the number of draws so far, so that two
duties issued from one state may draw the same value or two different ones; one duty, issued after equally many draws, draws
one value, whatever else the state holds. R145 says neither. -/
def State.compareValue (s : State) (duty : BitVec 8) : BitVec 8 :=
  if dutyInContract duty then compareWord duty else Config.freeCompare duty s.draws

/-- The write of PWM.CMP with its event; an over-range duty uses up one draw. -/
def State.writeCmp (s : State) (duty : BitVec 8) : State :=
  { s with
    pwm := { s.pwm with cmp := s.compareValue duty }
    draws := if dutyInContract duty then s.draws else s.draws + 1
    trace := s.trace ++ [.cmpWrite (s.compareValue duty)] }

/-- The look a micro-step takes at the completion flag, if it is a poll. -/
def Micro.poll? : Micro → Option (Option Nat)
  | .adcPoll looks => some looks
  | _ => none

/-- The effect of one micro-step: the write of one field, with its event (R13, R15). The poll writes nothing. -/
def Micro.apply (m : Micro) (s : State) : State :=
  match m with
  | .opStart op => s.emit (.opStart op)
  | .opReturn op => s.emit (.opReturn op)
  | .adcRefs v => { s with adc := { s.adc with refs := v } }
  | .adcDiv v => { s with adc := { s.adc with div := v } }
  | .adcEn b => { s with adc := { s.adc with en := b } }
  | .adcCh channel => { s with adc := { s.adc with ch := chanTrunc s.params channel } }
  | .adcTrigger => { s with adc := { s.adc with busy := true }, trace := s.trace ++ [.convStart s.adc.ch] }
  | .adcPoll _ => s
  | .adcClearDone => { s with adc := { s.adc with done := false } }
  | .retSample => { s with res := s.adc.data.setWidth 16 }
  | .retTemp src => { s with res := tempWord s.params (sampleOf src s) }
  | .retTier src => { s with res := (bandTier (tempOf src s)).setWidth 16 }
  | .pwmCntZero => { s with pwm := { s.pwm with cnt := 0#8 } }
  | .pwmFast => { s with pwm := { s.pwm with fast := true } }
  | .pwmNinv => { s with pwm := { s.pwm with ninv := true } }
  | .pwmPs => { s with pwm := { s.pwm with ps := s.params.pwmPsSel } }
  | .pwmCmp duty => s.writeCmp duty
  | .pwmOe => { s with pin := { s.pin with pwmOe := true }, trace := s.trace ++ [.pinWrite .pwmOut .oe true] }
  | .in1Oe => { s with pin := { s.pin with in1Oe := true }, trace := s.trace ++ [.pinWrite .in1 .oe true] }
  | .in2Oe => { s with pin := { s.pin with in2Oe := true }, trace := s.trace ++ [.pinWrite .in2 .oe true] }
  | .in1 level => { s with pin := { s.pin with in1 := level }, trace := s.trace ++ [.pinWrite .in1 .level level] }
  | .in2 level => { s with pin := { s.pin with in2 := level }, trace := s.trace ++ [.pinWrite .in2 .level level] }
  | .motRun b => { s with mot := { s.mot with run := b } }
  | .motDir d => { s with mot := { s.mot with dir := d } }
  | .motSpeed v => { s with mot := { s.mot with speed := v } }
  | .ctlPhase p => { s with ctl := { s.ctl with phase := p.code } }
  | .ctlLoop b => { s with ctl := { s.ctl with loop := b } }
  | .ctlTemp => { s with ctl := { s.ctl with temp := s.res } }
  | .ctlTier => { s with ctl := { s.ctl with tier := s.res.setWidth 3 } }
  | .ctlMstate m => { s with ctl := { s.ctl with mstate := m } }
  | .ctlFault => { s with ctl := { s.ctl with fault := true } }
  | .dispInit => s.emit .dispInit
  | .dispTemp => s.emit (.dispTemp s.ctl.temp)
  | .dispFan => s.emit (.dispFan s.ctl.mstate)

/-- What a micro-step leads to in the state after its gap: a poll looks at the flag, every other one simply goes on. -/
def Micro.look (m : Micro) (s : State) : PollResult :=
  match m.poll? with
  | none => .through
  | some looks => pollLook looks s.adc.done

/-- Run writes in order, one gap before each; reset wins before any of them (70_reset_and_hazards.md R230). -/
def runWrites : List Micro → State → State
  | [], s => { s with pending := [] }
  | m :: ms, s => gapThen (fun s1 => runWrites ms (m.apply s1)) s

/-- The writes of `raise HardwareTimeout()` in the order of R216: three micro-steps of their own (00_scope.md R13;
notes/assumptions/12.md). RES, BUSY, the pins and the PWM are not among them. -/
def timeoutMicros : List Micro := [.ctlFault, .ctlPhase .idle, .ctlLoop false]

/-- Taking HardwareTimeout (R216), the one thing the spec raises: FAULT, then PHASE, then LOOP, with a gap before each; the
operation and any enclosing CTL_ITER or CTL_RUN end. There is no return from it but reset (R215). -/
def State.raiseTimeout (s : State) : State := runWrites timeoutMicros s

/-- Run the micro-steps of an operation in order, one gap before each (00_scope.md R14, 20_memory.md R73, R74). A poll
that finds the flag clear leaves SEQ held there: the rest, from the poll on, stays in `pending`. -/
def runMicros : List Micro → State → State
  | [], s => { s with pending := [] }
  | m :: ms, s =>
    gapThen (fun s1 =>
      match m.look s1 with
      | .through => runMicros ms (m.apply s1)
      | .again left => { s1 with pending := .adcPoll left :: ms }
      | .timeout => s1.raiseTimeout) s

/-! ## Between two micro-steps (00_scope.md R14, 20_memory.md R66, R74) -/

/-- One micro-step `m` in the state after its gap, with `ms` behind it: `pending` is what is then left to execute. -/
def microEffect (m : Micro) (ms : List Micro) (s : State) : State :=
  match m.look s with
  | .through => { m.apply s with pending := ms }
  | .again left => { s with pending := .adcPoll left :: ms }
  | .timeout => { s with pending := timeoutMicros }

/-- A gap and one micro-step of the operation in progress: the grain at which the observation port may be read and the
pins are seen. `runMicros` is this, repeated (Laws: `runMicros_eq_microStep`). -/
def microStep (s : State) : State :=
  match s.pending with
  | [] => s
  | m :: ms => gapThen (microEffect m ms) s

/-- The state inside an operation `ms` that SEQ begins in `s`, after `k` of its micro-steps. -/
def State.inside (ms : List Micro) (k : Nat) (s : State) : State := microStep^[k] { s with pending := ms }

/-- An operation as SEQ executes it: its start, its micro-steps, its return (R15). -/
def opMicros (op : BitVec 8) (body : List Micro) : List Micro := .opStart op :: body ++ [.opReturn op]

end Sys2Proof.Machine
end

