-- ==== Sys2Proof/Machine/Adc.lean ====
section
/-! DEFINITION. The Analog Sampling Unit: ADC_INIT, ADC_READ, ADC_SHUTDOWN (41_adc_sampling.md). -/

namespace Sys2Proof.Machine

/-- The micro-steps of `ADC_INIT refs, div` (R110); the same for `div` = 0 (R112) and on re-issue (R111). -/
def adcInitMicros (refs : BitVec 2) (div : BitVec 3) : List Micro :=
  opMicros 0x01#8 [.adcRefs refs, .adcDiv div, .adcEn true]

/-- The micro-steps of `ADC_READ channel` (R113, R114), the poll bounded by POLL_BOUND if that is finite
(60_exceptions.md R216). -/
def adcReadMicros (pollBound : Option Nat) (channel : Nat) : List Micro :=
  opMicros 0x02#8 [.adcCh channel, .adcTrigger, .adcPoll pollBound, .adcClearDone, .retSample]

/-- The micro-steps of `ADC_SHUTDOWN` (R121). -/
def adcShutdownMicros : List Micro :=
  opMicros 0x03#8 [.adcRefs 0#2, .adcDiv 0#3, .adcEn false]

/-- `ADC_INIT refs, div` (R110 to R112). -/
def execAdcInit (refs : BitVec 2) (div : BitVec 3) (s : State) : Host.Outcome State Fault Refusal :=
  .next (runMicros (adcInitMicros refs div) s)

/-- `ADC_READ channel` (R113 to R117). If the converter has not completed at the first look, the next state has SEQ held
at the poll; if it never does, every later step leaves it there (R115, R116). -/
def execAdcRead (channel : BitVec 16) (s : State) : Host.Outcome State Fault Refusal :=
  .next (runMicros (adcReadMicros s.params.pollBound channel.toNat) s)

/-- `ADC_SHUTDOWN` (R121, R122). -/
def execAdcShutdown (s : State) : Host.Outcome State Fault Refusal :=
  .next (runMicros adcShutdownMicros s)

end Sys2Proof.Machine
end

