-- ==== Sys2Proof/Machine/Pwm.lean ====
section
/-! DEFINITION. The PWM Generator: PWM_START (43_pwm.md). -/

namespace Sys2Proof.Machine

/-- The micro-steps of `PWM_START duty`, in the order of the document's sentence (R142; R145 for a duty above 100). -/
def pwmStartMicros (duty : BitVec 8) : List Micro :=
  opMicros 0x05#8 [.pwmCntZero, .pwmFast, .pwmNinv, .pwmPs, .pwmCmp duty, .pwmOe]

/-- `PWM_START duty` (R140 to R147). -/
def execPwmStart (duty : BitVec 8) (s : State) : Host.Outcome State Fault Refusal :=
  .next (runMicros (pwmStartMicros duty) s)

end Sys2Proof.Machine
end

