-- ==== Sys2Proof/Machine/Motor.lean ====
section
/-! DEFINITION. The Motor Actuator: MOT_INIT, MOT_ROTATE, MOT_STOP (44_motor.md). -/

namespace Sys2Proof.Machine

/-- `MOT.RUN <- 0; MOT.DIR <- 0; MOT.SPEED <- 0`: entry to Stopped (R160). -/
def stoppedMicros : List Micro := [.motRun false, .motDir .cw, .motSpeed 0#8]

/-- The two level writes of a direction's pattern, first output before second (R161, R165). -/
def patternMicros : Direction → List Micro
  | .cw => [.in1 false, .in2 true]
  | .ccw => [.in1 true, .in2 false]

/-- The micro-steps of `MOT_INIT` (R162). -/
def motInitMicros : List Micro :=
  opMicros 0x06#8 ([.in1Oe, .in2Oe, .in1 false, .in2 false] ++ stoppedMicros)

/-- The micro-steps of `MOT_ROTATE dir, speed` (R165): the pattern, then PWM_START in full, then Running(dir, speed). -/
def motRotateMicros (dir : Direction) (speed : BitVec 8) : List Micro :=
  opMicros 0x07#8
    (patternMicros dir ++ pwmStartMicros speed ++ [.motRun true, .motDir dir, .motSpeed speed])

/-- The micro-steps of `MOT_STOP` (R168, R169): MOT_ROTATE(CW, 0) in full, then both pins low, then Stopped. -/
def motStopMicros : List Micro :=
  opMicros 0x08#8 (motRotateMicros .cw 0#8 ++ [.in1 false, .in2 false] ++ stoppedMicros)

/-- `MOT_INIT` (R162, R163). -/
def execMotInit (s : State) : Host.Outcome State Fault Refusal :=
  .next (runMicros motInitMicros s)

/-- `MOT_ROTATE dir, speed` (R164 to R167). -/
def execMotRotate (dir : Direction) (speed : BitVec 8) (s : State) : Host.Outcome State Fault Refusal :=
  .next (runMicros (motRotateMicros dir speed) s)

/-- `MOT_STOP` (R168 to R170). -/
def execMotStop (s : State) : Host.Outcome State Fault Refusal :=
  .next (runMicros motStopMicros s)

end Sys2Proof.Machine
end

