-- ==== Sys2Proof/Machine/Temp.lean ====
section
/-! DEFINITION. The Temperature Transducer: TEMP_CONV (42_temperature.md). -/

namespace Sys2Proof.Machine

/-- The micro-steps of `TEMP_CONV` on a sample from `src`: RES only (R130, R136). -/
def tempConvMicros (src : SampleSrc) : List Micro := opMicros 0x04#8 [.retTemp src]

/-- `TEMP_CONV sample` (R130 to R136). -/
def execTempConv (sample : BitVec 10) (s : State) : Host.Outcome State Fault Refusal :=
  .next (runMicros (tempConvMicros (.imm sample)) s)

end Sys2Proof.Machine
end

