-- ==== Sys2Proof/Machine/Control.lean ====
section
/-! DEFINITION. The Control Loop: NOP, BAND_SEL, the phases of the orchestrator, CTL_ITER, CTL_RUN
(45_control_loop.md). -/

namespace Sys2Proof.Machine

/-! ## NOP and BAND_SEL -/

/-- `NOP` (R180). -/
def execNop (s : State) : Host.Outcome State Fault Refusal :=
  .next (runMicros (opMicros 0x00#8 []) s)

/-- The micro-steps of `BAND_SEL` on a temperature from `src`: RES only (R183). -/
def bandSelMicros (src : TempSrc) : List Micro := opMicros 0x09#8 [.retTier src]

/-- `BAND_SEL temp` (R181 to R183). -/
def execBandSel (temp : BitVec 16) (s : State) : Host.Outcome State Fault Refusal :=
  .next (runMicros (bandSelMicros (.imm temp)) s)

/-! ## The phases (R188, R196, R197; 70_reset_and_hazards.md R236) -/

/-- Step 4 for a tier (R192): MOT_STOP for code 0, else MOT_ROTATE CW, 25 * k; then the MotorState. -/
def actMicros (tier : BitVec 3) : List Micro :=
  (if tier = 0#3 then motStopMicros else motRotateMicros .cw (tierDuty tier)) ++ [.ctlMstate (mstateOfTier tier)]

/-- The end of step 5 (R188, R196): back to IT_SAMPLE in the loop; else to IDLE, and CTL_ITER returns. -/
def iterEndMicros (loop : Bool) : List Micro :=
  if loop then [.ctlPhase .itSample] else [.ctlPhase .idle, .opReturn 0x0A#8]

/-- The micro-steps of one phase, up to and including the write of the next phase (the successor table of R196). IDLE
has none. A reserved tier code at IT_ACT is refused (93_implementation_defined.md U5). -/
def phaseMicros (p : Phase) (s : State) : Except Refusal (List Micro) :=
  match p with
  | .idle => .ok []
  | .bootAdc => .ok (adcInitMicros s.params.refsSel s.params.divSel ++ [.ctlPhase .bootMot])
  | .bootMot => .ok (motInitMicros ++ [.ctlPhase .bootDisp])
  | .bootDisp => .ok [.dispInit, .ctlPhase .itSample]
  | .itSample =>
    .ok (adcReadMicros s.params.pollBound s.params.sensorChannel ++ tempConvMicros .result
      ++ [.ctlTemp, .ctlPhase .itDispTemp])
  | .itDispTemp => .ok [.dispTemp, .ctlPhase .itSelect]
  | .itSelect => .ok (bandSelMicros .latch ++ [.ctlTier, .ctlPhase .itAct])
  | .itAct =>
    if s.ctl.tier.toNat ≤ 4 then .ok (actMicros s.ctl.tier ++ [.ctlPhase .itDispFan])
    else .error (.reservedTier s.ctl.tier)
  | .itDispFan => .ok (.dispFan :: iterEndMicros s.ctl.loop)

/-- Execute one phase. -/
def runPhase (p : Phase) (s : State) : Host.Outcome State Fault Refusal :=
  match phaseMicros p s with
  | .ok ms => .next (runMicros ms s)
  | .error r => .refused r

/-- The phase SEQ executes next: none while an operation is held at its poll, and none in IDLE. -/
def State.nextPhase (s : State) : Option Phase :=
  if s.pending.isEmpty then
    match Phase.ofCode s.ctl.phase with
    | some .idle => none
    | p => p
  else none

/-- Execute up to `n` phases one after the other, stopping early where SEQ is held or back in IDLE. -/
def runPhases : Nat → State → Host.Outcome State Fault Refusal
  | 0, s => .next s
  | n + 1, s =>
    match s.nextPhase with
    | none => .next s
    | some p =>
      match runPhase p s with
      | .next t => runPhases n t
      | .fault f => .fault f
      | .refused r => .refused r

/-! ## CTL_ITER and CTL_RUN -/

/-- `CTL_ITER` (R185 to R193): PHASE <- IT_SAMPLE, then the five phases of one iteration. If the conversion is not
answered at once, the next state has SEQ held at the poll of step 1, and the sequencer goes on from there. -/
def execCtlIter (s : State) : Host.Outcome State Fault Refusal :=
  runPhases 5 (runMicros [.opStart 0x0A#8, .ctlPhase .itSample] s)

/-- The start of the orchestrator (R197, 70_reset_and_hazards.md R236): LOOP <- 1, then the three boot phases. The loop
that follows is the sequencer's, one phase a step; it never returns (R198). -/
def startOrchestrator (s : State) : Host.Outcome State Fault Refusal :=
  runPhases 3 (runMicros [.opStart 0x0B#8, .ctlLoop true, .ctlPhase .bootAdc] s)

/-- `CTL_RUN` (R197, R198). -/
def execCtlRun (s : State) : Host.Outcome State Fault Refusal := startOrchestrator s

end Sys2Proof.Machine
end

