-- ==== Sys2Proof/Machine/Dispatch.lean ====
section
/-! DEFINITION. One arm per operation. -/

namespace Sys2Proof.Machine

/-- The meaning of an operation that SEQ executes. -/
def exec (i : Instr) (s : State) : Host.Outcome State Fault Refusal :=
  match i with
  | .nop => Sys2Proof.Machine.execNop s
  | .adcInit refs div => Sys2Proof.Machine.execAdcInit refs div s
  | .adcRead channel => Sys2Proof.Machine.execAdcRead channel s
  | .adcShutdown => Sys2Proof.Machine.execAdcShutdown s
  | .tempConv sample => Sys2Proof.Machine.execTempConv sample s
  | .pwmStart duty => Sys2Proof.Machine.execPwmStart duty s
  | .motInit => Sys2Proof.Machine.execMotInit s
  | .motRotate dir speed => Sys2Proof.Machine.execMotRotate dir speed s
  | .motStop => Sys2Proof.Machine.execMotStop s
  | .bandSel temp => Sys2Proof.Machine.execBandSel temp s
  | .ctlIter => Sys2Proof.Machine.execCtlIter s
  | .ctlRun => Sys2Proof.Machine.execCtlRun s

end Sys2Proof.Machine
end

