-- ==== Sys2Proof/Machine/Sequencer.lean ====
section
/-! DEFINITION. What SEQ does next: the command port (20_memory.md R67, R68), the orchestrator (45_control_loop.md R196),
and what happens when neither has anything to execute. -/

namespace Sys2Proof.Machine

/-- The word that ENV presents on the command port at this step, if any (`cmd_valid`, `cmd_word`; 10_state.md R45). -/
def State.presented (s : State) : Option CmdWord :=
  match s.env.cmds with
  | some w :: _ => some w
  | _ => none

/-- The presentation of this step is over: accepted or ignored, it is gone (R67). -/
def State.dropPresented (s : State) : State := { s with env := { s.env with cmds := s.env.cmds.tail } }

/-- What a step of SEQ is. -/
inductive Action where
  /-- `rst` is asserted (70_reset_and_hazards.md R230) -/
  | reset
  /-- SEQ executes nothing: a failed block (60_exceptions.md R216), or no word at an open port -/
  | wait
  /-- SEQ is held at a poll and looks again (41_adc_sampling.md R114) -/
  | resume
  /-- reset was released with AUTORUN = 1 (70_reset_and_hazards.md R234) -/
  | start
  /-- a word is accepted at the port (20_memory.md R67) -/
  | accept (w : CmdWord)
  /-- the orchestrator executes a phase (45_control_loop.md R196) -/
  | phase (p : Phase)
  /-- CTL.PHASE holds a reserved code (10_state.md R37) -/
  | badPhase (code : BitVec 4)
deriving DecidableEq, Repr

/-- What SEQ does at this step. Reset wins over everything (R230); a failed block does nothing (R216); an operation in
progress goes on; then the orchestrator or the port. -/
def State.action (s : State) : Action :=
  if s.rstNow then .reset
  else if s.ctl.fault then .wait
  else if s.pending.isEmpty then
    match Phase.ofCode s.ctl.phase with
    | none => .badPhase s.ctl.phase
    | some .idle =>
      if s.params.autorun then .start
      else match s.presented with
        | some w => .accept w
        | none => .wait
    | some p => .phase p
  else .resume

/-- SEQ executes nothing, the other agents go on: one gap (R74, 60_exceptions.md R212, R216). -/
def waitStep (s : State) : State := s.gapStep

/-- SEQ goes on with the operation it is held in. -/
def resumeStep (s : State) : State := runMicros s.pending s

/-- A word with a reserved OP is accepted and ignored; only its start and return are recorded (30_encoding.md R85). -/
def acceptReserved (op : BitVec 8) (s : State) : State := runMicros (opMicros op []) s

/-- The state in which the next step accepts the word `w`: `w` presented on a command port that is ready, which takes
AUTORUN = 0, IDLE, no failure, no operation in progress and no reset (20_memory.md R67, 70_reset_and_hazards.md R234). -/
def State.presentWord (s : State) (w : CmdWord) : State :=
  { s with
    params := { s.params with autorun := false }
    ctl := { s.ctl with phase := Phase.idle.code, fault := false }
    pending := []
    env := { s.env with rst := [], cmds := some w :: s.env.cmds.tail } }

end Sys2Proof.Machine
end

