-- ==== Sys2Proof/Machine/Step.lean ====
section
/-! DEFINITION. One step of the machine: one operation of the command port, one phase of the orchestrator, one more look
of a held poll, or one gap in which SEQ executes nothing. -/

namespace Sys2Proof.Machine

/-- A word accepted at the port: the decoded operation is executed; a reserved code is ignored (30_encoding.md R81,
R85). -/
def acceptWord (w : CmdWord) (s : State) : Host.Outcome State Fault Refusal :=
  match decodeWord w with
  | .ok i => exec i s
  | .error _ => .next (acceptReserved (opField w) s)

/-- One step of SEQ, with the gaps of the other agents inside it. Whatever ENV presents on the port at this step is gone
after it: accepted, or ignored (20_memory.md R67). -/
def step (s : State) : Host.Outcome State Fault Refusal :=
  match s.action with
  | .reset => .next s.dropPresented.applyReset
  | .wait => .next (waitStep s.dropPresented)
  | .resume => .next (resumeStep s.dropPresented)
  | .start => startOrchestrator s.dropPresented
  | .accept w => acceptWord w s.dropPresented
  | .phase p => runPhase p s.dropPresented
  | .badPhase code => .refused (.reservedPhase code)

/-- `s` with the instruction whose bits are `w` presented on a ready command port, so that the next step runs exactly
it. The block does not fetch: ENV hands it one word at a time (20_memory.md R77; notes/assumptions/9.md). -/
def State.withFetchWord (s : State) (nbits w : Nat) : State := s.presentWord (tableWord nbits w)

end Sys2Proof.Machine
end

