-- ==== Sys2Proof/Safety.lean ====
section
/-! DEFINITION. The terms that claims use: a calm state (nothing comes from outside while an operation executes), a hung
state, the machine's invariant, and the end of a run. -/

namespace Sys2Proof.Machine

/-- Neither a reset nor a completion of CONV can fall into an operation that triggers none: `rst` stays low, and no
conversion is in flight. The second holds in every state between operations that a run from reset reaches without a
failure (10_state.md R43 (a); `State.Inv`). TMR may tick as it likes. -/
abbrev State.Calm (s : State) : Prop := s.env.rst = [] ∧ s.adc.busy = false

/-- Every register of the spec, and the conversion index, as after reset (10_state.md R42, 70_reset_and_hazards.md
R232), and no operation in progress. -/
abbrev State.AtReset (s : State) : Prop :=
  s.adc = State.reset.adc ∧ s.pwm = State.reset.pwm ∧ s.pin = State.reset.pin ∧ s.mot = State.reset.mot ∧
    s.ctl = State.reset.ctl ∧ s.res = 0#16 ∧ s.convs = 0 ∧ s.pending = []

/-- SEQ is held at the poll of an `ADC_READ` under the normative, infinite POLL_BOUND, with `rest` to execute after it
(41_adc_sampling.md R115). -/
abbrev State.HeldWith (s : State) (rest : List Micro) : Prop :=
  s.pending = .adcPoll none :: rest ∧ s.adc.done = false ∧ s.ctl.fault = false

/-- SEQ is held at the poll of a converter that cannot convert, and no reset comes: the hang (41_adc_sampling.md R116,
60_exceptions.md R212). -/
abbrev State.HungWith (s : State) (rest : List Micro) : Prop :=
  s.HeldWith rest ∧ s.convEnabled = false ∧ s.env.rst = []

/-- The timer's registers are as they were, but for the ticks of a running timer: the count moves only while the timer
has a clock (43_pwm.md R149, R150). -/
abbrev State.PwmKept (s t : State) : Prop :=
  t.pwm.fast = s.pwm.fast ∧ t.pwm.ninv = s.pwm.ninv ∧ t.pwm.ps = s.pwm.ps ∧ t.pwm.cmp = s.pwm.cmp ∧
    (s.pwm.ps = 0#3 → t.pwm.cnt = s.pwm.cnt)

/-- What stands outside the registers is as it was: the parameters, AIN, the words still to be presented, `rst`. -/
abbrev State.OutsideKept (s t : State) : Prop :=
  t.params = s.params ∧ t.env.ain = s.env.ain ∧ t.env.cmds = s.env.cmds ∧ t.env.rst = s.env.rst

/-- Every register but the running count of the timer, and RES, is as it was, and so is what stands outside; nothing is
drawn and no conversion completes. -/
abbrev State.AllKept (s t : State) : Prop :=
  t.adc = s.adc ∧ s.PwmKept t ∧ t.pin = s.pin ∧ t.mot = s.mot ∧ t.ctl = s.ctl ∧ t.res = s.res ∧ t.convs = s.convs ∧
    t.draws = s.draws ∧ s.OutsideKept t

/-- The converter can convert: enabled, and with a clock (41_adc_sampling.md R116). -/
def State.canConvert (s : State) : Bool := s.adc.en && (s.adc.div != 0#3)

/-! ## Events of the operations (00_scope.md R15) -/

/-- What `PWM_START` records when it writes the compare value `v` (43_pwm.md R142). -/
def pwmStartEvents (v : BitVec 8) : List Event :=
  [.opStart 0x05#8, .cmpWrite v, .pinWrite .pwmOut .oe true, .opReturn 0x05#8]

/-- The two level writes of a direction's pattern (44_motor.md R165). -/
def patternEvents (dir : Direction) : List Event :=
  [.pinWrite .in1 .level (dirBit dir), .pinWrite .in2 .level (!dirBit dir)]

/-- What `MOT_ROTATE` records (44_motor.md R165). -/
def motRotateEvents (dir : Direction) (v : BitVec 8) : List Event :=
  .opStart 0x07#8 :: patternEvents dir ++ pwmStartEvents v ++ [.opReturn 0x07#8]

/-- What `MOT_STOP` records (44_motor.md R168, R169): the Clockwise pattern, duty 0, then both pins low. -/
def motStopEvents : List Event :=
  .opStart 0x08#8 :: motRotateEvents .cw 0#8 ++
    [.pinWrite .in1 .level false, .pinWrite .in2 .level false, .opReturn 0x08#8]

/-- What `MOT_INIT` records (44_motor.md R162). -/
def motInitEvents : List Event :=
  [.opStart 0x06#8, .pinWrite .in1 .oe true, .pinWrite .in2 .oe true, .pinWrite .in1 .level false,
    .pinWrite .in2 .level false, .opReturn 0x06#8]

/-- What step 4 of an iteration records for a tier (45_control_loop.md R192). -/
def actEvents (tier : BitVec 3) : List Event :=
  if tier = 0#3 then motStopEvents else motRotateEvents .cw (compareWord (tierDuty tier))

/-- A failed state (60_exceptions.md R216). -/
def State.failed (s : State) : Bool := s.ctl.fault

/-- Whether an operation has returned since the last reset of the trace (00_scope.md R15). -/
def State.returned (s : State) : Bool :=
  (s.trace.reverse.takeWhile (fun e => e != .reset)).any
    (fun e => match e with
      | .opReturn _ => true
      | _ => false)

/-- The end of a run of commands issued on the port (70_reset_and_hazards.md R254): a command has returned, the port is
ready again, and no word is still to be presented, so that the one that returned was the last. -/
def State.ended (s : State) : Bool := s.cmdReady && s.returned && s.env.cmds.all Option.isNone

/-- What of the state R254 counts in an end state: all registers but the free-running PWM.CNT. -/
def State.endRegs (s : State) : List (BitVec 16) :=
  [0, 1, 2, 3, 4, 6, 7, 8, 9, 10, 11].map s.readReg ++ [s.ctl.tier.setWidth 16, s.res]

/-! ## The invariant -/

/-- What remains of `ADC_READ` behind its poll. -/
def afterPoll : List Micro := [.adcClearDone, .retSample, .opReturn 0x02#8]

/-- What remains of the phase IT_SAMPLE behind the poll. -/
def afterSamplePoll : List Micro := afterPoll ++ tempConvMicros .result ++ [.ctlTemp, .ctlPhase .itDispTemp]

/-- The converter (10_state.md R43 (a), (b)): between operations of a block that has not failed no conversion is in
flight and the completion flag is clear; SEQ is only ever held at a poll, of a command (phase IDLE) or of phase
IT_SAMPLE, with the conversion in flight and the flag clear, and with a count of looks exactly where POLL_BOUND is finite;
the channel fits its bits. -/
structure State.ConverterInv (s : State) : Prop where
  quiet : s.pending = [] → s.ctl.fault = false → s.adc.busy = false ∧ s.adc.done = false
  held : s.pending ≠ [] → s.adc.busy = true ∧ s.adc.done = false ∧ s.ctl.fault = false ∧
    ∃ looks : Option Nat, looks.isSome = s.params.pollBound.isSome ∧
      ((s.ctl.phase = Phase.idle.code ∧ s.pending = .adcPoll looks :: afterPoll) ∨
        (s.ctl.phase = Phase.itSample.code ∧ s.pending = .adcPoll looks :: afterSamplePoll))
  channel : s.adc.ch.toNat < 2 ^ s.params.chBits

/-- The timer (10_state.md R43 (d)): once it has a clock, all that `PWM_START` writes with it is in place. -/
structure State.TimerInv (s : State) : Prop where
  started : s.pwm.ps ≠ 0#3 →
    s.pwm.fast = true ∧ s.pwm.ninv = true ∧ s.pwm.ps = s.params.pwmPsSel ∧ s.pin.pwmOe = true

/-- What one event does to `stopCmp`: the return of a `MOT_STOP` sets it to 0, the start of a `MOT_ROTATE` clears it (the one
inside a `MOT_STOP` too, whose return comes later), and the write of a compare value or a reset changes a value that is there. -/
def stopCmpAfter (c : Option (BitVec 8)) (e : Event) : Option (BitVec 8) :=
  match e with
  | .opReturn op => if op = 0x08#8 then some 0#8 else c
  | .opStart op => if op = 0x07#8 then none else c
  | .cmpWrite v => c.map (fun _ => v)
  | .reset => c.map (fun _ => 0#8)
  | _ => c

/-- By the trace, the condition of 10_state.md R43 (e): some value exactly if a `MOT_STOP` has completed since the last
`MOT_ROTATE`. The value is what PWM.CMP has come to since: 0 from the stop on, and what a `PWM_START` issued alone has written
after it. -/
def stopCmp (trace : List Event) : Option (BitVec 8) := trace.foldl stopCmpAfter none

/-- 10_state.md R43 (e), word for word: if MOT.RUN = 0 and a `MOT_STOP` has completed since the last `MOT_ROTATE`, both levels
and PWM.CMP are 0. Reset has it and every step keeps it but one that executes a `PWM_START` of a non-zero duty alone
(Obligations.StopClauseFailsOnlyByPwmStartAlone; notes/assumptions/18.md). -/
def State.StopClause (s : State) : Prop :=
  s.mot.run = false → (stopCmp s.trace).isSome = true → s.pin.in1 = false ∧ s.pin.in2 = false ∧ s.pwm.cmp = 0#8

/-- The actuator (10_state.md R31, R43 (e), (f)): Stopped has direction and speed 0 and both outputs low; from a completed
`MOT_STOP` to the next `MOT_ROTATE` the actuator is Stopped and the compare value is the stop's 0, unless a `PWM_START` issued
alone has written another, which it then is (43_pwm.md R142, 44_motor.md R160: DEDUCED, notes/assumptions/18.md); the pattern
is never (1, 1). -/
structure State.ActuatorInv (s : State) : Prop where
  stopped : s.mot.run = false → s.mot.dir = .cw ∧ s.mot.speed = 0#8 ∧ s.pin.in1 = false ∧ s.pin.in2 = false
  stopDuty : ∀ v, stopCmp s.trace = some v → s.mot.run = false ∧ s.pwm.cmp = v
  pattern : ¬(s.pin.in1 = true ∧ s.pin.in2 = true)

/-- The control loop (10_state.md R37, R43 (g); 45_control_loop.md R191, R192, R196; 44_motor.md R172): no reserved
code; boot phases belong to the loop and the loop never idles; the latches hold what the next phase will read. -/
structure State.LoopInv (s : State) : Prop where
  phaseLegal : s.ctl.phase.toNat ≤ 8
  tierLegal : s.ctl.tier.toNat ≤ 4
  looping : s.ctl.loop = true → s.ctl.phase ≠ Phase.idle.code
  booting : s.ctl.phase.toNat = 1 ∨ s.ctl.phase.toNat = 2 ∨ s.ctl.phase.toNat = 3 → s.ctl.loop = true
  selected : s.ctl.phase = Phase.itAct.code → s.ctl.tier = bandTier s.ctl.temp
  acted : s.ctl.phase = Phase.itDispFan.code → s.ctl.mstate.bit = s.mot.run

/-- A failed block (60_exceptions.md R216, 10_state.md R32): only under a finite POLL_BOUND; idle, no loop, no
operation. -/
structure State.FailureInv (s : State) : Prop where
  failed : s.ctl.fault = true →
    s.params.pollBound.isSome = true ∧ s.ctl.phase = Phase.idle.code ∧ s.ctl.loop = false ∧ s.pending = []

/-- The invariant of the machine, between any two steps. -/
structure State.Inv (s : State) : Prop where
  converter : s.ConverterInv
  timer : s.TimerInv
  actuator : s.ActuatorInv
  control : s.LoopInv
  failure : s.FailureInv

end Sys2Proof.Machine
end

