-- ==== Sys2Proof/WellFormed.lean ====
section
/-! DEFINITION. Well-formedness. Every operand of `Instr` fits its field by its type, so every operation has an
encoding and runs; what can be ill-formed is (a) an operand outside the document's contract (30_encoding.md R86), which
is accepted and executed all the same, and (b) a choice of parameters that breaks the constraints of 00_scope.md R9 and
R10, which no rule of the block checks. -/

namespace Sys2Proof

/-- The document's contract on operands (30_encoding.md R86): the clock divisor is non-zero (R91) and a duty cycle is
0 to 100 (R95, 43_pwm.md R141). An operation outside it still executes (41_adc_sampling.md R112, 43_pwm.md R145). -/
def Instr.wellFormed : Instr → Bool
  | .nop => true
  | .adcInit _ div => div != 0#3
  | .adcRead _ => true
  | .adcShutdown => true
  | .tempConv _ => true
  | .pwmStart duty => decide (duty.toNat ≤ 100)
  | .motInit => true
  | .motRotate _ speed => decide (speed.toNat ≤ 100)
  | .motStop => true
  | .bandSel _ => true
  | .ctlIter => true
  | .ctlRun => true

/-- The constraints on the parameters (00_scope.md R9 and R10): `CH_BITS` is 1 to 8; `DIV_SEL` and `PWM_PS_SEL` are
not 0; the largest temperature fits `TEMP_BITS` (`VREF_mV < 655360`, 92_eei_decisions.md D16); `REFS_SEL` selects a
reference whose voltage is `VREF_mV`. -/
def Params.wellFormed (p : Params) : Bool :=
  decide (1 ≤ p.chBits) && decide (p.chBits ≤ 8) && (p.divSel != 0#3) && (p.pwmPsSel != 0#3)
    && decide (p.vrefMv < 655360) && decide (p.refVoltageMv.select p.refsSel = p.vrefMv)

end Sys2Proof
end

