-- ==== Sys2Proof/Certificates/Slice0/Obligations.lean ====
section
/-! DEFINITION. The statements about the machine that are to be proved or refuted. A statement holds for every value of
the OPEN parameters, of what the environment and the other agents do, and of the free values, unless it says otherwise.
`s.Calm` says that no reset and no completion of an earlier conversion falls into the operation; the second follows from
`State.Inv`. -/

open Sys2Proof Sys2Proof.Machine

/-! ## Encoding (30_encoding.md) -/

/-- Decoding inverts encoding, over byte lanes and with any bytes behind (R80 to R84, R88; 20_memory.md R62). -/
def Obligations.DecodeBytesInvertsEncodeBytes : Prop :=
  ∀ (i : Instr) (rest : List Byte), decodeBytes (encodeBytes i ++ rest) = .ok (i, rest)

/-- A word decodes to an operation exactly when its OP is one of the twelve and the operation is the one whose assembled
word agrees with it on OP and on the operand bits of R83; all other bits are ignored (R82). -/
def Obligations.DecodeReadsExactlyTheUsedBits : Prop :=
  ∀ (w : CmdWord) (i : Instr),
    decodeWord w = .ok i ↔ (opField w).toNat ≤ 0x0B ∧ encode i = w &&& usedBits (opField w)

/-- Decoding rejects exactly the words whose OP is `0x0C` to `0xFF`, naming the code (R84, R85). -/
def Obligations.DecodeRejectsExactlyReservedCodes : Prop :=
  ∀ w : CmdWord,
    (decodeWord w = .error (.reservedOp (opField w)) ↔ 0x0C ≤ (opField w).toNat) ∧
    ∀ e, decodeWord w = .error e → e = .reservedOp (opField w)

/-- Words of the test vectors decode to the operations written beside them (95_test_vectors.md). -/
def Obligations.WordsOfTheTestVectorsDecode : Prop :=
  decodeWord 0x00000000#32 = .ok .nop ∧
  decodeWord 0x01010007#32 = .ok (.adcInit 1#2 7#3) ∧
  decodeWord 0x0200010A#32 = .ok (.adcRead 266#16) ∧
  decodeWord 0x03000000#32 = .ok .adcShutdown ∧
  decodeWord 0x040002BC#32 = .ok (.tempConv 700#10) ∧
  decodeWord 0x0500004B#32 = .ok (.pwmStart 75#8) ∧
  decodeWord 0x06000000#32 = .ok .motInit ∧
  decodeWord 0x07010032#32 = .ok (.motRotate .ccw 50#8) ∧
  decodeWord 0x08000000#32 = .ok .motStop ∧
  decodeWord 0x09000078#32 = .ok (.bandSel 120#16) ∧
  decodeWord 0x0A000000#32 = .ok .ctlIter ∧
  decodeWord 0x0B000000#32 = .ok .ctlRun ∧
  decodeWord 0x0C000000#32 = .error (.reservedOp 0x0C#8)

/-! ## The step (20_memory.md R67, R68; 45_control_loop.md R196) -/

/-- At a ready port with no reset, a step executes the operation that the presented word decodes to, and the word is gone
from the port (R67, R81). -/
def Obligations.StepExecutesTheAcceptedOperation : Prop :=
  ∀ (s : State) (w : CmdWord) (i : Instr),
    s.cmdReady = true → s.rstNow = false → s.presented = some w → decodeWord w = .ok i →
    step s = exec i { s with env := { s.env with cmds := s.env.cmds.tail } }

/-- `withFetchWord` makes the very next step execute the instruction whose bits it is given, whatever state it starts
from. -/
def Obligations.StepExecutesTheFetchedWord : Prop :=
  ∀ (s : State) (nbits w : Nat) (i : Instr),
    decodeTableWord nbits w = some i →
    step (s.withFetchWord nbits w) = exec i (s.withFetchWord nbits w).dropPresented

/-- A word with a reserved OP is accepted and ignored (R85): no register changes, only its start and return are
recorded, and the port is ready again. -/
def Obligations.ReservedWordIsAcceptedAndIgnored : Prop :=
  ∀ (s : State) (w : CmdWord),
    s.Calm → s.cmdReady = true → s.presented = some w → 0x0C ≤ (opField w).toNat →
    ∃ t, step s = .next t ∧ s.dropPresented.AllKept t ∧
      t.trace = s.trace ++ [.opStart (opField w), .opReturn (opField w)] ∧ t.pending = [] ∧ t.cmdReady = true

/-- A word presented while the port is not ready has no effect at all (R67): the step is the one with nothing
presented. -/
def Obligations.WordAtClosedPortHasNoEffect : Prop :=
  ∀ (s : State) (w : CmdWord),
    s.cmdReady = false →
    step { s with env := { s.env with cmds := some w :: s.env.cmds.tail } } =
      step { s with env := { s.env with cmds := none :: s.env.cmds.tail } }

/-- The port is closed while an operation executes (R67): without reset, after `k` of the micro-steps of an operation without a
poll the others are still to execute and `cmd_ready` is 0, up to its return; the state after the last one is the one in which
the operation is at its end. At a poll the same holds for as long as SEQ is held. -/
def Obligations.PortIsClosedInsideAnOperation : Prop :=
  (∀ (ms : List Micro) (s : State), (∀ m ∈ ms, m.poll? = none) → s.env.rst = [] →
    (∀ k, k < ms.length → (s.inside ms k).pending = ms.drop k ∧ (s.inside ms k).cmdReady = false) ∧
    s.inside ms ms.length = runMicros ms s) ∧
  ∀ (s : State) (rest : List Micro), s.HeldWith rest → s.cmdReady = false

/-- No operation is refused and none faults, in any state and with any operands (60_exceptions.md R210). -/
def Obligations.EveryOperationHasANextState : Prop :=
  ∀ (i : Instr) (s : State), ∃ t, exec i s = .next t

/-- A step is refused exactly at a reserved phase code, or at a reserved tier code at IT_ACT, when SEQ is about to act on it.
Entry U5 of 93_implementation_defined.md asks to refuse any state with such a code; that the codes are looked at only where
SEQ acts on them is the model's choice (DESIGN CHOICE, notes/assumptions/14.md). -/
def Obligations.OnlyReservedCodesAreRefused : Prop :=
  ∀ (s : State) (r : Refusal),
    step s = .refused r ↔
      s.rstNow = false ∧ s.ctl.fault = false ∧ s.pending = [] ∧
        ((8 < s.ctl.phase.toNat ∧ r = .reservedPhase s.ctl.phase) ∨
          (s.ctl.phase = Phase.itAct.code ∧ 4 < s.ctl.tier.toNat ∧ r = .reservedTier s.ctl.tier))

/-- No step changes a parameter (00_scope.md R9), and none takes an event out of the trace (R15). -/
def Obligations.StepKeepsParametersAndTracePast : Prop :=
  ∀ s t : State, step s = .next t → t.params = s.params ∧ s.trace <+: t.trace

/-! ## Reset (10_state.md R42, 70_reset_and_hazards.md R230 to R237) -/

/-- The table of reset values (10_state.md R42), and the registers as the observation port shows them. -/
def Obligations.ResetValuesAreTheTable : Prop :=
  State.reset.adc = { en := false, refs := 0#2, div := 0#3, ch := 0#8, busy := false, done := false, data := 0#10 } ∧
  State.reset.pwm = { fast := false, ninv := false, ps := 0#3, cnt := 0#8, cmp := 0#8 } ∧
  State.reset.pin = { in1Oe := false, in2Oe := false, pwmOe := false, in1 := false, in2 := false } ∧
  State.reset.mot = { run := false, dir := .cw, speed := 0#8 } ∧
  State.reset.ctl = { phase := Phase.idle.code, loop := false, mstate := .off, fault := false, temp := 0#16,
                      tier := 0#3 } ∧
  State.reset.res = 0#16 ∧ ∀ n, State.reset.readReg n = 0#16

/-- `rst` wins over everything, in any state (R230): every field takes its reset value, an operation and a conversion in
flight are discarded and `k` restarts (R232), no parameter changes and `Reset` is recorded (R233). -/
def Obligations.ResetWinsOverEverything : Prop :=
  ∀ s : State, s.rstNow = true →
    ∃ t, step s = .next t ∧ t.AtReset ∧ t.convEnabled = false ∧ t.params = s.params ∧ t.trace = s.trace ++ [.reset]

/-- A reset that comes after `n` micro-steps abandons the operation there: what is left is the reset of the state that those
`n` micro-steps produced (R230). `rst` may come any number of times (00_scope.md R11, 10_state.md R45): the resets behind it
are still to come (the list is the model's: notes/assumptions/8.md). -/
def Obligations.ResetAbandonsAnOperationMidway : Prop :=
  ∀ (ms : List Micro) (s : State) (n : Nat) (later : List Nat),
    (∀ m ∈ ms, m.poll? = none) → n < ms.length → s.env.rst = n :: later →
    runMicros ms s = (s.inside ms n).applyReset ∧ (runMicros ms s).AtReset ∧ (runMicros ms s).env.rst = later

/-- With AUTORUN = 1 and the default parameters, the first step after reset leads to the state at the start of the first
iteration (70_reset_and_hazards.md R237). -/
def Obligations.BootStateOfTheDefaultBlock : Prop :=
  ∃ t, step State.reset = .next t ∧
    (List.range 12).map t.readReg =
      [0xE3#16, 0#16, 0#16, 0#16, 0#16, 0#16, 0#16, 0x03#16, 0#16, 0#16, 0x24#16, 0#16] ∧
    t.ctl.phase = Phase.itSample.code ∧ t.ctl.loop = true ∧ t.ctl.mstate = .off ∧ t.mot.run = false ∧
    t.cmdReady = false

/-! ## Analog Sampling Unit (41_adc_sampling.md) -/

/-- `ADC_INIT refs, div` (R110), `div` = 0 and re-issue included (R111, R112): the three fields, and nothing else. -/
def Obligations.AdcInitProgramsSelectorDivisorEnable : Prop :=
  (∀ w, opField w = 0x01#8 →
    decodeWord w = .ok (.adcInit ((aField w).extractLsb' 0 2) ((bField w).extractLsb' 0 3))) ∧
  ∀ (s : State) (refs : BitVec 2) (div : BitVec 3), s.Calm →
    ∃ t, exec (.adcInit refs div) s = .next t ∧
      t.adc = { s.adc with refs := refs, div := div, en := true } ∧
      s.PwmKept t ∧ t.pin = s.pin ∧ t.mot = s.mot ∧ t.ctl = s.ctl ∧ t.res = s.res ∧ t.convs = s.convs ∧
      t.draws = s.draws ∧ s.OutsideKept t ∧ t.pending = [] ∧ t.trace = s.trace ++ [.opStart 0x01#8, .opReturn 0x01#8]

/-- `ADC_SHUTDOWN` (R121) clears the three fields and nothing else; a second one changes nothing (R122). -/
def Obligations.AdcShutdownClearsAndIsIdempotent : Prop :=
  (∀ w, opField w = 0x03#8 → decodeWord w = .ok .adcShutdown) ∧
  ∀ s : State, s.Calm →
    ∃ t, exec .adcShutdown s = .next t ∧
      t.adc = { s.adc with refs := 0#2, div := 0#3, en := false } ∧
      s.PwmKept t ∧ t.pin = s.pin ∧ t.mot = s.mot ∧ t.ctl = s.ctl ∧ t.res = s.res ∧ t.convs = s.convs ∧
      t.draws = s.draws ∧ s.OutsideKept t ∧ t.pending = [] ∧
      t.trace = s.trace ++ [.opStart 0x03#8, .opReturn 0x03#8] ∧
      ∃ u, exec .adcShutdown t = .next u ∧ t.AllKept u

/-- `ADC_READ channel` whose conversion completes before the first look (R113, R114, R118): the channel is truncated, the
answer of the environment is latched and returned, both flags end clear, and nothing else changes. -/
def Obligations.AdcReadReturnsTheAnswer : Prop :=
  (∀ w, opField w = 0x02#8 → decodeWord w = .ok (.adcRead (bField w))) ∧
  ∀ (s : State) (channel : BitVec 16),
    s.Calm → s.adc.done = false → s.canConvert = true → s.params.pollBound ≠ some 0 → (s.gapAt 3).complete = true →
    let ch := chanTrunc s.params channel.toNat
    let v := s.ainAt ch s.convs
    ∃ t, exec (.adcRead channel) s = .next t ∧
      t.adc = { s.adc with ch := ch, data := v, busy := false, done := false } ∧ t.res = v.setWidth 16 ∧
      t.convs = s.convs + 1 ∧
      t.trace = s.trace ++ [.opStart 0x02#8, .convStart ch, .convDone v, .opReturn 0x02#8] ∧
      s.PwmKept t ∧ t.pin = s.pin ∧ t.mot = s.mot ∧ t.ctl = s.ctl ∧ t.draws = s.draws ∧ s.OutsideKept t ∧
      t.pending = []

/-- The channel that `ADC_READ` selects is the operand modulo `2^CH_BITS`, whatever becomes of the conversion (R113); and an
over-range channel raises no error and no flag of its own: the read is the read of the truncated channel, in any state. -/
def Obligations.AdcReadTruncatesTheChannel : Prop :=
  (∀ (s : State) (channel : BitVec 16),
    exec (.adcRead channel) s = exec (.adcRead (BitVec.ofNat 16 (channel.toNat % 2 ^ s.params.chBits))) s) ∧
  ∀ (s : State) (channel : BitVec 16), s.Calm → s.params.chBits ≤ 8 →
    ∃ t, exec (.adcRead channel) s = .next t ∧ t.adc.ch.toNat = channel.toNat % 2 ^ s.params.chBits ∧
      (s.params.chBits = 3 →
        (channel = 2#16 → t.adc.ch = 2#8) ∧ (channel = 10#16 → t.adc.ch = 2#8) ∧ (channel = 8#16 → t.adc.ch = 0#8) ∧
          (channel = 255#16 → t.adc.ch = 7#8))

/-- An `ADC_READ` that is not answered before its first look leaves SEQ held at the poll with BUSY = 1 (R115): the
channel and BUSY are written, nothing else, RES included, and the port is not ready. -/
def Obligations.AdcReadWaitsForTheConverter : Prop :=
  ∀ (s : State) (channel : BitVec 16),
    s.Calm → s.adc.done = false → s.params.pollBound = none → (s.canConvert = false ∨ (s.gapAt 3).complete = false) →
    ∃ t, exec (.adcRead channel) s = .next t ∧
      t.adc = { s.adc with ch := chanTrunc s.params channel.toNat, busy := true } ∧
      t.pending = .adcPoll none :: afterPoll ∧ t.cmdReady = false ∧
      t.trace = s.trace ++ [.opStart 0x02#8, .convStart (chanTrunc s.params channel.toNat)] ∧
      s.PwmKept t ∧ t.pin = s.pin ∧ t.mot = s.mot ∧ t.ctl = s.ctl ∧ t.res = s.res ∧ t.convs = s.convs ∧
      t.draws = s.draws ∧ s.OutsideKept t

/-- A read on a unit that is not enabled or has no clock hangs for ever with BUSY = 1 (R116): after any number of steps SEQ is
still held at the poll, and every register but the channel and BUSY (and the count of a running timer) holds its last value
(60_exceptions.md R212). -/
def Obligations.ReadOnDisabledConverterHangsForever : Prop :=
  ∀ (s : State) (channel : BitVec 16),
    s.Calm → s.adc.done = false → s.params.pollBound = none → s.ctl.fault = false →
    (s.adc.en = false ∨ s.adc.div = 0#3) →
    ∃ u, exec (.adcRead channel) s = .next u ∧ ∀ k, ∃ t, Host.Core.run Sys2Proof.core k u = .next t ∧
      t.HungWith afterPoll ∧ t.cmdReady = false ∧
      t.adc = { s.adc with ch := chanTrunc s.params channel.toNat, busy := true } ∧
      s.PwmKept t ∧ t.pin = s.pin ∧ t.mot = s.mot ∧ t.ctl = s.ctl ∧ t.res = s.res ∧ t.convs = s.convs ∧
      t.draws = s.draws ∧ t.params = s.params ∧
      t.trace = s.trace ++ [.opStart 0x02#8, .convStart (chanTrunc s.params channel.toNat)]

/-- A hang is kept by every step (41_adc_sampling.md R115, R116; 60_exceptions.md R212), whatever remains to execute behind the
poll: of a commanded read, of CTL_ITER, or of the loop. Every register keeps its value, but for the count of a running timer;
a presented word is ignored; the port stays closed. -/
def Obligations.HangIsKeptByEveryStep : Prop :=
  ∀ (s : State) (rest : List Micro), s.HungWith rest →
    ∃ t, step s = .next t ∧ t.HungWith rest ∧ t.cmdReady = false ∧
      t.adc = s.adc ∧ s.PwmKept t ∧ t.pin = s.pin ∧ t.mot = s.mot ∧ t.ctl = s.ctl ∧ t.res = s.res ∧
      t.convs = s.convs ∧ t.draws = s.draws ∧ t.trace = s.trace ∧ s.dropPresented.OutsideKept t

/-- A held read goes on once the converter answers (R114, R119): if the environment completes the conversion at the n-th look
from now and not before, then SEQ is held for n looks, every register keeping its value, and n + 1 steps from now the read has
returned the answer. A commanded `ADC_READ` is then at its end; in an iteration the phase IT_SAMPLE is (45_control_loop.md
R189): the temperature of the answer stands in RES and CTL.TEMP, and IT_DISP_TEMP is next. -/
def Obligations.HeldReadReturnsOnceAnswered : Prop :=
  ∀ (n : Nat) (s : State) (rest : List Micro),
    s.HeldWith rest → s.env.rst = [] → s.convEnabled = true →
    (∀ k, k < n → (s.gapAt k).complete = false) → (s.gapAt n).complete = true →
    (∀ k, k ≤ n → ∃ t, Host.Core.run Sys2Proof.core k s = .next t ∧ t.HeldWith rest ∧ t.adc = s.adc ∧ s.PwmKept t ∧
      t.pin = s.pin ∧ t.mot = s.mot ∧ t.ctl = s.ctl ∧ t.res = s.res ∧ t.convs = s.convs ∧ t.trace = s.trace) ∧
    (rest = afterPoll →
      ∃ t, Host.Core.run Sys2Proof.core (n + 1) s = .next t ∧ t.pending = [] ∧ t.res = s.sampleNow.setWidth 16 ∧
        t.adc = { s.adc with data := s.sampleNow, busy := false, done := false } ∧ t.convs = s.convs + 1 ∧
        t.trace = s.trace ++ [.convDone s.sampleNow, .opReturn 0x02#8] ∧
        t.pin = s.pin ∧ t.mot = s.mot ∧ t.ctl = s.ctl ∧ s.PwmKept t) ∧
    (rest = afterSamplePoll →
      ∃ t, Host.Core.run Sys2Proof.core (n + 1) s = .next t ∧ t.pending = [] ∧
        t.res = tempWord s.params s.sampleNow ∧
        t.adc = { s.adc with data := s.sampleNow, busy := false, done := false } ∧ t.convs = s.convs + 1 ∧
        t.ctl = { s.ctl with temp := tempWord s.params s.sampleNow, phase := Phase.itDispTemp.code } ∧
        t.trace = s.trace ++ [.convDone s.sampleNow, .opReturn 0x02#8, .opStart 0x04#8, .opReturn 0x04#8] ∧
        t.pin = s.pin ∧ t.mot = s.mot ∧ s.PwmKept t)

/-- A read that finds the completion flag set returns the stale data at once and clears the flag, with its own conversion
still in flight (R117; not reachable from reset). -/
def Obligations.ReadWithFlagSetReturnsStaleData : Prop :=
  ∀ (s : State) (channel : BitVec 16),
    s.Calm → s.adc.done = true → s.params.pollBound ≠ some 0 →
    (s.gapAt 3).complete = false → (s.gapAt 4).complete = false → (s.gapAt 5).complete = false →
    (s.gapAt 6).complete = false →
    ∃ t, exec (.adcRead channel) s = .next t ∧ t.res = s.adc.data.setWidth 16 ∧
      t.adc = { s.adc with ch := chanTrunc s.params channel.toNat, busy := true, done := false } ∧ t.pending = []

/-- `CONV.complete` (R118): in a gap CONV moves exactly when it is enabled and the environment lets it; it then writes
the answer, clears BUSY and sets DONE as one step, and it touches nothing else; otherwise it does nothing. -/
def Obligations.ConvCompletesOnlyATriggeredConversion : Prop :=
  ∀ s : State,
    s.gapStep.pin = s.pin ∧ s.gapStep.mot = s.mot ∧ s.gapStep.ctl = s.ctl ∧ s.gapStep.res = s.res ∧
    s.gapStep.pwm.cmp = s.pwm.cmp ∧
    (s.adc.busy = true ∧ s.adc.en = true ∧ s.adc.div ≠ 0#3 ∧ (s.gapAt 0).complete = true →
      s.gapStep.adc = { s.adc with data := s.ainAt s.adc.ch s.convs, busy := false, done := true } ∧
      s.gapStep.convs = s.convs + 1 ∧ s.gapStep.trace = s.trace ++ [.convDone (s.ainAt s.adc.ch s.convs)]) ∧
    (¬(s.adc.busy = true ∧ s.adc.en = true ∧ s.adc.div ≠ 0#3 ∧ (s.gapAt 0).complete = true) →
      s.gapStep.adc = s.adc ∧ s.gapStep.convs = s.convs ∧ s.gapStep.trace = s.trace)

/-- No path leads from the timer, the pins, the actuator or the loop's registers to a sample (00_scope.md R3): two states
that differ only in those read the same sample. -/
def Obligations.SampleDoesNotDependOnActuation : Prop :=
  ∀ (s : State) (pwm : Pwm) (pin : Pins) (mot : Mot) (ctl : Ctl) (channel : BitVec 16),
    ∃ t u, exec (.adcRead channel) s = .next t ∧
      exec (.adcRead channel) { s with pwm := pwm, pin := pin, mot := mot, ctl := ctl } = .next u ∧
      t.adc = u.adc ∧ t.res = u.res ∧ t.convs = u.convs ∧ t.pending = u.pending ∧ t.trace = u.trace

/-! ## The bounded poll (60_exceptions.md R216) -/

/-- Under POLL_BOUND = N, an `ADC_READ` on a converter that cannot convert raises HardwareTimeout at its N-th look, N - 1
steps after the one that issued it, and not before; a bound of 0 raises it at once. -/
def Obligations.BoundedPollTimesOutAtItsLastLook : Prop :=
  ∀ (n : Nat) (s : State) (channel : BitVec 16),
    s.Calm → s.adc.done = false → s.canConvert = false → s.ctl.fault = false → s.pending = [] →
    (s.params.pollBound = some 0 → ∃ t, exec (.adcRead channel) s = .next t ∧ t.ctl.fault = true) ∧
    (s.params.pollBound = some (n + 1) →
      ∃ u, exec (.adcRead channel) s = .next u ∧
        (∀ k, k < n → ∃ t, Host.Core.run Sys2Proof.core k u = .next t ∧ t.ctl.fault = false ∧ t.pending ≠ []) ∧
        ∃ t, Host.Core.run Sys2Proof.core n u = .next t ∧ t.ctl.fault = true)

/-- HardwareTimeout (R216): when the last look finds the flag clear, FAULT is set, then PHASE is IDLE, then LOOP is 0, each by
a micro-step of its own with the port closed throughout (00_scope.md R13), and the operation ends. RES, the pins, the actuator
and the timer's registers are as they were, and so is the converter, BUSY = 1 included, unless CONV completes the conversion
in one of the gaps of those three writes. -/
def Obligations.TimeoutLeavesTheActuatorAsItWas : Prop :=
  ∀ (s : State) (rest : List Micro),
    s.pending = .adcPoll (some 1) :: rest → s.ctl.fault = false → s.env.rst = [] → s.adc.done = false →
    (s.convEnabled = false ∨ (s.gapAt 0).complete = false) →
    (∃ t, step s = .next t ∧
      t.ctl = { s.ctl with fault := true, phase := Phase.idle.code, loop := false } ∧ t.pending = [] ∧
      t.res = s.res ∧ t.pin = s.pin ∧ t.mot = s.mot ∧ s.PwmKept t ∧ t.cmdReady = false ∧
      ((s.convEnabled = false ∨ ∀ k, k < 4 → (s.gapAt k).complete = false) → t.adc = s.adc ∧ t.trace = s.trace)) ∧
    (microStep^[1] s).ctl = s.ctl ∧
    (microStep^[2] s).ctl = { s.ctl with fault := true } ∧
    (microStep^[3] s).ctl = { s.ctl with fault := true, phase := Phase.idle.code } ∧
    (microStep^[4] s).ctl = { s.ctl with fault := true, phase := Phase.idle.code, loop := false } ∧
    ∀ k, k ≤ 4 → (microStep^[k] s).cmdReady = false

/-- A failed block executes nothing until reset (R216): over any number of steps every register that an operation writes
stays, the port stays closed, and the trace gains nothing but completions of CONV, which may still complete the conversion in
flight (DATA, BUSY, DONE); TMR may tick. Where CONV is not enabled the converter and the trace stay altogether. -/
def Obligations.FailedBlockExecutesNothing : Prop :=
  ∀ (k : Nat) (s : State), s.ctl.fault = true → s.env.rst = [] →
    ∃ t, Host.Core.run Sys2Proof.core k s = .next t ∧ t.ctl = s.ctl ∧ t.cmdReady = false ∧ t.res = s.res ∧
      t.adc.en = s.adc.en ∧ t.adc.refs = s.adc.refs ∧ t.adc.div = s.adc.div ∧ t.adc.ch = s.adc.ch ∧
      s.PwmKept t ∧ t.pin = s.pin ∧ t.mot = s.mot ∧ t.draws = s.draws ∧ t.params = s.params ∧ t.pending = s.pending ∧
      (∃ es, t.trace = s.trace ++ es ∧ ∀ e ∈ es, ∃ v, e = .convDone v) ∧
      (s.convEnabled = false → t.adc = s.adc ∧ t.convs = s.convs ∧ t.trace = s.trace)

/-! ## Temperature Transducer (42_temperature.md) -/

/-- `TEMP_CONV sample` (R130) writes the floor of the exact quotient into RES, in any state, and changes nothing else
(R136). The bound on VREF_mV is the one 00_scope.md R10 asks of the integrator. -/
def Obligations.TempConvWritesTheFlooredQuotient : Prop :=
  (∀ w, opField w = 0x04#8 → decodeWord w = .ok (.tempConv ((bField w).extractLsb' 0 10))) ∧
  ∀ (s : State) (sample : BitVec 10), s.Calm →
    ∃ t, exec (.tempConv sample) s = .next t ∧
      (s.params.vrefMv < 655360 → t.res.toNat = (150 * sample.toNat * s.params.vrefMv) / (1023 * 1500)) ∧
      t.adc = s.adc ∧ s.PwmKept t ∧ t.pin = s.pin ∧ t.mot = s.mot ∧ t.ctl = s.ctl ∧ t.convs = s.convs ∧
      t.draws = s.draws ∧ s.OutsideKept t ∧ t.pending = [] ∧ t.trace = s.trace ++ [.opStart 0x04#8, .opReturn 0x04#8]

/-- `TEMP_CONV` is pure (R136): it reads no register, so two issues with one operand, from any two states of one block,
return the same value; and it always returns. -/
def Obligations.TempConvIsPure : Prop :=
  ∀ (s u : State) (sample : BitVec 10), s.Calm → u.Calm → s.params = u.params →
    ∃ s' u', exec (.tempConv sample) s = .next s' ∧ exec (.tempConv sample) u = .next u' ∧ s'.res = u'.res ∧
      s'.pending = [] ∧ u'.pending = []

/-- The properties the document states of the transducer (R135): monotonic, 0 at 0, and at 2.56 V 256 at full scale and
175 for sample 700. -/
def Obligations.TempConvIsMonotonicWithItsEndpoints : Prop :=
  ∀ (s : State) (a b : BitVec 10), s.Calm → s.params.vrefMv < 655360 → a.toNat ≤ b.toNat →
    ∃ t u, exec (.tempConv a) s = .next t ∧ exec (.tempConv b) s = .next u ∧ t.res.toNat ≤ u.res.toNat ∧
      (a = 0#10 → t.res = 0#16) ∧
      (s.params.vrefMv = 2560 → (b = 1023#10 → u.res = 256#16) ∧ (b = 700#10 → u.res = 175#16))

/-! ## PWM Generator (43_pwm.md) -/

/-- `PWM_START duty` (R142), for every duty: the timer is configured and the pin driven; CMP is the ceiling of
255 d / 100 for a duty of 0 to 100 (R143), and whatever is drawn above that (R145), of which nothing is said here; CNT has
been through 0 and counts on (it is 0 if TMR did not tick), and nothing else changes. -/
def Obligations.PwmStartReprogramsTheTimer : Prop :=
  (∀ w, opField w = 0x05#8 → decodeWord w = .ok (.pwmStart ((bField w).extractLsb' 0 8))) ∧
  ∀ (s : State) (duty : BitVec 8), s.Calm →
    ∃ t, exec (.pwmStart duty) s = .next t ∧
      t.pwm.fast = true ∧ t.pwm.ninv = true ∧ t.pwm.ps = s.params.pwmPsSel ∧
      (duty.toNat ≤ 100 → t.pwm.cmp.toNat = (255 * duty.toNat + 99) / 100 ∧ t.draws = s.draws) ∧
      ((∀ k, 2 ≤ k → k < 8 → (s.gapAt k).ticks = 0) → t.pwm.cnt = 0#8) ∧
      (s.inside (pwmStartMicros duty) 2).pwm.cnt = 0#8 ∧
      t.pin = { s.pin with pwmOe := true } ∧ t.adc = s.adc ∧ t.mot = s.mot ∧ t.ctl = s.ctl ∧ t.res = s.res ∧
      t.convs = s.convs ∧ s.OutsideKept t ∧ t.pending = [] ∧ t.trace = s.trace ++ pwmStartEvents t.pwm.cmp

/-- The compare value is the exact ceiling (R143, R144): the least integer not below 255 d / 100; the five values of the
loop; and it fits 8 bits. -/
def Obligations.CompareValueIsTheCeiling : Prop :=
  (∀ d : BitVec 8, d.toNat ≤ 100 →
    (compareWord d).toNat = compareNat d.toNat ∧ compareNat d.toNat ≤ 255 ∧
    ∀ n, 255 * d.toNat ≤ 100 * n ↔ compareNat d.toNat ≤ n) ∧
  compareWord 0#8 = 0#8 ∧ compareWord 25#8 = 64#8 ∧ compareWord 50#8 = 128#8 ∧ compareWord 75#8 = 192#8 ∧
    compareWord 100#8 = 255#8

/-- Configuring the PWM twice leaves the registers of the second call alone (R146): whatever the first duty was, the
timer's registers but for the count, and the pins, are those of the second call made from the start. -/
def Obligations.SecondPwmStartLeavesNoResidue : Prop :=
  ∀ (s : State) (d1 d2 : BitVec 8), s.Calm → d2.toNat ≤ 100 →
    ∃ t u v, exec (.pwmStart d1) s = .next t ∧ exec (.pwmStart d2) t = .next u ∧ exec (.pwmStart d2) s = .next v ∧
      u.pwm = { v.pwm with cnt := u.pwm.cnt } ∧ u.pin = v.pin

/-- One tick (R149, R150): while PS is non-zero CNT counts up modulo 256, else it stands; nothing else is written; and
the ticks of a gap are that many single ticks. -/
def Obligations.TickCountsModulo256 : Prop :=
  ∀ s : State,
    (s.pwm.ps ≠ 0#3 → s.tmrTick.pwm.cnt.toNat = (s.pwm.cnt.toNat + 1) % 256) ∧
    (s.pwm.ps = 0#3 → s.tmrTick.pwm.cnt = s.pwm.cnt) ∧
    s.tmrTick = { s with pwm := { s.pwm with cnt := s.tmrTick.pwm.cnt } } ∧
    s.gapStep.pwm = ((fun x : State => x.tmrTick)^[(s.gapAt 0).ticks] s).pwm

/-- The realised duty (R151, R152): of the 256 counts of a period, the driven output is high at exactly CMP of them; in
particular never for CMP = 0, and not always for CMP = 255. -/
def Obligations.OutputIsHighForCompareTicks : Prop :=
  ∀ s : State, s.pin.pwmOe = true → s.pwm.fast = true → s.pwm.ninv = true →
    ((List.range 256).filter
        (fun c => { s with pwm := { s.pwm with cnt := BitVec.ofNat 8 c } }.pwmOut == some true)).length =
      s.pwm.cmp.toNat

/-- There is no PWM stop (R147): with a non-zero PWM_PS_SEL, a timer that has a clock keeps one over every step without
reset. -/
def Obligations.StartedTimerKeepsItsClock : Prop :=
  ∀ s t : State, s.params.pwmPsSel ≠ 0#3 → s.env.rst = [] → s.pwm.ps ≠ 0#3 → step s = .next t → t.pwm.ps ≠ 0#3

/-! ## Motor Actuator (44_motor.md) -/

/-- `MOT_INIT` (R162): both direction pins driven and low, Stopped, in the order of the document; the PWM Generator and
RES are left alone, and a second issue leaves the same state (R163). -/
def Obligations.MotInitDrivesBothPinsLow : Prop :=
  (∀ w, opField w = 0x06#8 → decodeWord w = .ok .motInit) ∧
  ∀ s : State, s.Calm →
    ∃ t, exec .motInit s = .next t ∧
      t.pin = { s.pin with in1Oe := true, in2Oe := true, in1 := false, in2 := false } ∧
      t.mot = { run := false, dir := .cw, speed := 0#8 } ∧
      t.adc = s.adc ∧ s.PwmKept t ∧ t.ctl = s.ctl ∧ t.res = s.res ∧ t.convs = s.convs ∧ t.draws = s.draws ∧
      s.OutsideKept t ∧ t.pending = [] ∧ t.trace = s.trace ++ motInitEvents ∧
      ∃ u, exec .motInit t = .next u ∧ t.AllKept u

/-- `MOT_ROTATE dir, speed` (R164, R165), for every direction and speed: the pattern, then the PWM as `PWM_START speed`
leaves it, then Running(dir, speed); the output enables of the direction pins are not touched (R167). For a speed above 100
nothing is said of CMP (43_pwm.md R145). The count restarts from 0 (70_reset_and_hazards.md R246): it is 0 after its
micro-step, and at the end if TMR has not ticked since. -/
def Obligations.MotRotateSetsPatternDutyAndRunning : Prop :=
  (∀ w, opField w = 0x07#8 →
    decodeWord w = .ok (.motRotate (if w.getLsbD 16 then .ccw else .cw) ((bField w).extractLsb' 0 8))) ∧
  ∀ (s : State) (dir : Direction) (speed : BitVec 8), s.Calm →
    ∃ t, exec (.motRotate dir speed) s = .next t ∧
      t.pin = { s.pin with in1 := dirBit dir, in2 := !dirBit dir, pwmOe := true } ∧
      t.mot = { run := true, dir := dir, speed := speed } ∧
      t.pwm.fast = true ∧ t.pwm.ninv = true ∧ t.pwm.ps = s.params.pwmPsSel ∧
      (speed.toNat ≤ 100 → t.pwm.cmp.toNat = (255 * speed.toNat + 99) / 100 ∧ t.draws = s.draws) ∧
      (s.inside (motRotateMicros dir speed) 5).pwm.cnt = 0#8 ∧
      ((∀ k, 5 ≤ k → k < 15 → (s.gapAt k).ticks = 0) → t.pwm.cnt = 0#8) ∧
      t.adc = s.adc ∧ t.ctl = s.ctl ∧ t.res = s.res ∧ t.convs = s.convs ∧ s.OutsideKept t ∧ t.pending = [] ∧
      t.trace = s.trace ++ motRotateEvents dir t.pwm.cmp

/-- The transient patterns of `MOT_ROTATE` (R166): after the first pin write IN1 is the request's and IN2 the old one,
after the second the pattern is the request's; (1, 1) appears only where IN2 was high and CounterClockwise is requested;
and until the compare write the compare value is the previous one. -/
def Obligations.MotRotateTransientPatterns : Prop :=
  ∀ (s : State) (dir : Direction) (speed : BitVec 8), s.Calm →
    let at' := fun k => s.inside (motRotateMicros dir speed) k
    (at' 2).pin.in1 = dirBit dir ∧ (at' 2).pin.in2 = s.pin.in2 ∧
    (at' 3).pin.in1 = dirBit dir ∧ (at' 3).pin.in2 = !dirBit dir ∧
    ((at' 2).pin.in1 = true ∧ (at' 2).pin.in2 = true ↔ s.pin.in2 = true ∧ dir = .ccw) ∧
    ∀ k, k ≤ 8 → (at' k).pwm.cmp = s.pwm.cmp

/-- `MOT_STOP` from any state (R168): both pins low, duty 0, the timer running, its count restarted from 0, Stopped; its pin
and compare writes are the two-step sequence of R169 and no other; RES and MotorState are not written. -/
def Obligations.MotStopStopsInTwoSteps : Prop :=
  (∀ w, opField w = 0x08#8 → decodeWord w = .ok .motStop) ∧
  ∀ s : State, s.Calm →
    ∃ t, exec .motStop s = .next t ∧
      t.pin = { s.pin with in1 := false, in2 := false, pwmOe := true } ∧
      t.pwm.cmp = 0#8 ∧ t.pwm.fast = true ∧ t.pwm.ninv = true ∧ t.pwm.ps = s.params.pwmPsSel ∧
      (s.inside motStopMicros 6).pwm.cnt = 0#8 ∧
      ((∀ k, 6 ≤ k → k < 22 → (s.gapAt k).ticks = 0) → t.pwm.cnt = 0#8) ∧
      t.mot = { run := false, dir := .cw, speed := 0#8 } ∧
      t.adc = s.adc ∧ t.ctl = s.ctl ∧ t.res = s.res ∧ t.convs = s.convs ∧ t.draws = s.draws ∧ s.OutsideKept t ∧
      t.pending = [] ∧ t.trace = s.trace ++ motStopEvents

/-- Inside `MOT_STOP`: from the second pin write to the compare write the pattern is Clockwise with the previous compare
value; from then until the second pass it is Clockwise with compare value 0; the actuator passes through Running(CW, 0).
Counted in micro-steps, starts and returns included. This is the model's reading of R170 (a) to (c), whose 'second to fifth'
and 'fifth to eighth write' do not fit the list of R169 (DEDUCED, notes/assumptions/18.md; program P2 of
95_test_vectors.md has the first interval). -/
def Obligations.MotStopIntermediateStates : Prop :=
  ∀ s : State, s.Calm →
    let at' := fun k => s.inside motStopMicros k
    (∀ k, 4 ≤ k → k ≤ 9 → (at' k).pin.in1 = false ∧ (at' k).pin.in2 = true ∧ (at' k).pwm.cmp = s.pwm.cmp) ∧
    (∀ k, 10 ≤ k → k ≤ 17 → (at' k).pin.in1 = false ∧ (at' k).pin.in2 = true ∧ (at' k).pwm.cmp = 0#8) ∧
    (at' 15).mot = { run := true, dir := .cw, speed := 0#8 }

/-- The transition table of MOT_STATE (R171): reset and MOT_INIT and MOT_STOP lead to Stopped, MOT_ROTATE to
Running(d, s), and every other operation that contains none of them, CONV and TMR leave it alone. -/
def Obligations.MotStateTransitions : Prop :=
  ∀ s : State,
    s.applyReset.mot.run = false ∧ s.gapStep.mot = s.mot ∧
    (s.env.rst = [] →
      (∃ t, exec .motInit s = .next t ∧ t.mot = { run := false, dir := .cw, speed := 0#8 }) ∧
      (∃ t, exec .motStop s = .next t ∧ t.mot = { run := false, dir := .cw, speed := 0#8 }) ∧
      (∀ d v, ∃ t, exec (.motRotate d v) s = .next t ∧ t.mot = { run := true, dir := d, speed := v }) ∧
      ∀ i : Instr, i ≠ .motInit → i ≠ .motStop → (∀ d v, i ≠ .motRotate d v) → i ≠ .ctlIter → i ≠ .ctlRun →
        ∃ t, exec i s = .next t ∧ t.mot = s.mot)

/-- Where 10_state.md R43 (e), `PWM.CMP` = 0 included, holds. First: reset has the clause word for word, and every step keeps
it in which no `PWM_START` of a non-zero duty is accepted from the port; so it holds in every state of a block with AUTORUN = 1,
whose port never opens, and in every run of commands without such a `PWM_START`. Second: that premise is needed, for after a
stop a `PWM_START` of its own leaves the actuator Stopped and both pins low and writes the compare value of its duty
(43_pwm.md R142, 44_motor.md R160: DEDUCED, notes/assumptions/18.md). -/
def Obligations.StopClauseFailsOnlyByPwmStartAlone : Prop :=
  (State.reset.StopClause ∧
    ∀ s t : State, s.Inv → s.StopClause →
      (∀ w, s.cmdReady = true → s.presented = some w → opField w = 0x05#8 → (bField w).extractLsb' 0 8 = 0#8) →
      step s = .next t → t.StopClause) ∧
  ∀ s : State, s.Calm →
    ∃ t u, exec .motStop s = .next t ∧ exec (.pwmStart 50#8) t = .next u ∧ u.mot.run = false ∧ u.pin.in1 = false ∧
      u.pin.in2 = false ∧ u.pwm.cmp = 128#8

/-! ## Control Loop (45_control_loop.md) -/

/-- `NOP` (R180), the all-zero word among its words, changes nothing and returns at once. -/
def Obligations.NopChangesNothing : Prop :=
  (∀ w, opField w = 0x00#8 → decodeWord w = .ok .nop) ∧ decodeWord 0x00000000#32 = .ok .nop ∧
  ∀ s : State, s.Calm →
    ∃ t, exec .nop s = .next t ∧ s.AllKept t ∧ t.pending = [] ∧
      t.trace = s.trace ++ [.opStart 0x00#8, .opReturn 0x00#8]

/-- `BAND_SEL temp` (R181 to R183): RES receives the code of the one band the temperature lies in, boundaries in the
higher band; nothing else changes, CTL.TIER included. -/
def Obligations.BandSelWritesTheTierCode : Prop :=
  (∀ w, opField w = 0x09#8 → decodeWord w = .ok (.bandSel (bField w))) ∧
  ∀ (s : State) (temp : BitVec 16), s.Calm →
    ∃ t, exec (.bandSel temp) s = .next t ∧
      (t.res = 4#16 ↔ 120 ≤ temp.toNat) ∧
      (t.res = 3#16 ↔ 90 ≤ temp.toNat ∧ temp.toNat < 120) ∧
      (t.res = 2#16 ↔ 60 ≤ temp.toNat ∧ temp.toNat < 90) ∧
      (t.res = 1#16 ↔ 30 ≤ temp.toNat ∧ temp.toNat < 60) ∧
      (t.res = 0#16 ↔ temp.toNat < 30) ∧
      t.adc = s.adc ∧ s.PwmKept t ∧ t.pin = s.pin ∧ t.mot = s.mot ∧ t.ctl = s.ctl ∧ t.convs = s.convs ∧
      t.draws = s.draws ∧ s.OutsideKept t ∧ t.pending = [] ∧ t.trace = s.trace ++ [.opStart 0x09#8, .opReturn 0x09#8]

/-- `CTL_ITER` whose conversion completes before the first look (R188 to R193): the sample becomes a temperature, the
temperature a tier, the tier a stop or a Clockwise rotation at 25 times its code, which restarts the PWM period (the count
is 0 at the end if TMR does not tick), recorded in MotorState; the display events stand in their order; PHASE ends at IDLE, or at IT_SAMPLE in the loop. -/
def Obligations.CtlIterRunsOneIteration : Prop :=
  (∀ w, opField w = 0x0A#8 → decodeWord w = .ok .ctlIter) ∧
  ∀ s : State,
    s.Calm → s.adc.done = false → s.canConvert = true → s.params.pollBound ≠ some 0 → (s.gapAt 5).complete = true →
    let ch := chanTrunc s.params s.params.sensorChannel
    let v := s.ainAt ch s.convs
    let temp := tempWord s.params v
    let tier := bandTier temp
    ∃ t, exec .ctlIter s = .next t ∧
      t.adc = { s.adc with ch := ch, data := v, busy := false, done := false } ∧ t.convs = s.convs + 1 ∧
      t.ctl = { s.ctl with
        temp := temp, tier := tier, mstate := mstateOfTier tier,
        phase := if s.ctl.loop then Phase.itSample.code else Phase.idle.code } ∧
      t.res = tier.setWidth 16 ∧
      (tier = 0#3 → t.mot = { run := false, dir := .cw, speed := 0#8 } ∧
        t.pin = { s.pin with in1 := false, in2 := false, pwmOe := true } ∧ t.pwm.cmp = 0#8) ∧
      (tier ≠ 0#3 → t.mot = { run := true, dir := .cw, speed := BitVec.ofNat 8 (25 * tier.toNat) } ∧
        t.pin = { s.pin with in1 := false, in2 := true, pwmOe := true } ∧
        t.pwm.cmp = compareWord (BitVec.ofNat 8 (25 * tier.toNat))) ∧
      t.pwm.fast = true ∧ t.pwm.ninv = true ∧ t.pwm.ps = s.params.pwmPsSel ∧
      ((∀ k, k < 48 → (s.gapAt k).ticks = 0) → t.pwm.cnt = 0#8) ∧ t.draws = s.draws ∧ s.OutsideKept t ∧
      t.pending = [] ∧
      t.trace = s.trace ++
        [.opStart 0x0A#8, .opStart 0x02#8, .convStart ch, .convDone v, .opReturn 0x02#8, .opStart 0x04#8,
          .opReturn 0x04#8, .dispTemp temp, .opStart 0x09#8, .opReturn 0x09#8] ++
        actEvents tier ++ [.dispFan (mstateOfTier tier)] ++ (if s.ctl.loop then [] else [.opReturn 0x0A#8])

/-- `CTL_ITER` that is not answered before its first look (R186, R188): SEQ is held in phase IT_SAMPLE, and neither the
actuator nor the display has been touched. -/
def Obligations.CtlIterWaitsInTheSamplePhase : Prop :=
  ∀ s : State,
    s.Calm → s.adc.done = false → s.params.pollBound = none → (s.canConvert = false ∨ (s.gapAt 5).complete = false) →
    let ch := chanTrunc s.params s.params.sensorChannel
    ∃ t, exec .ctlIter s = .next t ∧ t.pending = .adcPoll none :: afterSamplePoll ∧
      t.adc = { s.adc with ch := ch, busy := true } ∧ t.ctl = { s.ctl with phase := Phase.itSample.code } ∧
      t.trace = s.trace ++ [.opStart 0x0A#8, .opStart 0x02#8, .convStart ch] ∧
      t.pin = s.pin ∧ t.mot = s.mot ∧ s.PwmKept t ∧ t.res = s.res ∧ t.cmdReady = false

/-- `CTL_RUN` (R197, 70_reset_and_hazards.md R236): LOOP is set and the boot sequence carried out, ADC_INIT with the boot
parameters, MOT_INIT, DispInit; the first iteration is next, and the port is closed. The PWM Generator is untouched. -/
def Obligations.CtlRunBootsIntoTheLoop : Prop :=
  (∀ w, opField w = 0x0B#8 → decodeWord w = .ok .ctlRun) ∧
  ∀ s : State, s.Calm →
    ∃ t, exec .ctlRun s = .next t ∧
      t.ctl = { s.ctl with loop := true, phase := Phase.itSample.code } ∧
      t.adc = { s.adc with refs := s.params.refsSel, div := s.params.divSel, en := true } ∧
      t.pin = { s.pin with in1Oe := true, in2Oe := true, in1 := false, in2 := false } ∧
      t.mot = { run := false, dir := .cw, speed := 0#8 } ∧
      s.PwmKept t ∧ t.res = s.res ∧ t.convs = s.convs ∧ t.draws = s.draws ∧ s.OutsideKept t ∧ t.pending = [] ∧
      t.cmdReady = false ∧
      t.trace = s.trace ++ [.opStart 0x0B#8, .opStart 0x01#8, .opReturn 0x01#8] ++ motInitEvents ++ [.dispInit]

/-- The loop has no end (R198): from a state of the loop that meets the invariant, with the normative infinite poll and no
reset, a step leads to a next state of the same kind, with the port closed and no failure; and so does every further one. -/
def Obligations.LoopNeverEnds : Prop :=
  ∀ s : State,
    s.Inv → s.ctl.loop = true → s.params.pollBound = none → s.env.rst = [] →
    ∃ t, step s = .next t ∧ t.Inv ∧ t.ctl.loop = true ∧ t.params.pollBound = none ∧ t.env.rst = [] ∧
      t.ctl.fault = false ∧ t.cmdReady = false

/-- The successor of each phase (R196): from a calm state between operations a step of the orchestrator leads to the next
phase of the table; the sample phase needs its conversion answered, and IT_ACT a legal tier. What each phase of an iteration
does is said by the three statements that follow, and what the boot phases do by `CtlRunBootsIntoTheLoop`. -/
def Obligations.PhasesFollowTheSuccessorTable : Prop :=
  ∀ (s : State) (p : Phase),
    s.Calm → s.ctl.fault = false → s.pending = [] → s.ctl.phase = p.code → p ≠ .idle →
    (p = .itSample →
      s.adc.done = false ∧ s.canConvert = true ∧ s.params.pollBound ≠ some 0 ∧ (s.gapAt 3).complete = true) →
    (p = .itAct → s.ctl.tier.toNat ≤ 4) →
    ∃ t, step s = .next t ∧ t.pending = [] ∧
      t.ctl.phase = Phase.code (match p with
        | .idle => .idle
        | .bootAdc => .bootMot
        | .bootMot => .bootDisp
        | .bootDisp => .itSample
        | .itSample => .itDispTemp
        | .itDispTemp => .itSelect
        | .itSelect => .itAct
        | .itAct => .itDispFan
        | .itDispFan => if s.ctl.loop then .itSample else .idle)

/-- Step 1 of an iteration in the loop (R189): with the conversion answered at the first look, the sample of SENSOR_CHANNEL
becomes the temperature in RES and CTL.TEMP; not answered, SEQ is held at the poll of IT_SAMPLE with channel and BUSY
written (R186). Neither touches the pins, the actuator or the timer. -/
def Obligations.SamplePhaseSamplesAndLatches : Prop :=
  ∀ s : State, s.Calm → s.ctl.fault = false → s.pending = [] → s.ctl.phase = Phase.itSample.code → s.adc.done = false →
    let ch := chanTrunc s.params s.params.sensorChannel
    let v := s.ainAt ch s.convs
    (s.canConvert = true → s.params.pollBound ≠ some 0 → (s.gapAt 3).complete = true →
      ∃ t, step s = .next t ∧ t.pending = [] ∧
        t.adc = { s.adc with ch := ch, data := v, busy := false, done := false } ∧ t.convs = s.convs + 1 ∧
        t.res = tempWord s.params v ∧
        t.ctl = { s.ctl with temp := tempWord s.params v, phase := Phase.itDispTemp.code } ∧
        t.trace = s.trace ++
          [.opStart 0x02#8, .convStart ch, .convDone v, .opReturn 0x02#8, .opStart 0x04#8, .opReturn 0x04#8] ∧
        s.PwmKept t ∧ t.pin = s.pin ∧ t.mot = s.mot ∧ t.draws = s.draws) ∧
    (s.params.pollBound = none → (s.canConvert = false ∨ (s.gapAt 3).complete = false) →
      ∃ t, step s = .next t ∧ t.pending = .adcPoll none :: afterSamplePoll ∧ t.cmdReady = false ∧
        t.adc = { s.adc with ch := ch, busy := true } ∧ t.convs = s.convs ∧ t.res = s.res ∧ t.ctl = s.ctl ∧
        t.trace = s.trace ++ [.opStart 0x02#8, .convStart ch] ∧
        s.PwmKept t ∧ t.pin = s.pin ∧ t.mot = s.mot ∧ t.draws = s.draws)

/-- Steps 2, 3 and 5 of an iteration (R190, R191, R193): DispTemp of the latched temperature; the tier of the latched
temperature into CTL.TIER and RES; DispFan of the MotorState. None touches the converter, the actuator or the pins. -/
def Obligations.DisplayAndSelectPhases : Prop :=
  ∀ s : State, s.Calm → s.ctl.fault = false → s.pending = [] →
    (s.ctl.phase = Phase.itDispTemp.code → ∃ t, step s = .next t ∧ t.trace = s.trace ++ [.dispTemp s.ctl.temp] ∧
      t.ctl = { s.ctl with phase := Phase.itSelect.code } ∧ t.res = s.res ∧ t.adc = s.adc ∧ t.pin = s.pin ∧
      t.mot = s.mot ∧ s.PwmKept t) ∧
    (s.ctl.phase = Phase.itSelect.code → ∃ t, step s = .next t ∧
      t.trace = s.trace ++ [.opStart 0x09#8, .opReturn 0x09#8] ∧
      t.ctl = { s.ctl with phase := Phase.itAct.code, tier := bandTier s.ctl.temp } ∧
      t.res = (bandTier s.ctl.temp).setWidth 16 ∧ t.adc = s.adc ∧ t.pin = s.pin ∧ t.mot = s.mot ∧ s.PwmKept t) ∧
    (s.ctl.phase = Phase.itDispFan.code → ∃ t, step s = .next t ∧
      t.trace = s.trace ++ [.dispFan s.ctl.mstate] ++ (if s.ctl.loop then [] else [.opReturn 0x0A#8]) ∧
      t.ctl = { s.ctl with phase := if s.ctl.loop then Phase.itSample.code else Phase.idle.code } ∧ t.res = s.res ∧
      t.adc = s.adc ∧ t.pin = s.pin ∧ t.mot = s.mot ∧ s.PwmKept t)

/-- Step 4 of an iteration (R192): the stop tier stops, every other tier rotates Clockwise at 25 times its code, always
within the duty contract (R191: nothing is drawn); the PWM period restarts (70_reset_and_hazards.md R246: the count is 0 at the
end if TMR does not tick); MotorState records it and equals MOT.RUN (44_motor.md R172). -/
def Obligations.ActPhaseActsOnTheTier : Prop :=
  ∀ s : State, s.Calm → s.ctl.fault = false → s.pending = [] → s.ctl.phase = Phase.itAct.code → s.ctl.tier.toNat ≤ 4 →
    ∃ t, step s = .next t ∧ t.draws = s.draws ∧ t.trace = s.trace ++ actEvents s.ctl.tier ∧
      t.ctl = { s.ctl with phase := Phase.itDispFan.code, mstate := mstateOfTier s.ctl.tier } ∧
      t.ctl.mstate.bit = t.mot.run ∧ t.mot.dir = .cw ∧ t.mot.speed.toNat = 25 * s.ctl.tier.toNat ∧
      t.mot.run = decide (s.ctl.tier ≠ 0#3) ∧
      t.pin = { s.pin with in1 := false, in2 := decide (s.ctl.tier ≠ 0#3), pwmOe := true } ∧
      t.pwm.cmp.toNat = (255 * (25 * s.ctl.tier.toNat) + 99) / 100 ∧
      t.pwm.fast = true ∧ t.pwm.ninv = true ∧ t.pwm.ps = s.params.pwmPsSel ∧
      ((∀ k, k < 24 → (s.gapAt k).ticks = 0) → t.pwm.cnt = 0#8) ∧
      t.adc = s.adc ∧ t.res = s.res ∧ t.convs = s.convs ∧ t.pending = []

/-! ## Observation and pins (10_state.md R20, R29; 20_memory.md R63, R66, R71) -/

/-- The layout of the twelve registers (10_state.md R20), bit by bit, unlisted bits 0; registers above 11 read 0
(20_memory.md R63). -/
def Obligations.ObservationPortShowsTheLayout : Prop :=
  ∀ s : State,
    s.readReg 0 = 0#8 ++ BitVec.ofBool s.adc.en ++ s.adc.refs ++ 0#2 ++ s.adc.div ∧
    s.readReg 1 = 0#8 ++ s.adc.ch ∧
    s.readReg 2 = 0#14 ++ BitVec.ofBool s.adc.busy ++ BitVec.ofBool s.adc.done ∧
    s.readReg 3 = 0#6 ++ s.adc.data ∧
    s.readReg 4 = 0#8 ++ BitVec.ofBool s.pwm.fast ++ BitVec.ofBool s.pwm.ninv ++ 0#3 ++ s.pwm.ps ∧
    s.readReg 5 = 0#8 ++ s.pwm.cnt ∧
    s.readReg 6 = 0#8 ++ s.pwm.cmp ∧
    s.readReg 7 = 0#13 ++ BitVec.ofBool s.pin.pwmOe ++ BitVec.ofBool s.pin.in2Oe ++ BitVec.ofBool s.pin.in1Oe ∧
    s.readReg 8 = 0#14 ++ BitVec.ofBool s.pin.in2 ++ BitVec.ofBool s.pin.in1 ∧
    s.readReg 9 = BitVec.ofBool s.mot.run ++ s.mot.dir.code ++ 0#6 ++ s.mot.speed ∧
    s.readReg 10 = 0#8 ++ BitVec.ofBool s.ctl.fault ++ 0#1 ++ BitVec.ofBool s.ctl.loop ++
      BitVec.ofBool s.ctl.mstate.bit ++ s.ctl.phase ∧
    s.readReg 11 = s.ctl.temp ∧
    ∀ n, 11 < n → s.readReg n = 0#16

/-- Pins (10_state.md R28, R29; 43_pwm.md R151; 70_reset_and_hazards.md R231; 20_memory.md R71): from reset no pin has a level
from the block; an output bound to no existing pin never has one; a direction output whose enable is 0 has none; one that is
enabled and bound shows its latch; `pwm_out` has none unless PWM_OE, FAST and NINV are all 1, and then, if bound, is high
exactly while CNT < CMP. Two outputs bound to one pin each have their own level here (notes/assumptions/21.md). -/
def Obligations.WiresFollowEnablesAndBinding : Prop :=
  ∀ s : State,
    (s.AtReset → ∀ p, s.wire p = none) ∧
    (∀ p, PinMap.bound s.params.pinMap p ∉ s.params.pinMap.present → s.wire p = none) ∧
    (s.pin.in1Oe = false → s.wire .in1 = none) ∧
    (s.pin.in2Oe = false → s.wire .in2 = none) ∧
    (s.params.pinMap.in1 ∈ s.params.pinMap.present → s.pin.in1Oe = true → s.wire .in1 = some s.pin.in1) ∧
    (s.params.pinMap.in2 ∈ s.params.pinMap.present → s.pin.in2Oe = true → s.wire .in2 = some s.pin.in2) ∧
    (s.pin.pwmOe = false ∨ s.pwm.fast = false ∨ s.pwm.ninv = false → s.wire .pwmOut = none) ∧
    (s.params.pinMap.pwmOut ∈ s.params.pinMap.present → s.pin.pwmOe = true → s.pwm.fast = true → s.pwm.ninv = true →
      ∃ high, s.wire .pwmOut = some high ∧ (high = true ↔ s.pwm.cnt.toNat < s.pwm.cmp.toNat))

/-! ## The invariant (10_state.md R43) -/

/-- The state after reset meets the invariant. -/
def Obligations.ResetMeetsTheInvariant : Prop := State.reset.Inv

/-- Every step, from every state that meets the invariant, leads to one that meets it: between operations no conversion is
in flight and the flag is clear, the channel fits its bits, a clocked timer is configured and connected, Stopped means
both pins low, from a stop to the next rotation the compare value is 0 or what a `PWM_START` issued alone has written since,
the pattern is never (1, 1), no reserved code arises, the latches hold what the next phase reads. -/
def Obligations.StepKeepsTheInvariant : Prop :=
  ∀ s t : State, s.Inv → step s = .next t → t.Inv
end

