-- ==== Sys2Proof/Laws/State.lean ====
section
/-! SUPPORT. What each named update of a state leaves in each field: one lemma per field per update, true by rfl. -/

namespace Sys2Proof.Machine

/-! ## emit -/

@[simp] theorem State.emit_adc (s : State) (e : Event) : (s.emit e).adc = s.adc := rfl
@[simp] theorem State.emit_pwm (s : State) (e : Event) : (s.emit e).pwm = s.pwm := rfl
@[simp] theorem State.emit_pin (s : State) (e : Event) : (s.emit e).pin = s.pin := rfl
@[simp] theorem State.emit_mot (s : State) (e : Event) : (s.emit e).mot = s.mot := rfl
@[simp] theorem State.emit_ctl (s : State) (e : Event) : (s.emit e).ctl = s.ctl := rfl
@[simp] theorem State.emit_res (s : State) (e : Event) : (s.emit e).res = s.res := rfl
@[simp] theorem State.emit_pending (s : State) (e : Event) : (s.emit e).pending = s.pending := rfl
@[simp] theorem State.emit_convs (s : State) (e : Event) : (s.emit e).convs = s.convs := rfl
@[simp] theorem State.emit_trace (s : State) (e : Event) : (s.emit e).trace = s.trace ++ [e] := rfl
@[simp] theorem State.emit_env (s : State) (e : Event) : (s.emit e).env = s.env := rfl
@[simp] theorem State.emit_gapsUsed (s : State) (e : Event) : (s.emit e).gapsUsed = s.gapsUsed := rfl
@[simp] theorem State.emit_draws (s : State) (e : Event) : (s.emit e).draws = s.draws := rfl
@[simp] theorem State.emit_params (s : State) (e : Event) : (s.emit e).params = s.params := rfl

/-! ## convComplete -/

@[simp] theorem State.convComplete_adc (s : State) : (s.convComplete).adc = { s.adc with data := s.sampleNow, busy := false, done := true } := rfl
@[simp] theorem State.convComplete_pwm (s : State) : (s.convComplete).pwm = s.pwm := rfl
@[simp] theorem State.convComplete_pin (s : State) : (s.convComplete).pin = s.pin := rfl
@[simp] theorem State.convComplete_mot (s : State) : (s.convComplete).mot = s.mot := rfl
@[simp] theorem State.convComplete_ctl (s : State) : (s.convComplete).ctl = s.ctl := rfl
@[simp] theorem State.convComplete_res (s : State) : (s.convComplete).res = s.res := rfl
@[simp] theorem State.convComplete_pending (s : State) : (s.convComplete).pending = s.pending := rfl
@[simp] theorem State.convComplete_convs (s : State) : (s.convComplete).convs = s.convs + 1 := rfl
@[simp] theorem State.convComplete_trace (s : State) : (s.convComplete).trace = s.trace ++ [.convDone s.sampleNow] := rfl
@[simp] theorem State.convComplete_env (s : State) : (s.convComplete).env = s.env := rfl
@[simp] theorem State.convComplete_gapsUsed (s : State) : (s.convComplete).gapsUsed = s.gapsUsed := rfl
@[simp] theorem State.convComplete_draws (s : State) : (s.convComplete).draws = s.draws := rfl
@[simp] theorem State.convComplete_params (s : State) : (s.convComplete).params = s.params := rfl

/-! ## tmrTick -/

@[simp] theorem State.tmrTick_adc (s : State) : (s.tmrTick).adc = s.adc := rfl
@[simp] theorem State.tmrTick_pwm (s : State) : (s.tmrTick).pwm = { s.pwm with cnt := if s.tmrEnabled then s.pwm.cnt + 1#8 else s.pwm.cnt } := rfl
@[simp] theorem State.tmrTick_pin (s : State) : (s.tmrTick).pin = s.pin := rfl
@[simp] theorem State.tmrTick_mot (s : State) : (s.tmrTick).mot = s.mot := rfl
@[simp] theorem State.tmrTick_ctl (s : State) : (s.tmrTick).ctl = s.ctl := rfl
@[simp] theorem State.tmrTick_res (s : State) : (s.tmrTick).res = s.res := rfl
@[simp] theorem State.tmrTick_pending (s : State) : (s.tmrTick).pending = s.pending := rfl
@[simp] theorem State.tmrTick_convs (s : State) : (s.tmrTick).convs = s.convs := rfl
@[simp] theorem State.tmrTick_trace (s : State) : (s.tmrTick).trace = s.trace := rfl
@[simp] theorem State.tmrTick_env (s : State) : (s.tmrTick).env = s.env := rfl
@[simp] theorem State.tmrTick_gapsUsed (s : State) : (s.tmrTick).gapsUsed = s.gapsUsed := rfl
@[simp] theorem State.tmrTick_draws (s : State) : (s.tmrTick).draws = s.draws := rfl
@[simp] theorem State.tmrTick_params (s : State) : (s.tmrTick).params = s.params := rfl

/-! ## tmrTicks -/

@[simp] theorem State.tmrTicks_adc (n : Nat) (s : State) : (s.tmrTicks n).adc = s.adc := rfl
@[simp] theorem State.tmrTicks_pwm (n : Nat) (s : State) : (s.tmrTicks n).pwm = { s.pwm with cnt := if s.tmrEnabled then s.pwm.cnt + BitVec.ofNat 8 n else s.pwm.cnt } := rfl
@[simp] theorem State.tmrTicks_pin (n : Nat) (s : State) : (s.tmrTicks n).pin = s.pin := rfl
@[simp] theorem State.tmrTicks_mot (n : Nat) (s : State) : (s.tmrTicks n).mot = s.mot := rfl
@[simp] theorem State.tmrTicks_ctl (n : Nat) (s : State) : (s.tmrTicks n).ctl = s.ctl := rfl
@[simp] theorem State.tmrTicks_res (n : Nat) (s : State) : (s.tmrTicks n).res = s.res := rfl
@[simp] theorem State.tmrTicks_pending (n : Nat) (s : State) : (s.tmrTicks n).pending = s.pending := rfl
@[simp] theorem State.tmrTicks_convs (n : Nat) (s : State) : (s.tmrTicks n).convs = s.convs := rfl
@[simp] theorem State.tmrTicks_trace (n : Nat) (s : State) : (s.tmrTicks n).trace = s.trace := rfl
@[simp] theorem State.tmrTicks_env (n : Nat) (s : State) : (s.tmrTicks n).env = s.env := rfl
@[simp] theorem State.tmrTicks_gapsUsed (n : Nat) (s : State) : (s.tmrTicks n).gapsUsed = s.gapsUsed := rfl
@[simp] theorem State.tmrTicks_draws (n : Nat) (s : State) : (s.tmrTicks n).draws = s.draws := rfl
@[simp] theorem State.tmrTicks_params (n : Nat) (s : State) : (s.tmrTicks n).params = s.params := rfl

/-! ## useGap -/

@[simp] theorem State.useGap_adc (s : State) : (s.useGap).adc = s.adc := rfl
@[simp] theorem State.useGap_pwm (s : State) : (s.useGap).pwm = s.pwm := rfl
@[simp] theorem State.useGap_pin (s : State) : (s.useGap).pin = s.pin := rfl
@[simp] theorem State.useGap_mot (s : State) : (s.useGap).mot = s.mot := rfl
@[simp] theorem State.useGap_ctl (s : State) : (s.useGap).ctl = s.ctl := rfl
@[simp] theorem State.useGap_res (s : State) : (s.useGap).res = s.res := rfl
@[simp] theorem State.useGap_pending (s : State) : (s.useGap).pending = s.pending := rfl
@[simp] theorem State.useGap_convs (s : State) : (s.useGap).convs = s.convs := rfl
@[simp] theorem State.useGap_trace (s : State) : (s.useGap).trace = s.trace := rfl
@[simp] theorem State.useGap_env (s : State) : (s.useGap).env = { s.env with gaps := s.env.gaps.tail, rst := rstNearer s.env.rst } := rfl
@[simp] theorem State.useGap_gapsUsed (s : State) : (s.useGap).gapsUsed = if s.env.gaps.isEmpty then s.gapsUsed + 1 else s.gapsUsed := rfl
@[simp] theorem State.useGap_draws (s : State) : (s.useGap).draws = s.draws := rfl
@[simp] theorem State.useGap_params (s : State) : (s.useGap).params = s.params := rfl

/-! ## applyReset -/

@[simp] theorem State.applyReset_adc (s : State) : (s.applyReset).adc = State.reset.adc := rfl
@[simp] theorem State.applyReset_pwm (s : State) : (s.applyReset).pwm = State.reset.pwm := rfl
@[simp] theorem State.applyReset_pin (s : State) : (s.applyReset).pin = State.reset.pin := rfl
@[simp] theorem State.applyReset_mot (s : State) : (s.applyReset).mot = State.reset.mot := rfl
@[simp] theorem State.applyReset_ctl (s : State) : (s.applyReset).ctl = State.reset.ctl := rfl
@[simp] theorem State.applyReset_res (s : State) : (s.applyReset).res = 0#16 := rfl
@[simp] theorem State.applyReset_pending (s : State) : (s.applyReset).pending = [] := rfl
@[simp] theorem State.applyReset_convs (s : State) : (s.applyReset).convs = 0 := rfl
@[simp] theorem State.applyReset_trace (s : State) : (s.applyReset).trace = s.trace ++ [.reset] := rfl
@[simp] theorem State.applyReset_env (s : State) : (s.applyReset).env = { s.env with rst := s.env.rst.tail } := rfl
@[simp] theorem State.applyReset_gapsUsed (s : State) : (s.applyReset).gapsUsed = s.gapsUsed := rfl
@[simp] theorem State.applyReset_draws (s : State) : (s.applyReset).draws = s.draws := rfl
@[simp] theorem State.applyReset_params (s : State) : (s.applyReset).params = s.params := rfl

/-! ## writeCmp -/

@[simp] theorem State.writeCmp_adc (s : State) (duty : BitVec 8) : (s.writeCmp duty).adc = s.adc := rfl
@[simp] theorem State.writeCmp_pwm (s : State) (duty : BitVec 8) : (s.writeCmp duty).pwm = { s.pwm with cmp := s.compareValue duty } := rfl
@[simp] theorem State.writeCmp_pin (s : State) (duty : BitVec 8) : (s.writeCmp duty).pin = s.pin := rfl
@[simp] theorem State.writeCmp_mot (s : State) (duty : BitVec 8) : (s.writeCmp duty).mot = s.mot := rfl
@[simp] theorem State.writeCmp_ctl (s : State) (duty : BitVec 8) : (s.writeCmp duty).ctl = s.ctl := rfl
@[simp] theorem State.writeCmp_res (s : State) (duty : BitVec 8) : (s.writeCmp duty).res = s.res := rfl
@[simp] theorem State.writeCmp_pending (s : State) (duty : BitVec 8) : (s.writeCmp duty).pending = s.pending := rfl
@[simp] theorem State.writeCmp_convs (s : State) (duty : BitVec 8) : (s.writeCmp duty).convs = s.convs := rfl
@[simp] theorem State.writeCmp_trace (s : State) (duty : BitVec 8) : (s.writeCmp duty).trace = s.trace ++ [.cmpWrite (s.compareValue duty)] := rfl
@[simp] theorem State.writeCmp_env (s : State) (duty : BitVec 8) : (s.writeCmp duty).env = s.env := rfl
@[simp] theorem State.writeCmp_gapsUsed (s : State) (duty : BitVec 8) : (s.writeCmp duty).gapsUsed = s.gapsUsed := rfl
@[simp] theorem State.writeCmp_draws (s : State) (duty : BitVec 8) : (s.writeCmp duty).draws = if dutyInContract duty then s.draws else s.draws + 1 := rfl
@[simp] theorem State.writeCmp_params (s : State) (duty : BitVec 8) : (s.writeCmp duty).params = s.params := rfl

/-! ## dropPresented -/

@[simp] theorem State.dropPresented_adc (s : State) : (s.dropPresented).adc = s.adc := rfl
@[simp] theorem State.dropPresented_pwm (s : State) : (s.dropPresented).pwm = s.pwm := rfl
@[simp] theorem State.dropPresented_pin (s : State) : (s.dropPresented).pin = s.pin := rfl
@[simp] theorem State.dropPresented_mot (s : State) : (s.dropPresented).mot = s.mot := rfl
@[simp] theorem State.dropPresented_ctl (s : State) : (s.dropPresented).ctl = s.ctl := rfl
@[simp] theorem State.dropPresented_res (s : State) : (s.dropPresented).res = s.res := rfl
@[simp] theorem State.dropPresented_pending (s : State) : (s.dropPresented).pending = s.pending := rfl
@[simp] theorem State.dropPresented_convs (s : State) : (s.dropPresented).convs = s.convs := rfl
@[simp] theorem State.dropPresented_trace (s : State) : (s.dropPresented).trace = s.trace := rfl
@[simp] theorem State.dropPresented_env (s : State) : (s.dropPresented).env = { s.env with cmds := s.env.cmds.tail } := rfl
@[simp] theorem State.dropPresented_gapsUsed (s : State) : (s.dropPresented).gapsUsed = s.gapsUsed := rfl
@[simp] theorem State.dropPresented_draws (s : State) : (s.dropPresented).draws = s.draws := rfl
@[simp] theorem State.dropPresented_params (s : State) : (s.dropPresented).params = s.params := rfl

/-! ## presentWord -/

@[simp] theorem State.presentWord_adc (s : State) (w : CmdWord) : (s.presentWord w).adc = s.adc := rfl
@[simp] theorem State.presentWord_pwm (s : State) (w : CmdWord) : (s.presentWord w).pwm = s.pwm := rfl
@[simp] theorem State.presentWord_pin (s : State) (w : CmdWord) : (s.presentWord w).pin = s.pin := rfl
@[simp] theorem State.presentWord_mot (s : State) (w : CmdWord) : (s.presentWord w).mot = s.mot := rfl
@[simp] theorem State.presentWord_ctl (s : State) (w : CmdWord) : (s.presentWord w).ctl = { s.ctl with phase := 0#4, fault := false } := rfl
@[simp] theorem State.presentWord_res (s : State) (w : CmdWord) : (s.presentWord w).res = s.res := rfl
@[simp] theorem State.presentWord_pending (s : State) (w : CmdWord) : (s.presentWord w).pending = [] := rfl
@[simp] theorem State.presentWord_convs (s : State) (w : CmdWord) : (s.presentWord w).convs = s.convs := rfl
@[simp] theorem State.presentWord_trace (s : State) (w : CmdWord) : (s.presentWord w).trace = s.trace := rfl
@[simp] theorem State.presentWord_env (s : State) (w : CmdWord) : (s.presentWord w).env = { s.env with rst := [], cmds := some w :: s.env.cmds.tail } := rfl
@[simp] theorem State.presentWord_gapsUsed (s : State) (w : CmdWord) : (s.presentWord w).gapsUsed = s.gapsUsed := rfl
@[simp] theorem State.presentWord_draws (s : State) (w : CmdWord) : (s.presentWord w).draws = s.draws := rfl
@[simp] theorem State.presentWord_params (s : State) (w : CmdWord) : (s.presentWord w).params = { s.params with autorun := false } := rfl

end Sys2Proof.Machine
end

