-- ==== Sys2Proof/Laws/Run.lean ====
section
/-! SUPPORT. What one gap can do, what a run of micro-steps can do, and how a run in a calm state relates to the same
micro-steps executed with nothing in between. Provers cite these instead of unfolding `gapStep` and `runMicros`. -/

namespace Sys2Proof.Machine

/-! ## Small facts -/

@[simp] theorem rstNearer_nil : rstNearer [] = [] := rfl
@[simp] theorem rstNearer_cons (n : Nat) (later : List Nat) : rstNearer (n :: later) = (n - 1) :: later := rfl

@[simp] theorem Phase.ofCode_code (p : Phase) : Phase.ofCode p.code = some p := by cases p <;> rfl

theorem Phase.code_injective {p q : Phase} (h : p.code = q.code) : p = q := by
  have := congrArg Phase.ofCode h
  simpa using this

@[simp] theorem MotorState.bit_mstateOfTier (t : BitVec 3) : (mstateOfTier t).bit = decide (t ≠ 0#3) := by
  unfold mstateOfTier
  split <;> simp_all [MotorState.bit]

/-- `n` ticks at once are `n` ticks of TMR one after the other. -/
theorem State.tmrTicks_eq_iterate (n : Nat) (s : State) : s.tmrTicks n = State.tmrTick^[n] s := by
  induction n generalizing s with
  | zero => simp [State.tmrTicks]
  | succ n ih =>
    rw [Function.iterate_succ_apply, ← ih]
    have he : s.tmrTick.tmrEnabled = s.tmrEnabled := rfl
    unfold State.tmrTicks
    rw [he]
    by_cases h : s.tmrEnabled = true
    · have hc : s.pwm.cnt + BitVec.ofNat 8 (n + 1) = s.pwm.cnt + 1#8 + BitVec.ofNat 8 n := by
        rw [BitVec.add_assoc, BitVec.add_comm 1#8, ← BitVec.ofNat_add]
      simp [State.tmrTick, h, hc]
    · simp [State.tmrTick, h]

/-! ## CONV's part of a gap -/

/-- CONV moves exactly when it is enabled and the gap lets it. -/
theorem State.convMove_cases (g : Gap) (s : State) :
    (s.convEnabled = true ∧ g.complete = true ∧ s.convMove g = s.convComplete) ∨
      ((s.convEnabled = false ∨ g.complete = false) ∧ s.convMove g = s) := by
  unfold State.convMove
  cases s.convEnabled <;> cases g.complete <;> simp

theorem State.convMove_of_disabled (g : Gap) {s : State} (h : s.convEnabled = false) : s.convMove g = s := by
  simp [State.convMove, h]

theorem State.convMove_of_incomplete {g : Gap} (s : State) (h : g.complete = false) : s.convMove g = s := by
  simp [State.convMove, h]

theorem State.convMove_of_complete {g : Gap} {s : State} (h : s.convEnabled = true) (hg : g.complete = true) :
    s.convMove g = s.convComplete := by
  simp [State.convMove, h, hg]

theorem State.convEnabled_of_idle {s : State} (h : s.adc.busy = false) : s.convEnabled = false := by
  simp [State.convEnabled, h]

@[simp] theorem State.convMove_pwm (g : Gap) (s : State) : (s.convMove g).pwm = s.pwm := by
  unfold State.convMove; split <;> rfl

@[simp] theorem State.convMove_pin (g : Gap) (s : State) : (s.convMove g).pin = s.pin := by
  unfold State.convMove; split <;> rfl

@[simp] theorem State.convMove_mot (g : Gap) (s : State) : (s.convMove g).mot = s.mot := by
  unfold State.convMove; split <;> rfl

@[simp] theorem State.convMove_ctl (g : Gap) (s : State) : (s.convMove g).ctl = s.ctl := by
  unfold State.convMove; split <;> rfl

@[simp] theorem State.convMove_res (g : Gap) (s : State) : (s.convMove g).res = s.res := by
  unfold State.convMove; split <;> rfl

@[simp] theorem State.convMove_pending (g : Gap) (s : State) : (s.convMove g).pending = s.pending := by
  unfold State.convMove; split <;> rfl

@[simp] theorem State.convMove_env (g : Gap) (s : State) : (s.convMove g).env = s.env := by
  unfold State.convMove; split <;> rfl

@[simp] theorem State.convMove_gapsUsed (g : Gap) (s : State) : (s.convMove g).gapsUsed = s.gapsUsed := by
  unfold State.convMove; split <;> rfl

@[simp] theorem State.convMove_draws (g : Gap) (s : State) : (s.convMove g).draws = s.draws := by
  unfold State.convMove; split <;> rfl

@[simp] theorem State.convMove_params (g : Gap) (s : State) : (s.convMove g).params = s.params := by
  unfold State.convMove; split <;> rfl

/-! ## One gap -/

@[simp] theorem State.gapStep_pin (s : State) : s.gapStep.pin = s.pin := by simp [State.gapStep]
@[simp] theorem State.gapStep_mot (s : State) : s.gapStep.mot = s.mot := by simp [State.gapStep]
@[simp] theorem State.gapStep_ctl (s : State) : s.gapStep.ctl = s.ctl := by simp [State.gapStep]
@[simp] theorem State.gapStep_res (s : State) : s.gapStep.res = s.res := by simp [State.gapStep]
@[simp] theorem State.gapStep_pending (s : State) : s.gapStep.pending = s.pending := by simp [State.gapStep]
@[simp] theorem State.gapStep_draws (s : State) : s.gapStep.draws = s.draws := by simp [State.gapStep]
@[simp] theorem State.gapStep_params (s : State) : s.gapStep.params = s.params := by simp [State.gapStep]

@[simp] theorem State.gapStep_env (s : State) :
    s.gapStep.env = { s.env with gaps := s.env.gaps.tail, rst := rstNearer s.env.rst } := by
  simp [State.gapStep]

@[simp] theorem State.gapStep_pwm_fast (s : State) : s.gapStep.pwm.fast = s.pwm.fast := by simp [State.gapStep]
@[simp] theorem State.gapStep_pwm_ninv (s : State) : s.gapStep.pwm.ninv = s.pwm.ninv := by simp [State.gapStep]
@[simp] theorem State.gapStep_pwm_ps (s : State) : s.gapStep.pwm.ps = s.pwm.ps := by simp [State.gapStep]
@[simp] theorem State.gapStep_pwm_cmp (s : State) : s.gapStep.pwm.cmp = s.pwm.cmp := by simp [State.gapStep]

@[simp] theorem State.gapStep_pwm_cnt (s : State) :
    s.gapStep.pwm.cnt = if s.tmrEnabled then s.pwm.cnt + BitVec.ofNat 8 (s.gapAt 0).ticks else s.pwm.cnt := by
  simp [State.gapStep, State.tmrEnabled]

/-- What CONV's registers are after a gap: as after `complete`, or as before. -/
theorem State.gapStep_conv (s : State) :
    (s.convEnabled = true ∧ (s.gapAt 0).complete = true ∧ s.gapStep.adc = s.convComplete.adc ∧
        s.gapStep.convs = s.convs + 1 ∧ s.gapStep.trace = s.trace ++ [.convDone s.sampleNow]) ∨
      ((s.convEnabled = false ∨ (s.gapAt 0).complete = false) ∧ s.gapStep.adc = s.adc ∧
        s.gapStep.convs = s.convs ∧ s.gapStep.trace = s.trace) := by
  rcases s.convMove_cases (s.gapAt 0) with ⟨h, hg, e⟩ | ⟨h, e⟩
  · left; simp [State.gapStep, e, h, hg]
  · right; simp [State.gapStep, e, h]

theorem State.gapStep_adc_of_disabled {s : State} (h : s.convEnabled = false) : s.gapStep.adc = s.adc := by
  simp [State.gapStep, State.convMove_of_disabled _ h]

theorem State.gapStep_convs_of_disabled {s : State} (h : s.convEnabled = false) : s.gapStep.convs = s.convs := by
  simp [State.gapStep, State.convMove_of_disabled _ h]

theorem State.gapStep_trace_of_disabled {s : State} (h : s.convEnabled = false) : s.gapStep.trace = s.trace := by
  simp [State.gapStep, State.convMove_of_disabled _ h]

/-! ## The condition of the stop clause (10_state.md R43 (e)) -/

theorem stopCmp_append (l es : List Event) : stopCmp (l ++ es) = es.foldl stopCmpAfter (stopCmp l) := by
  simp [stopCmp, List.foldl_append]

/-- Neither CONV nor TMR bears on it. -/
@[simp] theorem State.gapStep_stopCmp (s : State) : stopCmp s.gapStep.trace = stopCmp s.trace := by
  rcases s.gapStep_conv with ⟨-, -, -, -, e⟩ | ⟨-, -, -, e⟩ <;> rw [e]
  rw [stopCmp_append]
  rfl

/-- WHEN THE STOP CLAUSE HOLDS in a state that meets the actuator's invariant: unless a compare value other than 0 has been
written since the `MOT_STOP`. -/
theorem State.ActuatorInv.stopClause_iff {s : State} (h : s.ActuatorInv) :
    s.StopClause ↔ ∀ v, stopCmp s.trace = some v → v = 0#8 := by
  constructor
  · intro hs v hv
    obtain ⟨hr, hc⟩ := h.stopDuty v hv
    exact hc.symm.trans (hs hr (by rw [hv]; rfl)).2.2
  · intro hg hr hi
    obtain ⟨v, hv⟩ := Option.isSome_iff_exists.mp hi
    obtain ⟨-, -, h1, h2⟩ := h.stopped hr
    exact ⟨h1, h2, (h.stopDuty v hv).2.trans (hg v hv)⟩

/-- A gap shifts the gaps that lie ahead by one. -/
theorem State.gapAt_congr {s t : State} (hg : t.env.gaps = s.env.gaps) (hu : t.gapsUsed = s.gapsUsed) (k : Nat) :
    t.gapAt k = s.gapAt k := by
  simp [State.gapAt, hg, hu]

@[simp] theorem State.gapStep_gapAt (s : State) (k : Nat) : s.gapStep.gapAt k = s.gapAt (k + 1) := by
  unfold State.gapAt
  cases h : s.env.gaps with
  | nil => simp [State.gapStep, h]; congr 1; omega
  | cons g gs => simp [State.gapStep, h]

/-! ## Every micro-step -/

@[simp] theorem Micro.apply_params (m : Micro) (s : State) : (m.apply s).params = s.params := by cases m <;> rfl
@[simp] theorem Micro.apply_env (m : Micro) (s : State) : (m.apply s).env = s.env := by cases m <;> rfl
@[simp] theorem Micro.apply_pending (m : Micro) (s : State) : (m.apply s).pending = s.pending := by cases m <;> rfl
@[simp] theorem Micro.apply_convs (m : Micro) (s : State) : (m.apply s).convs = s.convs := by cases m <;> rfl
@[simp] theorem Micro.apply_gapsUsed (m : Micro) (s : State) : (m.apply s).gapsUsed = s.gapsUsed := by
  cases m <;> rfl

/-- Only ADC_READ's trigger sets BUSY, and no micro-step clears it (10_state.md R44). -/
theorem Micro.apply_busy {m : Micro} (hm : m ≠ .adcTrigger) (s : State) : (m.apply s).adc.busy = s.adc.busy := by
  cases m <;> first | rfl | exact absurd rfl hm

/-- Every micro-step appends to the trace and takes nothing from it. -/
theorem Micro.apply_trace (m : Micro) (s : State) : ∃ es, (m.apply s).trace = s.trace ++ es := by
  cases m <;> first | exact ⟨[], (List.append_nil _).symm⟩ | exact ⟨_, rfl⟩

@[simp] theorem Micro.apply_gapAt (m : Micro) (s : State) (k : Nat) : (m.apply s).gapAt k = s.gapAt k :=
  State.gapAt_congr (by simp) (by simp) k

/-! ## Runs -/

/-- A micro-step that neither looks at the completion flag nor triggers a conversion. -/
def Micro.plain (m : Micro) : Bool :=
  match m with
  | .adcPoll _ => false
  | .adcTrigger => false
  | _ => true

theorem Micro.plain_poll? {m : Micro} (h : m.plain = true) : m.poll? = none := by
  cases m <;> simp_all [Micro.plain, Micro.poll?]

theorem Micro.plain_ne_trigger {m : Micro} (h : m.plain = true) : m ≠ .adcTrigger := by
  rintro rfl; simp [Micro.plain] at h

theorem State.rstNow_of_none {s : State} (h : s.env.rst = []) : s.rstNow = false := by simp [State.rstNow, h]

@[simp] theorem runMicros_nil (s : State) : runMicros [] s = { s with pending := [] } := rfl

/-- Reset wins before any micro-step (70_reset_and_hazards.md R230). -/
theorem runMicros_cons_of_rst {s : State} (h : s.rstNow = true) (m : Micro) (ms : List Micro) :
    runMicros (m :: ms) s = s.applyReset := by
  simp [runMicros, gapThen, h]

theorem Micro.look_of_write {m : Micro} (hm : m.poll? = none) (s : State) : m.look s = .through := by
  simp [Micro.look, hm]

/-- A micro-step that is no poll: a gap, then its effect. -/
theorem runMicros_cons_of_write {m : Micro} {s : State} (hr : s.rstNow = false) (hm : m.poll? = none)
    (ms : List Micro) : runMicros (m :: ms) s = runMicros ms (m.apply s.gapStep) := by
  simp [runMicros, gapThen, hr, Micro.look_of_write hm]

/-- A poll: a gap, then one look. -/
theorem runMicros_cons_poll {s : State} (hr : s.rstNow = false) (looks : Option Nat) (ms : List Micro) :
    runMicros (.adcPoll looks :: ms) s =
      match pollLook looks s.gapStep.adc.done with
      | .through => runMicros ms s.gapStep
      | .again left => { s.gapStep with pending := .adcPoll left :: ms }
      | .timeout => s.gapStep.raiseTimeout := by
  show gapThen _ s = _
  rw [gapThen, if_neg (by simp [hr])]
  rfl

/-- Writes that are run as such are a run of micro-steps. -/
theorem runWrites_eq_runMicros {ms : List Micro} (hms : ∀ m ∈ ms, m.poll? = none) (s : State) :
    runWrites ms s = runMicros ms s := by
  induction ms generalizing s with
  | nil => rfl
  | cons m ms ih =>
    have hm := hms m (List.mem_cons_self ..)
    have ht : ∀ n ∈ ms, n.poll? = none := fun n hn => hms n (List.mem_cons_of_mem m hn)
    simp only [runWrites, runMicros, Micro.look_of_write hm]
    congr 1
    funext s1
    exact ih ht _

/-- HardwareTimeout is the run of its three writes (60_exceptions.md R216). -/
theorem State.raiseTimeout_eq (s : State) : s.raiseTimeout = runMicros timeoutMicros s :=
  runWrites_eq_runMicros (by decide) s

/-- A run of micro-steps without reset and without poll, before its end is noted. -/
def runFree : List Micro → State → State
  | [], s => s
  | m :: ms, s => runFree ms (m.apply s.gapStep)

/-- The same micro-steps with nothing happening between them. -/
def replay (ms : List Micro) (s : State) : State := ms.foldl (fun t m => m.apply t) s

/-- Two states that differ at most in the timer's count, in `pending`, and in how many gaps are used up. -/
structure State.Agree (s t : State) : Prop where
  adc : s.adc = t.adc
  fast : s.pwm.fast = t.pwm.fast
  ninv : s.pwm.ninv = t.pwm.ninv
  ps : s.pwm.ps = t.pwm.ps
  cmp : s.pwm.cmp = t.pwm.cmp
  pin : s.pin = t.pin
  mot : s.mot = t.mot
  ctl : s.ctl = t.ctl
  res : s.res = t.res
  convs : s.convs = t.convs
  trace : s.trace = t.trace
  rst : s.env.rst = t.env.rst
  cmds : s.env.cmds = t.env.cmds
  ain : s.env.ain = t.env.ain
  draws : s.draws = t.draws
  params : s.params = t.params

theorem State.Agree.refl (s : State) : s.Agree s := by constructor <;> rfl

theorem State.Agree.trans {s t u : State} (h : s.Agree t) (k : t.Agree u) : s.Agree u where
  adc := h.adc.trans k.adc
  fast := h.fast.trans k.fast
  ninv := h.ninv.trans k.ninv
  ps := h.ps.trans k.ps
  cmp := h.cmp.trans k.cmp
  pin := h.pin.trans k.pin
  mot := h.mot.trans k.mot
  ctl := h.ctl.trans k.ctl
  res := h.res.trans k.res
  convs := h.convs.trans k.convs
  trace := h.trace.trans k.trace
  rst := h.rst.trans k.rst
  cmds := h.cmds.trans k.cmds
  ain := h.ain.trans k.ain
  draws := h.draws.trans k.draws
  params := h.params.trans k.params

/-- A gap in a calm state changes only what `Agree` leaves out. -/
theorem State.gapStep_agree {s : State} (hr : s.env.rst = []) (h : s.convEnabled = false) : s.gapStep.Agree s where
  adc := State.gapStep_adc_of_disabled h
  fast := by simp
  ninv := by simp
  ps := by simp
  cmp := by simp
  pin := by simp
  mot := by simp
  ctl := by simp
  res := by simp
  convs := State.gapStep_convs_of_disabled h
  trace := State.gapStep_trace_of_disabled h
  rst := by simp [hr]
  cmds := by simp
  ain := by simp
  draws := by simp
  params := by simp

/-- The timer's registers but for the count agree. -/
theorem State.Agree.pwm {s t : State} (h : s.Agree t) : s.pwm = { t.pwm with cnt := s.pwm.cnt } := by
  simp only [← h.fast, ← h.ninv, ← h.ps, ← h.cmp]

theorem Micro.apply_agree (m : Micro) {s t : State} (h : s.Agree t) : (m.apply s).Agree (m.apply t) := by
  obtain ⟨ha, hf, hn, hps, hcp, hp, hm, hc, hre, hco, htr, hrs, hcm, hai, hd, hpa⟩ := h
  have hs : ∀ src, sampleOf src s = sampleOf src t := by intro src; cases src <;> simp [sampleOf, hre]
  have ht : ∀ src, tempOf src s = tempOf src t := by intro src; cases src <;> simp [tempOf, hc]
  have hv : ∀ duty, s.compareValue duty = t.compareValue duty := by intro duty; simp [State.compareValue, hd]
  cases m <;> constructor <;>
    simp only [Micro.apply, State.emit, State.writeCmp, ha, hf, hn, hps, hcp, hp, hm, hc, hre, hco, htr, hrs, hcm, hai,
      hd, hpa, hs, ht, hv]

/-- In a calm state, plain micro-steps with gaps between them agree with the same micro-steps without. -/
theorem runFree_agree {ms : List Micro} {s t : State} (hms : ms.all Micro.plain = true) (hc : s.Calm)
    (h : s.Agree t) : (runFree ms s).Agree (replay ms t) ∧ (runFree ms s).Calm := by
  induction ms generalizing s t with
  | nil => exact ⟨h, hc⟩
  | cons m ms ih =>
    simp only [List.all_cons, Bool.and_eq_true] at hms
    have hd := State.convEnabled_of_idle hc.2
    refine ih hms.2 ⟨?_, ?_⟩ (Micro.apply_agree m ((State.gapStep_agree hc.1 hd).trans h))
    · simp [hc.1]
    · rw [Micro.apply_busy (Micro.plain_ne_trigger hms.1), State.gapStep_adc_of_disabled hd]
      exact hc.2

/-- Plain micro-steps in front of a run. -/
theorem runMicros_append {ms : List Micro} {s : State} (hms : ms.all Micro.plain = true) (hc : s.Calm)
    (rest : List Micro) : runMicros (ms ++ rest) s = runMicros rest (runFree ms s) := by
  induction ms generalizing s with
  | nil => rfl
  | cons m ms ih =>
    simp only [List.all_cons, Bool.and_eq_true] at hms
    rw [List.cons_append, runMicros_cons_of_write (State.rstNow_of_none hc.1) (Micro.plain_poll? hms.1)]
    refine ih hms.2 ⟨by simp [hc.1], ?_⟩
    rw [Micro.apply_busy (Micro.plain_ne_trigger hms.1), State.gapStep_adc_of_disabled (State.convEnabled_of_idle hc.2)]
    exact hc.2

/-- THE RUN OF A PLAIN OPERATION: in a calm state it ends, and agrees with its micro-steps executed alone. -/
theorem runMicros_plain {ms : List Micro} {s : State} (hms : ms.all Micro.plain = true) (hc : s.Calm) :
    (runMicros ms s).Agree (replay ms s) ∧ (runMicros ms s).Calm ∧ (runMicros ms s).pending = [] := by
  have e := runMicros_append hms hc []
  rw [List.append_nil] at e
  obtain ⟨ha, hcalm⟩ := runFree_agree hms hc (State.Agree.refl s)
  rw [e]
  exact ⟨⟨ha.1, ha.2, ha.3, ha.4, ha.5, ha.6, ha.7, ha.8, ha.9, ha.10, ha.11, ha.12, ha.13, ha.14, ha.15, ha.16⟩, hcalm, rfl⟩

/-- How many gaps a run uses up. -/
theorem runFree_gapAt (ms : List Micro) (s : State) (k : Nat) :
    (runFree ms s).gapAt k = s.gapAt (k + ms.length) := by
  induction ms generalizing s k with
  | nil => rfl
  | cons m ms ih =>
    show (runFree ms (m.apply s.gapStep)).gapAt k = _
    rw [ih, Micro.apply_gapAt, State.gapStep_gapAt, List.length_cons]
    rfl

/-! ## The look of a poll -/

@[simp] theorem pollLook_none_true : pollLook none true = .through := rfl
@[simp] theorem pollLook_none_false : pollLook none false = .again none := rfl
@[simp] theorem pollLook_zero (d : Bool) : pollLook (some 0) d = .timeout := rfl
@[simp] theorem pollLook_succ_true (n : Nat) : pollLook (some (n + 1)) true = .through := rfl
@[simp] theorem pollLook_one_false : pollLook (some 1) false = .timeout := rfl
@[simp] theorem pollLook_two_false (n : Nat) : pollLook (some (n + 2)) false = .again (some (n + 1)) := rfl

end Sys2Proof.Machine
end

