-- ==== Sys2Proof/Laws/Effects.lean ====
section
/-! SUPPORT. What each operation writes, said once: its micro-steps executed with nothing in between (`replay`), as one
update of the state. With `runMicros_plain` these say what an operation does in a calm state, without unfolding it. -/

namespace Sys2Proof.Machine

theorem replay_append (ms ns : List Micro) (s : State) : replay (ms ++ ns) s = replay ns (replay ms s) := by
  simp [replay, List.foldl_append]

theorem replay_cons (m : Micro) (ms : List Micro) (s : State) : replay (m :: ms) s = replay ms (m.apply s) := rfl

theorem replay_nil (s : State) : replay [] s = s := rfl

/-- An operation's own micro-steps, between its start and its return. -/
theorem replay_op (op : BitVec 8) (body : List Micro) (s : State) :
    replay (opMicros op body) s = (replay body (s.emit (.opStart op))).emit (.opReturn op) := by
  unfold opMicros
  rw [replay_append]
  rfl

/-- A prefix of plain micro-steps is plain. -/
theorem plain_take {ms : List Micro} (h : ms.all Micro.plain = true) (k : Nat) :
    (ms.take k).all Micro.plain = true := by
  rw [List.all_eq_true] at h ⊢
  exact fun m hm => h m (List.mem_of_mem_take hm)

theorem motRotateMicros_plain (dir : Direction) (speed : BitVec 8) :
    (motRotateMicros dir speed).all Micro.plain = true := by
  cases dir <;> rfl

theorem motStopMicros_plain : motStopMicros.all Micro.plain = true := rfl

/-- A duty within the contract is not drawn: its compare value is the ceiling (43_pwm.md R143). -/
theorem State.compareValue_of_contract {d : BitVec 8} (h : d.toNat ≤ 100) (s : State) :
    s.compareValue d = compareWord d := by
  simp [State.compareValue, dutyInContract, h]

/-- The counter of draws after `PWM_START`. -/
def State.drawsAfter (s : State) (duty : BitVec 8) : Nat := if dutyInContract duty then s.draws else s.draws + 1

theorem State.drawsAfter_of_contract {d : BitVec 8} (h : d.toNat ≤ 100) (s : State) : s.drawsAfter d = s.draws := by
  simp [State.drawsAfter, dutyInContract, h]

theorem replay_adcInit (refs : BitVec 2) (div : BitVec 3) (s : State) :
    replay (adcInitMicros refs div) s = { s with
      adc := { s.adc with refs := refs, div := div, en := true }
      trace := s.trace ++ [.opStart 0x01#8, .opReturn 0x01#8] } := by
  simp [adcInitMicros, replay_op, replay_cons, replay_nil, Micro.apply, State.emit]

theorem replay_adcShutdown (s : State) :
    replay adcShutdownMicros s = { s with
      adc := { s.adc with refs := 0#2, div := 0#3, en := false }
      trace := s.trace ++ [.opStart 0x03#8, .opReturn 0x03#8] } := by
  simp [adcShutdownMicros, replay_op, replay_cons, replay_nil, Micro.apply, State.emit]

theorem replay_tempConv (src : SampleSrc) (s : State) :
    replay (tempConvMicros src) s = { s with
      res := tempWord s.params (sampleOf src s)
      trace := s.trace ++ [.opStart 0x04#8, .opReturn 0x04#8] } := by
  cases src <;> simp [tempConvMicros, replay_op, replay_cons, replay_nil, Micro.apply, State.emit, sampleOf]

theorem replay_bandSel (src : TempSrc) (s : State) :
    replay (bandSelMicros src) s = { s with
      res := (bandTier (tempOf src s)).setWidth 16
      trace := s.trace ++ [.opStart 0x09#8, .opReturn 0x09#8] } := by
  cases src <;> simp [bandSelMicros, replay_op, replay_cons, replay_nil, Micro.apply, State.emit, tempOf]

theorem replay_pwmStart (duty : BitVec 8) (s : State) :
    replay (pwmStartMicros duty) s = { s with
      pwm := { fast := true, ninv := true, ps := s.params.pwmPsSel, cnt := 0#8, cmp := s.compareValue duty }
      pin := { s.pin with pwmOe := true }
      draws := s.drawsAfter duty
      trace := s.trace ++ pwmStartEvents (s.compareValue duty) } := by
  simp [pwmStartMicros, replay_op, replay_cons, replay_nil, Micro.apply, State.emit, State.writeCmp, State.drawsAfter,
    State.compareValue, pwmStartEvents]

theorem replay_pattern (dir : Direction) (s : State) :
    replay (patternMicros dir) s = { s with
      pin := { s.pin with in1 := dirBit dir, in2 := !dirBit dir }
      trace := s.trace ++ patternEvents dir } := by
  cases dir <;> simp [patternMicros, replay_cons, replay_nil, Micro.apply, patternEvents, dirBit]

theorem replay_stopped (s : State) :
    replay stoppedMicros s = { s with mot := { run := false, dir := .cw, speed := 0#8 } } := rfl

theorem replay_motInit (s : State) :
    replay motInitMicros s = { s with
      pin := { s.pin with in1Oe := true, in2Oe := true, in1 := false, in2 := false }
      mot := { run := false, dir := .cw, speed := 0#8 }
      trace := s.trace ++ motInitEvents } := by
  simp [motInitMicros, replay_op, replay_stopped, replay_cons, Micro.apply, State.emit, motInitEvents]

theorem replay_motRotate (dir : Direction) (speed : BitVec 8) (s : State) :
    replay (motRotateMicros dir speed) s = { s with
      pwm := { fast := true, ninv := true, ps := s.params.pwmPsSel, cnt := 0#8, cmp := s.compareValue speed }
      pin := { s.pin with in1 := dirBit dir, in2 := !dirBit dir, pwmOe := true }
      mot := { run := true, dir := dir, speed := speed }
      draws := s.drawsAfter speed
      trace := s.trace ++ motRotateEvents dir (s.compareValue speed) } := by
  simp only [motRotateMicros, replay_op, replay_append, replay_pattern, replay_pwmStart, replay_cons, replay_nil,
    Micro.apply, State.emit]
  simp [motRotateEvents, State.compareValue, State.drawsAfter]

theorem replay_motStop (s : State) :
    replay motStopMicros s = { s with
      pwm := { fast := true, ninv := true, ps := s.params.pwmPsSel, cnt := 0#8, cmp := 0#8 }
      pin := { s.pin with in1 := false, in2 := false, pwmOe := true }
      mot := { run := false, dir := .cw, speed := 0#8 }
      trace := s.trace ++ motStopEvents } := by
  have hv : ∀ t : State, t.compareValue 0#8 = 0#8 := fun _ => rfl
  have hd : ∀ t : State, t.drawsAfter 0#8 = t.draws := fun _ => rfl
  simp only [motStopMicros, replay_op, replay_append, replay_motRotate, replay_stopped, replay_cons, replay_nil,
    Micro.apply, State.emit, hv, hd]
  simp [motStopEvents]

end Sys2Proof.Machine
end

