-- ==== Sys2Proof/Laws/Step.lean ====
section
/-! SUPPORT. Reset inside a run, the read of the converter, and the two inductions over a step that claims about every
step need. Each says once what its operation can do. -/

namespace Sys2Proof.Machine

/-! ## A reset strikes, or shows nowhere -/

/-- A state with another moment of reset. -/
def State.withRst (s : State) (r : List Nat) : State := { s with env := { s.env with rst := r } }

@[simp] theorem State.withRst_adc (s : State) (r : List Nat) : (s.withRst r).adc = s.adc := rfl
@[simp] theorem State.withRst_pwm (s : State) (r : List Nat) : (s.withRst r).pwm = s.pwm := rfl
@[simp] theorem State.withRst_pin (s : State) (r : List Nat) : (s.withRst r).pin = s.pin := rfl
@[simp] theorem State.withRst_mot (s : State) (r : List Nat) : (s.withRst r).mot = s.mot := rfl
@[simp] theorem State.withRst_ctl (s : State) (r : List Nat) : (s.withRst r).ctl = s.ctl := rfl
@[simp] theorem State.withRst_res (s : State) (r : List Nat) : (s.withRst r).res = s.res := rfl
@[simp] theorem State.withRst_pending (s : State) (r : List Nat) : (s.withRst r).pending = s.pending := rfl
@[simp] theorem State.withRst_convs (s : State) (r : List Nat) : (s.withRst r).convs = s.convs := rfl
@[simp] theorem State.withRst_trace (s : State) (r : List Nat) : (s.withRst r).trace = s.trace := rfl
@[simp] theorem State.withRst_gapsUsed (s : State) (r : List Nat) : (s.withRst r).gapsUsed = s.gapsUsed := rfl
@[simp] theorem State.withRst_draws (s : State) (r : List Nat) : (s.withRst r).draws = s.draws := rfl
@[simp] theorem State.withRst_params (s : State) (r : List Nat) : (s.withRst r).params = s.params := rfl
@[simp] theorem State.withRst_env (s : State) (r : List Nat) : (s.withRst r).env = { s.env with rst := r } := rfl
@[simp] theorem State.withRst_withRst (s : State) (r q : List Nat) : (s.withRst r).withRst q = s.withRst q := rfl
@[simp] theorem State.withRst_self (s : State) : s.withRst s.env.rst = s := rfl

/-- A gap looks at `rst` only to count it down. -/
theorem State.gapStep_withRst (s : State) (r : List Nat) :
    (s.withRst r).gapStep = s.gapStep.withRst (rstNearer r) := by
  have hc : ∀ g, (s.withRst r).convMove g = (s.convMove g).withRst r := by
    intro g
    unfold State.convMove
    have : (s.withRst r).convEnabled = s.convEnabled := rfl
    rw [this]
    split <;> rfl
  have hg : (s.withRst r).gapAt 0 = s.gapAt 0 := rfl
  unfold State.gapStep
  rw [hg, hc]
  rfl

/-- A micro-step does not look at `rst`. -/
theorem Micro.apply_withRst (m : Micro) (s : State) (r : List Nat) : m.apply (s.withRst r) = (m.apply s).withRst r := by
  cases m <;> rfl

/-- A run of writes either is abandoned by a reset, or is the run without one. -/
theorem runWrites_reset_or_same (ms : List Micro) (s : State) :
    (∃ u : State, u.params = s.params ∧ s.env.rst ≠ [] ∧ runWrites ms s = u.applyReset) ∨
      (∃ r, (s.env.rst = [] → r = []) ∧ runWrites ms s = (runWrites ms (s.withRst [])).withRst r) := by
  induction ms generalizing s with
  | nil => exact .inr ⟨s.env.rst, id, rfl⟩
  | cons m ms ih =>
    by_cases hr : s.rstNow = true
    · refine .inl ⟨s, rfl, ?_, by simp [runWrites, gapThen, hr]⟩
      intro h; rw [State.rstNow_of_none h] at hr; simp at hr
    · have e : runWrites (m :: ms) s = runWrites ms (m.apply s.gapStep) := by simp [runWrites, gapThen, hr]
      have e' : runWrites (m :: ms) (s.withRst []) = runWrites ms ((m.apply s.gapStep).withRst []) := by
        simp [runWrites, gapThen, State.rstNow, State.gapStep_withRst, Micro.apply_withRst]
      rw [e, e']
      have hn : s.env.rst = [] → (m.apply s.gapStep).env.rst = [] := fun h => by simp [h]
      rcases ih (m.apply s.gapStep) with ⟨u, hu, hne, h⟩ | ⟨r, hrn, h⟩
      · exact .inl ⟨u, hu.trans (by simp), fun h0 => hne (hn h0), h⟩
      · exact .inr ⟨r, fun h0 => hrn (hn h0), h⟩

/-- A run either is abandoned by a reset, or is the run without one. -/
theorem runMicros_reset_or_same (ms : List Micro) (s : State) :
    (∃ u : State, u.params = s.params ∧ s.env.rst ≠ [] ∧ runMicros ms s = u.applyReset) ∨
      (∃ r, (s.env.rst = [] → r = []) ∧ runMicros ms s = (runMicros ms (s.withRst [])).withRst r) := by
  induction ms generalizing s with
  | nil => exact .inr ⟨s.env.rst, id, rfl⟩
  | cons m ms ih =>
    have hn : (s.withRst []).rstNow = false := State.rstNow_of_none rfl
    by_cases hr : s.rstNow = true
    · refine .inl ⟨s, rfl, ?_, runMicros_cons_of_rst hr m ms⟩
      intro h; rw [State.rstNow_of_none h] at hr; simp at hr
    · have hr' : s.rstNow = false := by simpa using hr
      have key : ∀ v w : State, w = v.withRst [] → v.params = s.params → v.env.rst = rstNearer s.env.rst →
          (∃ u : State, u.params = s.params ∧ s.env.rst ≠ [] ∧ runMicros ms v = u.applyReset) ∨
            (∃ r, (s.env.rst = [] → r = []) ∧ runMicros ms v = (runMicros ms w).withRst r) := by
        rintro v w rfl hp he
        rcases ih v with ⟨u, hu, hne, e⟩ | ⟨r, hrn, e⟩
        · refine .inl ⟨u, hu.trans hp, ?_, e⟩
          intro h; rw [he, h] at hne; simp at hne
        · exact .inr ⟨r, fun h => hrn (by rw [he, h]; rfl), e⟩
      have hgs : (s.withRst []).gapStep = s.gapStep.withRst [] := State.gapStep_withRst s []
      by_cases hm : ∃ looks, m = .adcPoll looks
      · obtain ⟨looks, rfl⟩ := hm
        rw [runMicros_cons_poll hr', runMicros_cons_poll hn, hgs]
        simp only [State.withRst_adc]
        cases pollLook looks s.gapStep.adc.done with
        | through => exact key s.gapStep _ rfl (by simp) (by simp)
        | again left => exact .inr ⟨s.gapStep.env.rst, by intro h; simp [h], rfl⟩
        | timeout =>
          rcases runWrites_reset_or_same timeoutMicros s.gapStep with ⟨u, hu, hne, h⟩ | ⟨r, hrn, h⟩
          · exact .inl ⟨u, hu.trans (by simp), fun h0 => hne (by simp [h0]), h⟩
          · exact .inr ⟨r, fun h0 => hrn (by simp [h0]), h⟩
      · have hp : m.poll? = none := by cases m <;> simp_all [Micro.poll?]
        rw [runMicros_cons_of_write hr' hp, runMicros_cons_of_write hn hp, hgs, Micro.apply_withRst]
        exact key (m.apply s.gapStep) _ rfl (by simp) (by simp)

/-- After `rst` every register is at its reset value. -/
theorem State.applyReset_atReset (s : State) : s.applyReset.AtReset := ⟨rfl, rfl, rfl, rfl, rfl, rfl, rfl, rfl⟩

/-! ## Inductions over a run and over a step -/

/-- What every gap, every micro-step, reset and a change of `pending` keep, every run of writes keeps. -/
theorem runWrites_keeps {P : State → Prop} (gap : ∀ s, P s → P s.gapStep) (micro : ∀ m s, P s → P (Micro.apply m s))
    (reset : ∀ s, P s → s.rstNow = true → P s.applyReset) (hold : ∀ s ms, P s → P { s with pending := ms })
    (ms : List Micro) (s : State) (h : P s) : P (runWrites ms s) := by
  induction ms generalizing s with
  | nil => exact hold _ _ h
  | cons m ms ih =>
    unfold runWrites gapThen
    split
    · rename_i hr; exact reset s h hr
    · exact ih _ (micro m _ (gap s h))

/-- What every gap, every micro-step, reset and a change of `pending` keep, every run keeps. -/
theorem runMicros_keeps {P : State → Prop} (gap : ∀ s, P s → P s.gapStep) (micro : ∀ m s, P s → P (Micro.apply m s))
    (reset : ∀ s, P s → s.rstNow = true → P s.applyReset) (hold : ∀ s ms, P s → P { s with pending := ms })
    (ms : List Micro) (s : State) (h : P s) : P (runMicros ms s) := by
  induction ms generalizing s with
  | nil => exact hold _ _ h
  | cons m ms ih =>
    by_cases hr : s.rstNow = true
    · rw [runMicros_cons_of_rst hr]; exact reset s h hr
    · have hr' : s.rstNow = false := by simpa using hr
      by_cases hm : ∃ looks, m = .adcPoll looks
      · obtain ⟨looks, rfl⟩ := hm
        rw [runMicros_cons_poll hr']
        split
        · exact ih _ (gap s h)
        · exact hold _ _ (gap s h)
        · exact runWrites_keeps gap micro reset hold _ _ (gap s h)
      · have hp : m.poll? = none := by cases m <;> simp_all [Micro.poll?]
        rw [runMicros_cons_of_write hr' hp]
        exact ih _ (micro m _ (gap s h))

/-- What every run keeps, one phase keeps. -/
theorem runPhase_keeps {P : State → Prop} (run : ∀ ms s, P s → P (runMicros ms s)) {p : Phase} {s t : State}
    (h : P s) (e : runPhase p s = .next t) : P t := by
  unfold runPhase at e
  split at e
  · cases e; exact run _ _ h
  · cases e

/-- What every run keeps, several phases keep. -/
theorem runPhases_keeps {P : State → Prop} (run : ∀ ms s, P s → P (runMicros ms s)) {n : Nat} {s t : State}
    (h : P s) (e : runPhases n s = .next t) : P t := by
  induction n generalizing s with
  | zero => cases e; exact h
  | succ n ih =>
    unfold runPhases at e
    split at e
    · cases e; exact h
    · split at e
      · rename_i hp
        exact ih (runPhase_keeps run h hp) e
      · cases e
      · cases e

/-- What every run keeps, every operation keeps. -/
theorem exec_keeps {P : State → Prop} (run : ∀ ms s, P s → P (runMicros ms s)) {i : Instr} {s t : State}
    (h : P s) (e : exec i s = .next t) : P t := by
  cases i with
  | ctlIter => exact runPhases_keeps run (run _ _ h) e
  | ctlRun => exact runPhases_keeps run (run _ _ h) e
  | nop => cases e; exact run _ _ h
  | adcInit refs div => cases e; exact run _ _ h
  | adcRead channel => cases e; exact run _ _ h
  | adcShutdown => cases e; exact run _ _ h
  | tempConv sample => cases e; exact run _ _ h
  | pwmStart duty => cases e; exact run _ _ h
  | motInit => cases e; exact run _ _ h
  | motRotate dir speed => cases e; exact run _ _ h
  | motStop => cases e; exact run _ _ h
  | bandSel temp => cases e; exact run _ _ h

/-- A step is a reset only where `rst` is asserted now. -/
theorem State.rstNow_of_reset {s : State} (h : s.action = .reset) : s.rstNow = true := by
  unfold State.action at h
  split at h
  · assumption
  · split at h
    · cases h
    · split at h
      · split at h
        · cases h
        · split at h
          · cases h
          · split at h <;> cases h
        · cases h
      · cases h

/-- What every gap, every micro-step, reset, a change of `pending` and the end of a presentation keep, every step
keeps. -/
theorem step_keeps {P : State → Prop} (gap : ∀ s, P s → P s.gapStep) (micro : ∀ m s, P s → P (Micro.apply m s))
    (reset : ∀ s, P s → s.rstNow = true → P s.applyReset) (hold : ∀ s ms, P s → P { s with pending := ms })
    (drop : ∀ s, P s → P s.dropPresented) {s t : State} (h : P s)
    (e : step s = .next t) : P t := by
  have run := runMicros_keeps gap micro reset hold
  unfold step at e
  split at e
  · rename_i ha
    cases e
    exact reset s.dropPresented (drop s h) (State.rstNow_of_reset (s := s) ha)
  · cases e; exact gap _ (drop s h)
  · cases e; exact run _ _ (drop s h)
  · exact runPhases_keeps run (run _ _ (drop s h)) e
  · unfold acceptWord at e
    split at e
    · exact exec_keeps run (drop s h) e
    · cases e; exact run _ _ (drop s h)
  · exact runPhase_keeps run (drop s h) e
  · cases e

/-! ## Micro-steps that spare the timer -/

/-- A micro-step that writes none of the timer's registers. -/
def Micro.sparesTimer (m : Micro) : Bool :=
  match m with
  | .pwmCntZero => false
  | .pwmFast => false
  | .pwmNinv => false
  | .pwmPs => false
  | .pwmCmp _ => false
  | _ => true

theorem State.PwmKept.trans' {s t u : State} (h : s.PwmKept t) (k : t.PwmKept u) : s.PwmKept u := by
  obtain ⟨h1, h2, h3, h4, h5⟩ := h
  obtain ⟨k1, k2, k3, k4, k5⟩ := k
  exact ⟨k1.trans h1, k2.trans h2, k3.trans h3, k4.trans h4, fun e => (k5 (h3.trans e)).trans (h5 e)⟩

theorem State.gapStep_pwmKept (s : State) : s.PwmKept s.gapStep :=
  ⟨by simp, by simp, by simp, by simp, fun e => by simp [State.tmrEnabled, e]⟩

theorem Micro.apply_pwm_of_spares {m : Micro} (hm : m.sparesTimer = true) (s : State) : (m.apply s).pwm = s.pwm := by
  cases m <;> first | rfl | simp [Micro.sparesTimer] at hm

/-- Without reset, a run of writes that spare the timer leaves its registers, but for the ticks of a running timer. -/
theorem runWrites_pwmKept {ms : List Micro} (hms : ms.all Micro.sparesTimer = true) {s : State}
    (hr : s.env.rst = []) : s.PwmKept (runWrites ms s) := by
  induction ms generalizing s with
  | nil => exact ⟨rfl, rfl, rfl, rfl, fun _ => rfl⟩
  | cons m ms ih =>
    simp only [List.all_cons, Bool.and_eq_true] at hms
    have e : runWrites (m :: ms) s = runWrites ms (m.apply s.gapStep) := by
      simp [runWrites, gapThen, State.rstNow_of_none hr]
    rw [e]
    refine s.gapStep_pwmKept.trans' (State.PwmKept.trans' ?_ (ih hms.2 (by simp [hr])))
    simp only [State.PwmKept, Micro.apply_pwm_of_spares hms.1]
    simp

/-- Without reset, a run of micro-steps that spare the timer leaves its registers, but for the ticks of a running
timer. -/
theorem runMicros_pwmKept {ms : List Micro} (hms : ms.all Micro.sparesTimer = true) {s : State}
    (hr : s.env.rst = []) : s.PwmKept (runMicros ms s) := by
  induction ms generalizing s with
  | nil => exact ⟨rfl, rfl, rfl, rfl, fun _ => rfl⟩
  | cons m ms ih =>
    simp only [List.all_cons, Bool.and_eq_true] at hms
    have hg := s.gapStep_pwmKept
    have hn : s.gapStep.env.rst = [] := by simp [hr]
    by_cases hm : ∃ looks, m = .adcPoll looks
    · obtain ⟨looks, rfl⟩ := hm
      rw [runMicros_cons_poll (State.rstNow_of_none hr)]
      split
      · exact hg.trans' (ih hms.2 hn)
      · exact hg
      · exact hg.trans' (runWrites_pwmKept rfl hn)
    · have hp : m.poll? = none := by cases m <;> simp_all [Micro.poll?]
      rw [runMicros_cons_of_write (State.rstNow_of_none hr) hp]
      refine hg.trans' (State.PwmKept.trans' ?_ (ih hms.2 (by simpa using hn)))
      simp only [State.PwmKept, Micro.apply_pwm_of_spares hms.1]
      simp

/-! ## The read of the converter -/

/-- The state of a calm read after its trigger, before the first look, agrees with the channel and BUSY written and
ConvStart recorded. -/
def readStarted (channel : Nat) (s : State) : State :=
  { s with
    adc := { s.adc with ch := chanTrunc s.params channel, busy := true }
    trace := s.trace ++ [.opStart 0x02#8, .convStart (chanTrunc s.params channel)] }

/-- A read in a calm state comes to its poll, three gaps later, with the channel selected and the conversion in flight. -/
theorem runMicros_adcRead {s : State} (hc : s.Calm) (bound : Option Nat) (channel : Nat) (rest : List Micro) :
    ∃ u : State, u.Agree (readStarted channel s) ∧ u.pwm.cnt = (runFree [.opStart 0x02#8, .adcCh channel, .adcTrigger] s).pwm.cnt ∧
      (∀ k, u.gapAt k = s.gapAt (k + 3)) ∧
      runMicros (adcReadMicros bound channel ++ rest) s = runMicros (.adcPoll bound :: afterPoll ++ rest) u := by
  let a := runFree [.opStart 0x02#8, .adcCh channel] s
  obtain ⟨ha, hac⟩ := runFree_agree (ms := [.opStart 0x02#8, .adcCh channel]) (s := s) (t := s) rfl hc (State.Agree.refl s)
  have hd := State.convEnabled_of_idle hac.2
  refine ⟨Micro.apply .adcTrigger a.gapStep, ?_, rfl, ?_, ?_⟩
  · have e := Micro.apply_agree .adcTrigger ((State.gapStep_agree hac.1 hd).trans ha)
    have : Micro.apply .adcTrigger (replay [.opStart 0x02#8, .adcCh channel] s) = readStarted channel s := by
      simp [replay, Micro.apply, readStarted, State.emit]
    rwa [this] at e
  · intro k
    rw [Micro.apply_gapAt, State.gapStep_gapAt, runFree_gapAt]
    rfl
  · have e : adcReadMicros bound channel ++ rest =
        [.opStart 0x02#8, .adcCh channel] ++ (.adcTrigger :: .adcPoll bound :: afterPoll ++ rest) := by
      simp [adcReadMicros, opMicros, afterPoll]
    rw [e, runMicros_append rfl hc]
    exact runMicros_cons_of_write (State.rstNow_of_none hac.1) rfl _

end Sys2Proof.Machine
end

