-- ==== Sys2Proof/Laws/Actuation.lean ====
section
/-! SUPPORT. Operations that do not take the converter's answer, in states where a conversion may still be in flight:
what they write does not depend on when CONV completes. -/

namespace Sys2Proof.Machine

/-- Two states that differ at most in the converter, its record, the timer's count, `pending` and the gaps used. -/
structure State.AgreeOutside (s t : State) : Prop where
  fast : s.pwm.fast = t.pwm.fast
  ninv : s.pwm.ninv = t.pwm.ninv
  ps : s.pwm.ps = t.pwm.ps
  cmp : s.pwm.cmp = t.pwm.cmp
  pin : s.pin = t.pin
  mot : s.mot = t.mot
  ctl : s.ctl = t.ctl
  res : s.res = t.res
  rst : s.env.rst = t.env.rst
  cmds : s.env.cmds = t.env.cmds
  ain : s.env.ain = t.env.ain
  draws : s.draws = t.draws
  params : s.params = t.params

theorem State.AgreeOutside.refl (s : State) : s.AgreeOutside s := by constructor <;> rfl

theorem State.AgreeOutside.trans {s t u : State} (h : s.AgreeOutside t) (k : t.AgreeOutside u) : s.AgreeOutside u where
  fast := h.fast.trans k.fast
  ninv := h.ninv.trans k.ninv
  ps := h.ps.trans k.ps
  cmp := h.cmp.trans k.cmp
  pin := h.pin.trans k.pin
  mot := h.mot.trans k.mot
  ctl := h.ctl.trans k.ctl
  res := h.res.trans k.res
  rst := h.rst.trans k.rst
  cmds := h.cmds.trans k.cmds
  ain := h.ain.trans k.ain
  draws := h.draws.trans k.draws
  params := h.params.trans k.params

/-- A gap without reset changes only what `AgreeOutside` leaves out. -/
theorem State.gapStep_agreeOutside {s : State} (hr : s.env.rst = []) : s.gapStep.AgreeOutside s := by
  constructor <;> simp [hr]

/-- A micro-step that neither looks at the completion flag nor takes the converter's data. -/
def Micro.blind (m : Micro) : Bool :=
  match m with
  | .adcPoll _ => false
  | .retSample => false
  | _ => true

theorem Micro.blind_poll? {m : Micro} (h : m.blind = true) : m.poll? = none := by
  cases m <;> simp_all [Micro.blind, Micro.poll?]

theorem Micro.apply_agreeOutside {m : Micro} (hm : m.blind = true) {s t : State} (h : s.AgreeOutside t) :
    (m.apply s).AgreeOutside (m.apply t) := by
  obtain ⟨hf, hn, hps, hcp, hp, hmo, hc, hre, hrs, hcm, hai, hd, hpa⟩ := h
  have hs : ∀ src, sampleOf src s = sampleOf src t := by intro src; cases src <;> simp [sampleOf, hre]
  have ht : ∀ src, tempOf src s = tempOf src t := by intro src; cases src <;> simp [tempOf, hc]
  have hv : ∀ duty, s.compareValue duty = t.compareValue duty := by intro duty; simp [State.compareValue, hd]
  cases m <;> first
    | exact (Bool.false_ne_true hm).elim
    | (constructor <;>
        simp only [Micro.apply, State.emit, State.writeCmp, hf, hn, hps, hcp, hp, hmo, hc, hre, hrs, hcm, hai, hd, hpa,
          hs, ht, hv])

/-- THE RUN OF A BLIND OPERATION without reset: it ends, and outside the converter it agrees with its micro-steps
executed alone. -/
theorem runMicros_blind {ms : List Micro} (hms : ms.all Micro.blind = true) {s t : State} (hr : s.env.rst = [])
    (h : s.AgreeOutside t) : (runMicros ms s).AgreeOutside (replay ms t) ∧ (runMicros ms s).pending = [] := by
  induction ms generalizing s t with
  | nil => exact ⟨⟨h.1, h.2, h.3, h.4, h.5, h.6, h.7, h.8, h.9, h.10, h.11, h.12, h.13⟩, rfl⟩
  | cons m ms ih =>
    simp only [List.all_cons, Bool.and_eq_true] at hms
    rw [runMicros_cons_of_write (State.rstNow_of_none hr) (Micro.blind_poll? hms.1)]
    exact ih hms.2 (by simp [hr]) (Micro.apply_agreeOutside hms.1 ((State.gapStep_agreeOutside hr).trans h))

/-- A blind operation with or without reset: it is abandoned by a reset, or it is as without one. -/
theorem runMicros_blind_or_reset {ms : List Micro} (hms : ms.all Micro.blind = true) (s : State) :
    (runMicros ms s).AtReset ∨
      (∃ r, (runMicros ms s).AgreeOutside ((replay ms (s.withRst [])).withRst r)) ∧ (runMicros ms s).pending = [] := by
  rcases runMicros_reset_or_same ms s with ⟨u, -, -, e⟩ | ⟨r, -, e⟩
  · exact .inl (e ▸ u.applyReset_atReset)
  · obtain ⟨ha, hp⟩ := runMicros_blind hms (s := s.withRst []) rfl (State.AgreeOutside.refl _)
    refine .inr ⟨⟨r, ?_⟩, by rw [e]; exact hp⟩
    rw [e]
    exact ⟨ha.1, ha.2, ha.3, ha.4, ha.5, ha.6, ha.7, ha.8, rfl, ha.10, ha.11, ha.12, ha.13⟩

/-! ## The phases -/

/-- Every phase but IT_SAMPLE is blind. -/
theorem phaseMicros_blind {p : Phase} {s : State} {ms : List Micro} (hp : p ≠ .itSample)
    (h : phaseMicros p s = .ok ms) : ms.all Micro.blind = true := by
  cases p with
  | itSample => exact absurd rfl hp
  | itAct =>
    simp only [phaseMicros] at h
    split at h
    · cases h
      unfold actMicros
      split <;> rfl
    · cases h
  | itDispFan =>
    cases h
    unfold iterEndMicros
    split <;> rfl
  | idle => cases h; rfl
  | bootAdc => cases h; rfl
  | bootMot => cases h; rfl
  | bootDisp => cases h; rfl
  | itDispTemp => cases h; rfl
  | itSelect => cases h; rfl

/-- HardwareTimeout ends in IDLE, a reset in the middle of it too. -/
theorem State.raiseTimeout_phase (s : State) : s.raiseTimeout.ctl.phase = Phase.idle.code := by
  simp only [State.raiseTimeout, timeoutMicros, runWrites, gapThen]
  split_ifs <;> first | rfl | simp [Micro.apply]

/-- A run that ends with the write of a phase ends in that phase, or is held before it, or is back in IDLE (by a reset or
a HardwareTimeout). -/
theorem runMicros_phase_end (ms : List Micro) (q : Phase) (s : State) :
    (runMicros (ms ++ [.ctlPhase q]) s).ctl.phase = q.code ∨ (runMicros (ms ++ [.ctlPhase q]) s).pending ≠ [] ∨
      (runMicros (ms ++ [.ctlPhase q]) s).ctl.phase = Phase.idle.code := by
  induction ms generalizing s with
  | nil =>
    by_cases hr : s.rstNow = true
    · rw [List.nil_append, runMicros_cons_of_rst hr]
      exact .inr (.inr rfl)
    · rw [List.nil_append, runMicros_cons_of_write (by simpa using hr) rfl]
      exact .inl rfl
  | cons m ms ih =>
    by_cases hr : s.rstNow = true
    · rw [List.cons_append, runMicros_cons_of_rst hr]
      exact .inr (.inr rfl)
    · have hr' : s.rstNow = false := by simpa using hr
      by_cases hm : ∃ looks, m = .adcPoll looks
      · obtain ⟨looks, rfl⟩ := hm
        rw [List.cons_append, runMicros_cons_poll hr']
        split
        · exact ih _
        · exact .inr (.inl (by simp))
        · exact .inr (.inr (State.raiseTimeout_phase _))
      · have hp : m.poll? = none := by cases m <;> simp_all [Micro.poll?]
        rw [List.cons_append, runMicros_cons_of_write hr' hp]
        exact ih _

/-- The phase that is executed next: SEQ is not held, and the phase is CTL.PHASE's, not IDLE. -/
theorem State.nextPhase_some {s : State} {p : Phase} (h : s.nextPhase = some p) :
    s.pending = [] ∧ s.ctl.phase = p.code ∧ p ≠ .idle := by
  have hc : ∀ (c : BitVec 4) (q : Phase), Phase.ofCode c = some q → c = q.code := by decide +revert
  unfold State.nextPhase at h
  split at h
  · rename_i hp
    split at h
    · cases h
    · rename_i hne
      exact ⟨by simpa using hp, hc _ _ h, fun e => hne (e ▸ h)⟩
  · cases h

/-- In the loop or an iteration, between operations, the next phase is CTL.PHASE's. -/
theorem State.nextPhase_of {s : State} {p : Phase} (hp : s.pending = []) (hc : s.ctl.phase = p.code) (hi : p ≠ .idle) :
    s.nextPhase = some p := by
  unfold State.nextPhase
  rw [hp, hc, Phase.ofCode_code]
  cases p <;> first | rfl | exact absurd rfl hi

/-- Several phases: the next one, then the others. -/
theorem runPhases_succ {n : Nat} {s : State} {p : Phase} (h : s.nextPhase = some p) {ms : List Micro}
    (hm : phaseMicros p s = .ok ms) : runPhases (n + 1) s = runPhases n (runMicros ms s) := by
  rw [runPhases, h]
  simp only [runPhase, hm]

/-- Several phases stop where none is next: SEQ is held, or back in IDLE. -/
theorem runPhases_stop {n : Nat} {s : State} (h : s.nextPhase = none) : runPhases n s = .next s := by
  cases n with
  | zero => rfl
  | succ n => rw [runPhases, h]

theorem State.nextPhase_of_held {s : State} (h : s.pending ≠ []) : s.nextPhase = none := by
  simp [State.nextPhase, h]

theorem State.nextPhase_of_idle {s : State} (h : s.ctl.phase = Phase.idle.code) : s.nextPhase = none := by
  unfold State.nextPhase
  rw [h, Phase.ofCode_code]
  split <;> rfl

/-- The tier code of a temperature, through RES, is one of the five (30_encoding.md R93). -/
theorem bandTier_le (temp : BitVec 16) : (bandTier temp).toNat ≤ 4 := by
  unfold bandTier
  split_ifs <;> decide

/-- The duty of a legal tier is 25 times its code, with no wrap (30_encoding.md R93). -/
theorem tierDuty_toNat {tier : BitVec 3} (h : tier.toNat ≤ 4) : (tierDuty tier).toNat = 25 * tier.toNat := by
  unfold tierDuty
  rw [BitVec.toNat_ofNat, Nat.mod_eq_of_lt]
  omega

@[simp] theorem setWidth_bandTier (temp : BitVec 16) : ((bandTier temp).setWidth 16).setWidth 3 = bandTier temp := by
  unfold bandTier
  split_ifs <;> rfl

end Sys2Proof.Machine
end

