-- ==== Sys2Proof/Laws/Core.lean ====
section
/-! SUPPORT. Runs of several steps, and what a step is in the states where its action is known. -/

namespace Sys2Proof.Machine

@[simp] theorem run_zero (s : State) : Host.Core.run Sys2Proof.core 0 s = .next s := rfl

/-- A run whose first step leads to a next state goes on from there. -/
theorem run_succ_of_next {s t : State} (h : step s = .next t) (k : Nat) :
    Host.Core.run Sys2Proof.core (k + 1) s = Host.Core.run Sys2Proof.core k t := by
  have h' : Sys2Proof.core.step s = .next t := h
  simp only [Host.Core.run, h']

/-- The step of a failed block without reset: one gap (60_exceptions.md R216). -/
theorem step_of_fault {s : State} (hf : s.ctl.fault = true) (hr : s.env.rst = []) :
    step s = .next s.dropPresented.gapStep := by
  have ha : s.action = .wait := by simp [State.action, State.rstNow_of_none hr, hf]
  unfold step
  rw [ha]
  rfl

/-- The step of a held operation without reset: the rest of it goes on. -/
theorem step_of_held {s : State} {m : Micro} {rest : List Micro} (h : s.pending = m :: rest)
    (hf : s.ctl.fault = false) (hr : s.env.rst = []) :
    step s = .next (runMicros (m :: rest) s.dropPresented) := by
  have ha : s.action = .resume := by simp [State.action, State.rstNow_of_none hr, hf, h]
  unfold step
  rw [ha]
  show Host.Outcome.next (runMicros s.pending s.dropPresented) = _
  rw [h]

/-- The step of the orchestrator between operations, in a phase other than IDLE. -/
theorem step_of_phase {s : State} {p : Phase} (hr : s.env.rst = []) (hf : s.ctl.fault = false) (h : s.pending = [])
    (hp : s.ctl.phase = p.code) (hi : p ≠ .idle) : step s = runPhase p s.dropPresented := by
  have ha : s.action = .phase p := by
    simp only [State.action, State.rstNow_of_none hr, hf, h, hp, Phase.ofCode_code]
    cases p <;> rfl
  unfold step
  rw [ha]

end Sys2Proof.Machine
end

