-- ==== Sys2Proof/Laws/Inside.lean ====
section
/-! SUPPORT. The states between two micro-steps: `runMicros` is `microStep` repeated; what `State.inside` is in a calm state;
the three writes of HardwareTimeout; the timer's count when TMR does not tick. -/

namespace Sys2Proof.Machine

/-! ## `pending` is looked at by nothing but the sequencer -/

theorem State.gapStep_setPending (s : State) (p : List Micro) :
    ({ s with pending := p } : State).gapStep = { s.gapStep with pending := p } := by
  have hc : ∀ g, ({ s with pending := p } : State).convMove g = { s.convMove g with pending := p } := by
    intro g
    unfold State.convMove
    rw [show ({ s with pending := p } : State).convEnabled = s.convEnabled from rfl]
    split <;> rfl
  unfold State.gapStep
  rw [show ({ s with pending := p } : State).gapAt 0 = s.gapAt 0 from rfl, hc]
  rfl

theorem Micro.apply_setPending (m : Micro) (s : State) (p : List Micro) :
    m.apply { s with pending := p } = { m.apply s with pending := p } := by cases m <;> rfl

/-! ## One micro-step at a time -/

/-- Between operations nothing is executed. -/
theorem microStep_of_idle {s : State} (h : s.pending = []) : microStep s = s := by simp [microStep, h]

theorem microStep_iterate_of_idle {s : State} (h : s.pending = []) (n : Nat) : microStep^[n] s = s := by
  induction n with
  | zero => rfl
  | succ n ih => rw [Function.iterate_succ_apply, microStep_of_idle h, ih]

/-- Reset wins before any micro-step. -/
theorem microStep_of_rst {s : State} {m : Micro} {ms : List Micro} (h : s.rstNow = true) :
    microStep { s with pending := m :: ms } = s.applyReset := by
  show gapThen _ _ = _
  rw [gapThen, if_pos (show ({ s with pending := m :: ms } : State).rstNow = true from h)]
  rfl

/-- Without reset: the gap, then the micro-step's effect. -/
theorem microStep_of_not_rst {s : State} {m : Micro} {ms : List Micro} (h : s.rstNow = false) :
    microStep { s with pending := m :: ms } = microEffect m ms s.gapStep := by
  show gapThen _ _ = _
  rw [gapThen, if_neg (by simpa using (show ({ s with pending := m :: ms } : State).rstNow = false from h)),
    State.gapStep_setPending]
  unfold microEffect
  rw [show m.look ({ s.gapStep with pending := m :: ms } : State) = m.look s.gapStep from rfl]
  split <;> first | rfl | (rw [Micro.apply_setPending])

theorem microEffect_of_write {m : Micro} (hm : m.poll? = none) (ms : List Micro) (s : State) :
    microEffect m ms s = { m.apply s with pending := ms } := by simp [microEffect, Micro.look_of_write hm]

/-- A run of writes is as many micro-steps as it has writes. -/
theorem runWrites_eq_microStep {ms : List Micro} (hms : ∀ m ∈ ms, m.poll? = none) (s : State) :
    runWrites ms s = microStep^[ms.length] { s with pending := ms } := by
  induction ms generalizing s with
  | nil => rfl
  | cons m ms ih =>
    have hm := hms m (List.mem_cons_self ..)
    rw [List.length_cons, Function.iterate_succ_apply]
    by_cases hr : s.rstNow = true
    · rw [microStep_of_rst hr, microStep_iterate_of_idle (State.applyReset_pending s)]
      simp [runWrites, gapThen, hr]
    · have hr' : s.rstNow = false := by simpa using hr
      rw [microStep_of_not_rst hr', microEffect_of_write hm,
        ← ih (fun n hn => hms n (List.mem_cons_of_mem m hn))]
      simp [runWrites, gapThen, hr']

/-- A RUN OF MICRO-STEPS IS `microStep` REPEATED: what one step of the machine executes at once is the same micro-steps one
after the other. -/
theorem runMicros_eq_microStep (ms : List Micro) (s : State) :
    ∃ n, runMicros ms s = microStep^[n] { s with pending := ms } := by
  induction ms generalizing s with
  | nil => exact ⟨0, rfl⟩
  | cons m ms ih =>
    by_cases hr : s.rstNow = true
    · exact ⟨1, by rw [runMicros_cons_of_rst hr]; exact (microStep_of_rst hr).symm⟩
    · have hr' : s.rstNow = false := by simpa using hr
      have e : runMicros (m :: ms) s = match m.look s.gapStep with
          | .through => runMicros ms (m.apply s.gapStep)
          | .again left => { s.gapStep with pending := .adcPoll left :: ms }
          | .timeout => s.gapStep.raiseTimeout := by
        show gapThen _ s = _
        exact if_neg hr
      have h1 := microStep_of_not_rst (m := m) (ms := ms) hr'
      unfold microEffect at h1
      rw [e]
      cases hl : m.look s.gapStep with
      | through =>
        rw [hl] at h1
        obtain ⟨n, hn⟩ := ih (m.apply s.gapStep)
        exact ⟨n + 1, by rw [Function.iterate_succ_apply, h1]; exact hn⟩
      | again left => rw [hl] at h1; exact ⟨1, h1.symm⟩
      | timeout =>
        rw [hl] at h1
        exact ⟨4, by
          rw [Function.iterate_succ_apply, h1]
          exact runWrites_eq_microStep (by decide) _⟩

/-- Inside an operation without a poll and without reset, what is left to execute is what has not been executed. -/
theorem State.inside_pending {ms : List Micro} (hms : ∀ m ∈ ms, m.poll? = none) {s : State} (hr : s.env.rst = [])
    (k : Nat) : (s.inside ms k).pending = ms.drop k := by
  induction k generalizing ms s with
  | zero => rfl
  | succ k ih =>
    cases ms with
    | nil =>
      unfold State.inside
      rw [microStep_iterate_of_idle (s := { s with pending := [] }) rfl]
      rfl
    | cons m ms =>
      unfold State.inside
      rw [Function.iterate_succ_apply, microStep_of_not_rst (State.rstNow_of_none hr),
        microEffect_of_write (hms m (List.mem_cons_self ..))]
      exact ih (s := m.apply s.gapStep) (fun n hn => hms n (List.mem_cons_of_mem m hn)) (by simp [hr])

/-- INSIDE A PLAIN OPERATION in a calm state: after `k` micro-steps the state agrees with those `k` executed alone. -/
theorem State.inside_agree {ms : List Micro} (hms : ms.all Micro.plain = true) {s t : State} (hc : s.Calm)
    (h : s.Agree t) (k : Nat) : (s.inside ms k).Agree (replay (ms.take k) t) := by
  induction k generalizing ms s t with
  | zero => exact ⟨h.1, h.2, h.3, h.4, h.5, h.6, h.7, h.8, h.9, h.10, h.11, h.12, h.13, h.14, h.15, h.16⟩
  | succ k ih =>
    cases ms with
    | nil =>
      unfold State.inside
      rw [microStep_iterate_of_idle (s := { s with pending := [] }) rfl]
      exact ⟨h.1, h.2, h.3, h.4, h.5, h.6, h.7, h.8, h.9, h.10, h.11, h.12, h.13, h.14, h.15, h.16⟩
    | cons m ms =>
      simp only [List.all_cons, Bool.and_eq_true] at hms
      have hd := State.convEnabled_of_idle hc.2
      unfold State.inside
      rw [Function.iterate_succ_apply, microStep_of_not_rst (State.rstNow_of_none hc.1),
        microEffect_of_write (Micro.plain_poll? hms.1)]
      refine ih (s := m.apply s.gapStep) hms.2 ⟨by simp [hc.1], ?_⟩
        (Micro.apply_agree m ((State.gapStep_agree hc.1 hd).trans h))
      rw [Micro.apply_busy (Micro.plain_ne_trigger hms.1), State.gapStep_adc_of_disabled hd]
      exact hc.2

/-! ## HardwareTimeout -/

/-- WHAT HARDWARETIMEOUT DOES without reset (60_exceptions.md R216): FAULT, PHASE and LOOP; nothing else outside the
converter, which CONV may still complete. -/
theorem State.raiseTimeout_agreeOutside {s : State} (hr : s.env.rst = []) :
    s.raiseTimeout.AgreeOutside
        { s with ctl := { s.ctl with fault := true, phase := Phase.idle.code, loop := false } } ∧
      s.raiseTimeout.pending = [] := by
  rw [State.raiseTimeout_eq]
  exact runMicros_blind rfl hr (State.AgreeOutside.refl s)

/-! ## The timer's count while TMR does not tick -/

theorem Micro.apply_cnt {m : Micro} {s t : State} (h : s.pwm.cnt = t.pwm.cnt) :
    (m.apply s).pwm.cnt = (m.apply t).pwm.cnt := by
  cases m <;> first | exact h | rfl

theorem replay_cnt {ms : List Micro} {s t : State} (h : s.pwm.cnt = t.pwm.cnt) :
    (replay ms s).pwm.cnt = (replay ms t).pwm.cnt := by
  induction ms generalizing s t with
  | nil => exact h
  | cons m ms ih => exact ih (Micro.apply_cnt h)

theorem State.gapStep_cnt_of_still {s : State} (h : (s.gapAt 0).ticks = 0) : s.gapStep.pwm.cnt = s.pwm.cnt := by
  simp [h]

/-- If TMR ticks in none of the gaps of a run of writes without reset, the count is what the writes alone leave. -/
theorem runMicros_cnt_of_still {ms : List Micro} (hms : ∀ m ∈ ms, m.poll? = none) {s : State} (hr : s.env.rst = [])
    (ht : ∀ k, k < ms.length → (s.gapAt k).ticks = 0) : (runMicros ms s).pwm.cnt = (replay ms s).pwm.cnt := by
  induction ms generalizing s with
  | nil => rfl
  | cons m ms ih =>
    rw [runMicros_cons_of_write (State.rstNow_of_none hr) (hms m (List.mem_cons_self ..)),
      ih (fun n hn => hms n (List.mem_cons_of_mem m hn)) (by simp [hr])
        (fun k hk => by simpa using ht (k + 1) (by simpa using hk))]
    exact replay_cnt (Micro.apply_cnt (State.gapStep_cnt_of_still (ht 0 (by simp))))

/-- The same where only the gaps from the `j`-th on are known not to tick: the count is what the writes from there leave,
from the state inside after `j` micro-steps. -/
theorem runMicros_cnt_from {ms : List Micro} (hms : ∀ m ∈ ms, m.poll? = none) {s : State} (hr : s.env.rst = [])
    (j : Nat) (ht : ∀ k, j ≤ k → k < ms.length → (s.gapAt k).ticks = 0) :
    (runMicros ms s).pwm.cnt = (replay (ms.drop j) (s.inside ms j)).pwm.cnt := by
  induction j generalizing ms s with
  | zero =>
    rw [runMicros_cnt_of_still hms hr (fun k hk => ht k (Nat.zero_le _) hk)]
    exact replay_cnt rfl
  | succ j ih =>
    cases ms with
    | nil =>
      unfold State.inside
      rw [microStep_iterate_of_idle (s := { s with pending := [] }) rfl]
      rfl
    | cons m ms =>
      have hm := hms m (List.mem_cons_self ..)
      rw [runMicros_cons_of_write (State.rstNow_of_none hr) hm,
        ih (fun n hn => hms n (List.mem_cons_of_mem m hn)) (by simp [hr])
          (fun k hk hl => by simpa using ht (k + 1) (by omega) (by simpa using hl))]
      unfold State.inside
      rw [Function.iterate_succ_apply, microStep_of_not_rst (State.rstNow_of_none hr), microEffect_of_write hm]
      rfl

end Sys2Proof.Machine
end

