-- ==== Sys2Proof/Laws/PerInstr.lean ====
section
/-! SUPPORT. The family OpCode: what the assembled word of each operation carries in its OP field (30_encoding.md R84,
R88), one lemma per operation. -/

namespace Sys2Proof.Laws

/-- The value of a word made of its three fields (30_encoding.md R80). -/
theorem toNat_fields (a b : BitVec 8) (c : BitVec 16) :
    (a ++ b ++ c).toNat = a.toNat * 2 ^ 24 + b.toNat * 2 ^ 16 + c.toNat := by
  have ha := a.isLt
  have hb := b.isLt
  have hc := c.isLt
  simp only [BitVec.toNat_append]
  rw [← Nat.shiftLeft_add_eq_or_of_lt (by omega), ← Nat.shiftLeft_add_eq_or_of_lt (by omega)]
  simp only [Nat.shiftLeft_eq]
  omega

/-- The fields of a word put together from three fields are those three. -/
theorem fields_append (a b : BitVec 8) (c : BitVec 16) :
    opField (a ++ b ++ c) = a ∧ aField (a ++ b ++ c) = b ∧ bField (a ++ b ++ c) = c := by
  have ha := a.isLt
  have hb := b.isLt
  have hc := c.isLt
  refine ⟨?_, ?_, ?_⟩ <;>
    (apply BitVec.eq_of_toNat_eq
     simp only [opField, aField, bField, BitVec.extractLsb'_toNat, toNat_fields, Nat.shiftRight_eq_div_pow]
     omega)

/-- The OP field of the assembled word is the operation's code, one of `0x00` to `0x0B`. -/
def OpCode.Statement (i : Instr) : Prop := opField (encode i) = i.op ∧ i.op.toNat ≤ 0x0B

theorem OpCode.of_le {i : Instr} (h : i.op.toNat ≤ 0x0B) : OpCode.Statement i :=
  ⟨(fields_append i.op i.fieldA i.fieldB).1, h⟩

theorem OpCode.nop : OpCode.Statement .nop := OpCode.of_le (by decide)

theorem OpCode.adcInit (refs : BitVec 2) (div : BitVec 3) : OpCode.Statement (.adcInit refs div) :=
  OpCode.of_le (show (0x01#8).toNat ≤ 0x0B by decide)

theorem OpCode.adcRead (channel : BitVec 16) : OpCode.Statement (.adcRead channel) :=
  OpCode.of_le (show (0x02#8).toNat ≤ 0x0B by decide)

theorem OpCode.adcShutdown : OpCode.Statement .adcShutdown := OpCode.of_le (by decide)

theorem OpCode.tempConv (sample : BitVec 10) : OpCode.Statement (.tempConv sample) :=
  OpCode.of_le (show (0x04#8).toNat ≤ 0x0B by decide)

theorem OpCode.pwmStart (duty : BitVec 8) : OpCode.Statement (.pwmStart duty) :=
  OpCode.of_le (show (0x05#8).toNat ≤ 0x0B by decide)

theorem OpCode.motInit : OpCode.Statement .motInit := OpCode.of_le (by decide)

theorem OpCode.motRotate (dir : Direction) (speed : BitVec 8) : OpCode.Statement (.motRotate dir speed) :=
  OpCode.of_le (show (0x07#8).toNat ≤ 0x0B by decide)

theorem OpCode.motStop : OpCode.Statement .motStop := OpCode.of_le (by decide)

theorem OpCode.bandSel (temp : BitVec 16) : OpCode.Statement (.bandSel temp) :=
  OpCode.of_le (show (0x09#8).toNat ≤ 0x0B by decide)

theorem OpCode.ctlIter : OpCode.Statement .ctlIter := OpCode.of_le (by decide)

theorem OpCode.ctlRun : OpCode.Statement .ctlRun := OpCode.of_le (by decide)

end Sys2Proof.Laws
end

