-- ==== Sys2Proof/Laws/Read.lean ====
section
/-! SUPPORT. The two outcomes of a read of the converter from a calm state under the normative poll: answered before its
first look, or held at its poll. -/

namespace Sys2Proof.Machine

theorem pollLook_true {looks : Option Nat} (h : looks ≠ some 0) : pollLook looks true = .through := by
  cases looks with
  | none => rfl
  | some n =>
    cases n with
    | zero => exact absurd rfl h
    | succ n => rfl

/-- What CONV leaves alone in a gap, whatever it does. -/
theorem State.gapStep_adc_ch (s : State) : s.gapStep.adc.ch = s.adc.ch := by
  rcases s.gapStep_conv with ⟨-, -, ga, -⟩ | ⟨-, ga, -⟩ <;> rw [ga]
  rfl

/-- The state after an answered read, with nothing else happening: the channel selected, the answer latched and returned,
both flags clear. -/
def sampled (channel : Nat) (s : State) : State :=
  let ch := chanTrunc s.params channel
  let v := s.ainAt ch s.convs
  { s with
    adc := { s.adc with ch := ch, data := v, busy := false, done := false }
    convs := s.convs + 1
    res := v.setWidth 16
    trace := s.trace ++ [.opStart 0x02#8, .convStart ch, .convDone v, .opReturn 0x02#8] }

/-- AN ANSWERED READ in a calm state, with plain micro-steps behind it. -/
theorem runMicros_adcRead_answered {s : State} (hc : s.Calm) (hcan : s.canConvert = true) {bound : Option Nat}
    (hb : bound ≠ some 0) (hg : (s.gapAt 3).complete = true) (channel : Nat) {rest : List Micro}
    (hrest : rest.all Micro.plain = true) :
    (runMicros (adcReadMicros bound channel ++ rest) s).Agree (replay rest (sampled channel s)) ∧
      (runMicros (adcReadMicros bound channel ++ rest) s).Calm ∧
      (runMicros (adcReadMicros bound channel ++ rest) s).pending = [] := by
  obtain ⟨u, hu, -, hgap, e⟩ := runMicros_adcRead hc bound channel rest
  have hr : u.env.rst = [] := hu.rst.trans hc.1
  have hadc : u.adc = { s.adc with ch := chanTrunc s.params channel, busy := true } := hu.adc
  have hen : u.convEnabled = true := by
    simp only [State.convEnabled, hadc]
    simpa [State.canConvert] using hcan
  have hv : u.sampleNow = s.ainAt (chanTrunc s.params channel) s.convs := by
    simp only [State.sampleNow, State.ainAt, hu.ain, hu.adc, hu.convs]
    rfl
  rcases u.gapStep_conv with ⟨-, -, ga, gc, gt⟩ | ⟨hx, -⟩
  swap
  · rw [hen, hgap 0] at hx
    simp [hg] at hx
  rw [List.cons_append, runMicros_cons_poll (State.rstNow_of_none hr), ga,
    show u.convComplete.adc.done = true from rfl, pollLook_true hb] at e
  simp only at e
  have hcalm : u.gapStep.Calm := ⟨by simp [hr], by rw [ga]; rfl⟩
  have hms : (afterPoll ++ rest).all Micro.plain = true := by rw [List.all_append, hrest]; rfl
  obtain ⟨ha, hk, hp⟩ := runMicros_plain hms hcalm
  have hst : (Micro.opReturn 0x02#8 |>.apply (Micro.retSample.apply (Micro.adcClearDone.apply u.gapStep))).Agree
      (sampled channel s) := by
    constructor <;>
      simp only [Micro.apply, State.emit, sampled, ga, gc, gt, State.convComplete, hv, hadc, State.gapStep_pwm_fast,
        State.gapStep_pwm_ninv, State.gapStep_pwm_ps, State.gapStep_pwm_cmp, State.gapStep_pin, State.gapStep_mot,
        State.gapStep_ctl, State.gapStep_draws, State.gapStep_params, State.gapStep_env, hr, rstNearer_nil]
    · exact hu.fast
    · exact hu.ninv
    · exact hu.ps
    · exact hu.cmp
    · exact hu.pin
    · exact hu.mot
    · exact hu.ctl
    · rw [hu.convs]; rfl
    · rw [hu.trace]; simp [readStarted]
    · exact hc.1.symm
    · exact hu.cmds
    · exact hu.ain
    · exact hu.draws
    · exact hu.params
  have hrep : ∀ (ms : List Micro) (x y : State), x.Agree y → (replay ms x).Agree (replay ms y) := by
    intro ms
    induction ms with
    | nil => exact fun _ _ h => h
    | cons m ms ih => exact fun _ _ h => ih _ _ (Micro.apply_agree m h)
  rw [e]
  exact ⟨ha.trans (hrep rest _ _ hst), hk, hp⟩

/-- AN UNANSWERED READ in a calm state: the channel and BUSY written, ConvStart recorded, SEQ held at the poll. -/
theorem runMicros_adcRead_held {s : State} (hc : s.Calm) (hd : s.adc.done = false)
    (hx : s.canConvert = false ∨ (s.gapAt 3).complete = false) (channel : Nat) (rest : List Micro) :
    (runMicros (adcReadMicros none channel ++ rest) s).Agree (readStarted channel s) ∧
      (runMicros (adcReadMicros none channel ++ rest) s).pending = .adcPoll none :: (afterPoll ++ rest) := by
  obtain ⟨u, hu, -, hgap, e⟩ := runMicros_adcRead hc none channel rest
  have hr : u.env.rst = [] := hu.rst.trans hc.1
  have hadc : u.adc = { s.adc with ch := chanTrunc s.params channel, busy := true } := hu.adc
  rcases u.gapStep_conv with ⟨hen, hg, -⟩ | ⟨-, ga, gc, gt⟩
  · exfalso
    rw [hgap] at hg
    simp only [State.convEnabled, hadc] at hen
    rcases hx with hx | hx
    · simp [State.canConvert] at hen hx
      exact absurd (hx hen.1) hen.2
    · simp [hg] at hx
  rw [List.cons_append, runMicros_cons_poll (State.rstNow_of_none hr), ga, hadc] at e
  simp only [hd, pollLook_none_false] at e
  rw [e]
  refine ⟨?_, rfl⟩
  constructor <;> simp only [ga, gc, gt, State.gapStep_pwm_fast, State.gapStep_pwm_ninv, State.gapStep_pwm_ps,
    State.gapStep_pwm_cmp, State.gapStep_pin, State.gapStep_mot, State.gapStep_ctl, State.gapStep_draws,
    State.gapStep_params, State.gapStep_env, State.gapStep_res, hr, rstNearer_nil]
  · exact hu.adc
  · exact hu.fast
  · exact hu.ninv
  · exact hu.ps
  · exact hu.cmp
  · exact hu.pin
  · exact hu.mot
  · exact hu.ctl
  · exact hu.res
  · exact hu.convs
  · exact hu.trace
  · exact hc.1.symm
  · exact hu.cmds
  · exact hu.ain
  · exact hu.draws
  · exact hu.params

end Sys2Proof.Machine
end

