-- ==== Sys2Proof/Tests/Slice0.lean ====
section
/-! SUPPORT. The model's own tests. Expected values are those of spec/95_test_vectors.md (vectors V, programs P) or of the
rule named beside a test. The last section shows, for every obligation with hypotheses, states that meet them. -/

namespace Sys2Proof.Tests

open Sys2Proof Sys2Proof.Machine

/-! ## Well-formedness: each check refuses an ill-formed term -/

theorem test_wf_zero_divisor_refused : (Instr.adcInit 3#2 0#3).wellFormed = false := by decide
theorem test_wf_pwm_duty_101_refused : (Instr.pwmStart 101#8).wellFormed = false := by decide
theorem test_wf_rotate_speed_101_refused : (Instr.motRotate .cw 101#8).wellFormed = false := by decide
theorem test_wf_defaults_accepted : Config.defaults.wellFormed = true := by decide

theorem test_wf_params_refused :
    ({ Config.defaults with chBits := 0 } : Params).wellFormed = false ∧
    ({ Config.defaults with chBits := 9 } : Params).wellFormed = false ∧
    ({ Config.defaults with divSel := 0#3 } : Params).wellFormed = false ∧
    ({ Config.defaults with pwmPsSel := 0#3 } : Params).wellFormed = false ∧
    ({ Config.defaults with vrefMv := 655360, refVoltageMv := ⟨0, 0, 0, 655360⟩ } : Params).wellFormed = false ∧
    ({ Config.defaults with refsSel := 2#2 } : Params).wellFormed = false := by decide

/-! ## Decoding: one word per operation, written out from the fields of R80, R83 and R84; unused bits set -/

theorem test_decode_nop : decodeWord (0b00000000#8 ++ 0b11111111#8 ++ 0b1111111111111111#16) = .ok .nop := by decide
theorem test_decode_adc_init :
    decodeWord (0b00000001#8 ++ 0b11111110#8 ++ 0b1111111111111011#16) = .ok (.adcInit 2#2 3#3) := by decide
theorem test_decode_adc_read :
    decodeWord (0b00000010#8 ++ 0b11111111#8 ++ 0b1000000000000010#16) = .ok (.adcRead 32770#16) := by decide
theorem test_decode_adc_shutdown :
    decodeWord (0b00000011#8 ++ 0b10101010#8 ++ 0b1010101010101010#16) = .ok .adcShutdown := by decide
theorem test_decode_temp_conv :
    decodeWord (0b00000100#8 ++ 0b11111111#8 ++ 0b1111111000000001#16) = .ok (.tempConv 513#10) := by decide
theorem test_decode_pwm_start :
    decodeWord (0b00000101#8 ++ 0b11111111#8 ++ 0b1111111110000001#16) = .ok (.pwmStart 129#8) := by decide
theorem test_decode_mot_init :
    decodeWord (0b00000110#8 ++ 0b00000001#8 ++ 0b0000000000000001#16) = .ok .motInit := by decide
theorem test_decode_mot_rotate :
    decodeWord (0b00000111#8 ++ 0b11111110#8 ++ 0b1111111101100100#16) = .ok (.motRotate .cw 100#8) ∧
    decodeWord (0b00000111#8 ++ 0b00000001#8 ++ 0b0000000010000000#16) = .ok (.motRotate .ccw 128#8) := by decide
theorem test_decode_mot_stop :
    decodeWord (0b00001000#8 ++ 0b11111111#8 ++ 0b1111111111111111#16) = .ok .motStop := by decide
theorem test_decode_band_sel :
    decodeWord (0b00001001#8 ++ 0b11111111#8 ++ 0b1000000000000001#16) = .ok (.bandSel 32769#16) := by decide
theorem test_decode_ctl_iter :
    decodeWord (0b00001010#8 ++ 0b11111111#8 ++ 0b1111111111111111#16) = .ok .ctlIter := by decide
theorem test_decode_ctl_run :
    decodeWord (0b00001011#8 ++ 0b11111111#8 ++ 0b1111111111111111#16) = .ok .ctlRun := by decide

/-- Byte lanes carry the least significant byte first (20_memory.md R62): `ADC_READ 266` is `0x0200010A`. -/
theorem test_decode_bytes :
    decodeBytes [0x0A#8, 0x01#8, 0x00#8, 0x02#8, 0x77#8] = .ok (.adcRead 266#16, [0x77#8]) ∧
    encodeBytes (.adcRead 266#16) = [0x0A#8, 0x01#8, 0x00#8, 0x02#8] ∧
    decodeBytes [0x0A#8, 0x01#8, 0x00#8] = .error .truncated := by decide

/-- An operation in assembler syntax (30_encoding.md R88). -/
theorem test_asm : (Instr.motRotate .ccw 50#8).asm = "MOT_ROTATE CCW, 50" := by decide

/-! ## Small states -/

/-- A block after reset with AUTORUN = 0 and a responsive converter: in every gap given, CONV completes if it can, and TMR
does not tick. -/
def ready : State :=
  { State.reset with
    params := { Config.defaults with autorun := false }
    env := { State.reset.env with gaps := List.replicate 60 ⟨0, true⟩ } }

/-- The same with a converter that answers nothing. -/
def mute : State := { ready with env := { ready.env with gaps := List.replicate 60 ⟨0, false⟩ } }

/-- After `ADC_INIT 3, 3`; channel 2 answers `v` to the first conversion. -/
def configured (v : BitVec 10) : State :=
  { ready with
    adc := { ready.adc with en := true, refs := 3#2, div := 3#3 }
    env := { ready.env with ain := [⟨2#8, 0, v⟩] } }

/-- `configured` after `MOT_INIT`. -/
def prepared (v : BitVec 10) : State :=
  { configured v with pin := { ready.pin with in1Oe := true, in2Oe := true } }

/-- After `MOT_INIT; MOT_ROTATE CCW, 50` (P2). -/
def running : State :=
  { ready with
    pwm := { fast := true, ninv := true, ps := 2#3, cnt := 0#8, cmp := 128#8 }
    pin := { in1Oe := true, in2Oe := true, pwmOe := true, in1 := true, in2 := false }
    mot := { run := true, dir := .ccw, speed := 50#8 } }

/-- The orchestrator in its loop, about to sample, with its converter mute. -/
def looping : State :=
  { mute with
    adc := { ready.adc with en := true, refs := 3#2, div := 3#3 }
    pin := { ready.pin with in1Oe := true, in2Oe := true }
    ctl := { ready.ctl with loop := true, phase := Phase.itSample.code } }

/-- SEQ held at the poll of a read on a converter that can convert. -/
def held : State :=
  { mute with
    adc := { ready.adc with en := true, div := 3#3, ch := 2#8, busy := true }
    pending := .adcPoll none :: afterPoll }

/-- `running` after `MOT_STOP`, with a word presented. -/
def stopped (w : CmdWord) : State :=
  { ready with
    pwm := { running.pwm with cmp := 0#8 }
    pin := { running.pin with in1 := false }
    trace := .reset :: motStopEvents
    env := { ready.env with cmds := [some w] } }

/-- A block that has failed (60_exceptions.md R216). -/
def failedBlock : State :=
  { mute with
    params := { mute.params with pollBound := some 3 }
    adc := { ready.adc with busy := true }
    ctl := { ready.ctl with fault := true } }

/-- What is seen of the next state. -/
def seen {α : Type} (f : State → α) : Host.Outcome State Fault Refusal → Option α
  | .next t => some (f t)
  | .fault _ => none
  | .refused _ => none

/-! ## One operation (vectors V and P) -/

/-- V5.12 -/
theorem test_nop : seen (fun t => (t.res, t.pending.length, t.ctl)) (exec .nop running) = some (0#16, 0, running.ctl) := by
  decide
/-- V1.1, V1.3: configured, then overwritten and still enabled. -/
theorem test_adc_init : seen (fun t => t.readReg 0) (exec (.adcInit 3#2 3#3) ready) = some 0xE3#16 := by decide
theorem test_adc_init_again : seen (fun t => t.readReg 0) (exec (.adcInit 0#2 1#3) (configured 0#10)) = some 0x81#16 := by
  decide
/-- V1.8: channel 266 is channel 2. -/
theorem test_adc_read_over_range :
    seen (fun t => [t.readReg 1, t.readReg 2, t.readReg 3, t.res]) (exec (.adcRead 266#16) (configured 300#10)) =
      some [2#16, 0#16, 300#16, 300#16] := by decide
/-- V1.10, P5: hung, with the port closed. -/
theorem test_adc_read_hangs :
    seen (fun t => (t.readReg 1, t.readReg 2, t.cmdReady)) (exec (.adcRead 10#16) ready) = some (2#16, 2#16, false) := by
  decide
/-- V1.12 -/
theorem test_adc_shutdown :
    seen (fun t => (t.readReg 0, t.readReg 1)) (exec .adcShutdown { configured 0#10 with adc := ⟨true, 3, 3, 2, false, false, 700⟩ }) =
      some (0#16, 2#16) := by decide
/-- V2: full scale does not wrap. -/
theorem test_temp_conv_full_scale : seen (·.res) (exec (.tempConv 1023#10) ready) = some 256#16 := by decide
/-- V2: the document's scenario. -/
theorem test_temp_conv_700 : seen (·.res) (exec (.tempConv 700#10) ready) = some 175#16 := by decide
/-- V3.4, F1: 192, not 191. -/
theorem test_pwm_start_75 :
    seen (fun t => [t.readReg 4, t.readReg 5, t.readReg 6, t.readReg 7]) (exec (.pwmStart 75#8) ready) =
      some [0xC2#16, 0#16, 192#16, 0x04#16] := by decide
/-- V4.11: the compare value stays. -/
theorem test_mot_init_while_running :
    seen (fun t => [t.readReg 6, t.readReg 7, t.readReg 8, t.readReg 9]) (exec .motInit running) =
      some [128#16, 0x07#16, 0#16, 0#16] := by decide
/-- V4.3 -/
theorem test_mot_rotate_ccw :
    seen (fun t => [t.readReg 6, t.readReg 8, t.readReg 9]) (exec (.motRotate .ccw 50#8) (prepared 0#10)) =
      some [128#16, 0x01#16, 0xC032#16] := by decide
/-- V4.5 -/
theorem test_mot_rotate_reversed :
    seen (fun t => [t.readReg 6, t.readReg 8, t.readReg 9]) (exec (.motRotate .cw 75#8) running) =
      some [192#16, 0x02#16, 0x804B#16] := by decide
/-- P2, command 3: the six writes in order. -/
theorem test_mot_stop_trace :
    seen (fun t => (t.trace.filter fun e => match e with | .opStart _ => false | .opReturn _ => false | _ => true))
      (exec .motStop { running with trace := [] }) =
      some [.pinWrite .in1 .level false, .pinWrite .in2 .level true, .cmpWrite 0#8, .pinWrite .pwmOut .oe true,
        .pinWrite .in1 .level false, .pinWrite .in2 .level false] := by decide
/-- V4.9: a stop on a block never initialised. -/
theorem test_mot_stop_from_reset :
    seen (fun t => [t.readReg 4, t.readReg 6, t.readReg 7, t.readReg 8, t.readReg 9]) (exec .motStop ready) =
      some [0xC2#16, 0#16, 0x04#16, 0#16, 0#16] := by decide
/-- V5: the boundary belongs to the higher band. -/
theorem test_band_sel_119 : seen (·.res) (exec (.bandSel 119#16) ready) = some 3#16 := by decide
theorem test_band_sel_120 : seen (·.res) (exec (.bandSel 120#16) ready) = some 4#16 := by decide
/-- V5.3 -/
theorem test_ctl_iter_479 :
    seen (fun t => [t.readReg 11, t.readReg 6, t.readReg 8, t.readReg 9, t.readReg 10, t.res])
      (exec .ctlIter (prepared 479#10)) = some [119#16, 192#16, 0x02#16, 0x804B#16, 0x10#16, 3#16] := by decide
/-- V5.9 -/
theorem test_ctl_iter_119 :
    seen (fun t => [t.readReg 11, t.readReg 6, t.readReg 8, t.readReg 9, t.readReg 10, t.res])
      (exec .ctlIter (prepared 119#10)) = some [29#16, 0#16, 0#16, 0#16, 0#16, 0#16] := by decide
/-- 70_reset_and_hazards.md R237 -/
theorem test_ctl_run :
    seen (fun t => [t.readReg 0, t.readReg 7, t.readReg 8, t.readReg 10]) (exec .ctlRun ready) =
      some [0xE3#16, 0x03#16, 0#16, 0x24#16] := by decide

/-! ## One step -/

/-- V5.13: a reserved word changes no register and leaves the port ready. -/
theorem test_step_reserved :
    seen (fun t => (t.endRegs == running.endRegs, t.cmdReady)) (step (running.withFetchWord 32 0xFF123456)) =
      some (true, true) := by decide
/-- V5.14: a word at a closed port. -/
theorem test_step_closed_port :
    seen (fun t => (t.readReg 0, t.pending.length))
      (step { held with env := { held.env with cmds := [some 0x01030003#32] } }) = some (0x83#16, 4) := by decide
/-- V6.2: reset out of the hang. -/
theorem test_step_reset_out_of_hang :
    seen (fun t => (t.readReg 2, t.pending.length, t.cmdReady)) (step { held with env := { held.env with rst := [0] } }) =
      some (0#16, 0, true) := by decide
/-- 70_reset_and_hazards.md R230, 10_state.md R45: rst may come again, also right after a reset. -/
theorem test_step_second_reset :
    seen (fun t => (seen (fun u => (u.trace.drop 1, u.env.rst)) (step t)))
      (step { running with env := { running.env with rst := [0, 0] } }) = some (some ([.reset, .reset], [])) := by decide
/-- 70_reset_and_hazards.md R254: a run of two commands ends when the second has returned, not before the first and not
between them. -/
theorem test_run_ended :
    let s := { running with env := { running.env with cmds := [some 0x00000000#32, some 0x0C000000#32] } }
    s.ended = false ∧ seen (fun t => (t.cmdReady, t.ended, seen State.ended (step t))) (step s) =
      some (true, false, some true) ∧ held.ended = false := by decide
/-- 10_state.md R43 (e): a stop counts from its return to the next rotation; a PWM_START between (43_pwm.md R142) shows. -/
theorem test_stop_clause_condition :
    stopCmp motStopEvents.dropLast = none ∧ stopCmp (motStopEvents ++ motInitEvents) = some 0#8 ∧
      stopCmp (motStopEvents ++ pwmStartEvents 128#8) = some 128#8 ∧
      stopCmp (motStopEvents ++ [.opStart 0x07#8]) = none ∧ stopCmp (motRotateEvents .cw 0#8) = none := by decide
/-- 60_exceptions.md R216, 00_scope.md R13: FAULT is seen before PHASE and LOOP change. -/
theorem test_timeout_writes_in_order :
    let s := { looping with adc := { looping.adc with busy := true }, pending := .adcPoll (some 1) :: afterSamplePoll }
    (List.range 5).map (fun k => (microStep^[k] s).readReg 10) = [0x24#16, 0x24#16, 0xA4#16, 0xA0#16, 0x80#16] := by decide
/-- 20_memory.md R67: the port opens only with the return, the ninth micro-step of MOT_INIT. -/
theorem test_port_inside_mot_init :
    (List.range 11).map (fun k => (ready.inside motInitMicros k).cmdReady) =
      [false, false, false, false, false, false, false, false, false, true, true] := by decide
/-- 60_exceptions.md R216: the last look of a bounded poll. -/
theorem test_step_timeout :
    seen (fun t => (t.readReg 10, t.readReg 2, t.cmdReady))
      (step { held with adc := { held.adc with en := false }, pending := .adcPoll (some 1) :: afterPoll }) =
      some (0x80#16, 2#16, false) := by decide
/-- 93_implementation_defined.md U5: a reserved phase code is refused by name. -/
theorem test_step_reserved_phase :
    seen (fun _ => true) (step { ready with ctl := { ready.ctl with phase := 9#4 } }) = none := by decide

/-! ## Witnesses: states that meet the hypotheses of the obligations

`witness_<Name>` belongs to `Obligations.<Name>`; where the statement has several clauses, one state for each. -/

/-- The word `w` at a ready port. -/
def offered (w : CmdWord) : State := { ready with env := { ready.env with cmds := [some w] } }

/-- A converter that can convert but does not answer in the gaps given. -/
def slow : State := { configured 0#10 with env := mute.env }

/-- `slow` with a stale completion flag (V1.15). -/
def stale : State := { slow with adc := { slow.adc with done := true, data := 77#10 } }

/-- `ready` with the poll bounded. -/
def bounded (n : Nat) : State := { ready with params := { ready.params with pollBound := some n } }

/-- `held` at the last look of a bounded poll. -/
def lastLook : State :=
  { held with
    params := { held.params with pollBound := some 1 }
    pending := .adcPoll (some 1) :: afterPoll }

/-- The sequencer at a phase, with a converter that answers at once. -/
def atPhase (p : Phase) (tier : BitVec 3) : State :=
  { configured 0#10 with ctl := { ready.ctl with phase := p.code, tier := tier } }

theorem witness_DecodeRejectsExactlyReservedCodes :
    decodeWord 0x0C000000#32 = .error (.reservedOp 0x0C#8) ∧ decodeWord 0xFF123456#32 = .error (.reservedOp 0xFF#8) := by
  decide
theorem witness_StepExecutesTheAcceptedOperation :
    (offered 0x08000000#32).cmdReady = true ∧ (offered 0x08000000#32).rstNow = false ∧
      (offered 0x08000000#32).presented = some 0x08000000#32 ∧ decodeWord 0x08000000#32 = .ok .motStop := by decide
theorem witness_StepExecutesTheFetchedWord :
    decodeTableWord 32 0x0500004B = some (.pwmStart 75#8) ∧ decodeTableWord 32 0x0B000000 = some .ctlRun := by decide
theorem witness_ReservedWordIsAcceptedAndIgnored :
    (offered 0x0C000000#32).Calm ∧ (offered 0x0C000000#32).cmdReady = true ∧
      (offered 0x0C000000#32).presented = some 0x0C000000#32 ∧ 0x0C ≤ (opField 0x0C000000#32).toNat ∧
      0x0C ≤ (opField 0xFFFFFFFF#32).toNat := by decide
theorem witness_WordAtClosedPortHasNoEffect : held.cmdReady = false ∧ looping.cmdReady = false := by decide
theorem witness_PortIsClosedInsideAnOperation :
    (∀ m ∈ motInitMicros, m.poll? = none) ∧ ready.env.rst = [] ∧ 0 < motInitMicros.length ∧ 8 < motInitMicros.length ∧
      held.HeldWith afterPoll := by decide
theorem witness_OnlyReservedCodesAreRefused :
    step (atPhase .itAct 5#3) = .refused (.reservedTier 5#3) ∧
      step { ready with ctl := { ready.ctl with phase := 15#4 } } = .refused (.reservedPhase 15#4) := ⟨rfl, rfl⟩
theorem witness_StepKeepsParametersAndTracePast : ∃ t, step (offered 0x08000000#32) = .next t := ⟨_, rfl⟩
theorem witness_ResetWinsOverEverything : ({ held with env := { held.env with rst := [0] } } : State).rstNow = true := by
  decide
theorem witness_ResetAbandonsAnOperationMidway :
    (∀ m ∈ motInitMicros, m.poll? = none) ∧ 0 < motInitMicros.length ∧ 8 < motInitMicros.length ∧
      ({ ready with env := { ready.env with rst := [8, 0, 3] } } : State).env.rst = [8, 0, 3] := by decide
theorem witness_AdcInitProgramsSelectorDivisorEnable :
    opField 0x01030003#32 = 0x01#8 ∧ ready.Calm ∧ (configured 0#10).Calm := by decide
theorem witness_AdcShutdownClearsAndIsIdempotent : opField 0x03FFFFFF#32 = 0x03#8 ∧ (configured 0#10).Calm := by decide
theorem witness_AdcReadReturnsTheAnswer :
    opField 0x0200FFFF#32 = 0x02#8 ∧ (configured 700#10).Calm ∧ (configured 700#10).adc.done = false ∧
      (configured 700#10).canConvert = true ∧ (configured 700#10).params.pollBound ≠ some 0 ∧
      ((configured 700#10).gapAt 3).complete = true := by decide
theorem witness_AdcReadTruncatesTheChannel :
    ready.Calm ∧ ready.params.chBits ≤ 8 ∧ ready.params.chBits = 3 ∧
      ({ ready.params with chBits := 8 } : Params).chBits ≤ 8 := by decide
theorem witness_AdcReadWaitsForTheConverter :
    (ready.Calm ∧ ready.adc.done = false ∧ ready.params.pollBound = none ∧ ready.canConvert = false) ∧
      (slow.Calm ∧ slow.adc.done = false ∧ slow.params.pollBound = none ∧ slow.canConvert = true ∧
        (slow.gapAt 3).complete = false) := by decide
theorem witness_ReadOnDisabledConverterHangsForever :
    (ready.Calm ∧ ready.adc.done = false ∧ ready.params.pollBound = none ∧ ready.ctl.fault = false ∧ ready.adc.en = false) ∧
      (let s := { ready with adc := { ready.adc with en := true, div := 0#3 } }
       s.Calm ∧ s.adc.done = false ∧ s.params.pollBound = none ∧ s.ctl.fault = false ∧ s.adc.div = 0#3) := by decide
theorem witness_HangIsKeptByEveryStep :
    (let s := { held with adc := { held.adc with en := false } }
     s.HungWith afterPoll) ∧
      (let s := { looping with adc := { looping.adc with busy := true, div := 0#3 }, pending := .adcPoll none :: afterSamplePoll }
       s.HungWith afterSamplePoll) := by decide
theorem witness_HeldReadReturnsOnceAnswered :
    (let s := { held with env := { held.env with gaps := [⟨3, false⟩, ⟨0, false⟩, ⟨1, true⟩] } }
     s.HeldWith afterPoll ∧ s.env.rst = [] ∧ s.convEnabled = true ∧ (∀ k, k < 2 → (s.gapAt k).complete = false) ∧
       (s.gapAt 2).complete = true) ∧
      (let s := { held with env := ready.env }
       s.HeldWith afterPoll ∧ s.env.rst = [] ∧ s.convEnabled = true ∧ (∀ k, k < 0 → (s.gapAt k).complete = false) ∧
         (s.gapAt 0).complete = true) ∧
      (let s := { looping with
         adc := { looping.adc with busy := true }, pending := .adcPoll none :: afterSamplePoll,
         env := { looping.env with gaps := [⟨3, false⟩, ⟨1, true⟩] } }
       s.HeldWith afterSamplePoll ∧ s.env.rst = [] ∧ s.convEnabled = true ∧ (∀ k, k < 1 → (s.gapAt k).complete = false) ∧
         (s.gapAt 1).complete = true) := by decide
theorem witness_ReadWithFlagSetReturnsStaleData :
    stale.Calm ∧ stale.adc.done = true ∧ stale.params.pollBound ≠ some 0 ∧ (stale.gapAt 3).complete = false ∧
      (stale.gapAt 4).complete = false ∧ (stale.gapAt 5).complete = false ∧ (stale.gapAt 6).complete = false := by decide
theorem witness_ConvCompletesOnlyATriggeredConversion :
    (let s := { held with env := ready.env }
     s.adc.busy = true ∧ s.adc.en = true ∧ s.adc.div ≠ 0#3 ∧ (s.gapAt 0).complete = true) ∧
      ¬(ready.adc.busy = true ∧ ready.adc.en = true ∧ ready.adc.div ≠ 0#3 ∧ (ready.gapAt 0).complete = true) := by decide
theorem witness_BoundedPollTimesOutAtItsLastLook :
    ((bounded 0).Calm ∧ (bounded 0).adc.done = false ∧ (bounded 0).canConvert = false ∧ (bounded 0).ctl.fault = false ∧
        (bounded 0).pending = [] ∧ (bounded 0).params.pollBound = some 0) ∧
      ((bounded 3).Calm ∧ (bounded 3).adc.done = false ∧ (bounded 3).canConvert = false ∧
        (bounded 3).ctl.fault = false ∧ (bounded 3).pending = [] ∧ (bounded 3).params.pollBound = some (2 + 1)) := by decide
theorem witness_TimeoutLeavesTheActuatorAsItWas :
    (lastLook.pending = .adcPoll (some 1) :: afterPoll ∧ lastLook.ctl.fault = false ∧ lastLook.env.rst = [] ∧
        lastLook.adc.done = false ∧ (lastLook.gapAt 0).complete = false ∧
        ∀ k, k < 4 → (lastLook.gapAt k).complete = false) ∧
      (let s := { lastLook with adc := { lastLook.adc with en := false } }
       s.pending = .adcPoll (some 1) :: afterPoll ∧ s.ctl.fault = false ∧ s.env.rst = [] ∧ s.adc.done = false ∧
         s.convEnabled = false) := by decide
theorem witness_FailedBlockExecutesNothing :
    failedBlock.ctl.fault = true ∧ failedBlock.env.rst = [] ∧ failedBlock.convEnabled = false := by decide
theorem witness_TempConvWritesTheFlooredQuotient :
    opField 0x040003FF#32 = 0x04#8 ∧ ready.Calm ∧ ready.params.vrefMv < 655360 := by decide
theorem witness_TempConvIsPure : ready.Calm ∧ running.Calm ∧ ready.params = running.params := by decide
theorem witness_TempConvIsMonotonicWithItsEndpoints :
    ready.Calm ∧ ready.params.vrefMv < 655360 ∧ ready.params.vrefMv = 2560 ∧ (0#10).toNat ≤ (1023#10).toNat ∧
      (0#10).toNat ≤ (700#10).toNat := by decide
theorem witness_PwmStartReprogramsTheTimer :
    opField 0x050000FF#32 = 0x05#8 ∧ running.Calm ∧ (100#8).toNat ≤ 100 ∧
      ∀ k, 2 ≤ k → k < 8 → (running.gapAt k).ticks = 0 := by decide
theorem witness_CompareValueIsTheCeiling : (0#8).toNat ≤ 100 ∧ (100#8).toNat ≤ 100 := by decide
theorem witness_SecondPwmStartLeavesNoResidue : ready.Calm ∧ (100#8).toNat ≤ 100 := by decide
theorem witness_TickCountsModulo256 : running.pwm.ps ≠ 0#3 ∧ ready.pwm.ps = 0#3 := by decide
theorem witness_OutputIsHighForCompareTicks :
    running.pin.pwmOe = true ∧ running.pwm.fast = true ∧ running.pwm.ninv = true := by decide
theorem witness_StartedTimerKeepsItsClock :
    running.params.pwmPsSel ≠ 0#3 ∧ running.env.rst = [] ∧ running.pwm.ps ≠ 0#3 ∧ ∃ t, step running = .next t :=
  ⟨by decide, rfl, by decide, _, rfl⟩
theorem witness_MotInitDrivesBothPinsLow : opField 0x06000000#32 = 0x06#8 ∧ running.Calm := by decide
theorem witness_MotRotateSetsPatternDutyAndRunning :
    opField 0x07010032#32 = 0x07#8 ∧ running.Calm ∧ (100#8).toNat ≤ 100 ∧
      ∀ k, 5 ≤ k → k < 15 → (running.gapAt k).ticks = 0 := by decide
theorem witness_MotRotateTransientPatterns : running.Calm ∧ ready.Calm := by decide
theorem witness_MotStopStopsInTwoSteps :
    opField 0x08000000#32 = 0x08#8 ∧ running.Calm ∧ ∀ k, 6 ≤ k → k < 22 → (running.gapAt k).ticks = 0 := by decide
theorem witness_MotStopIntermediateStates : running.Calm := by decide
theorem witness_MotStateTransitions :
    running.env.rst = [] ∧ (.adcShutdown : Instr) ≠ .motInit ∧ (.adcShutdown : Instr) ≠ .motStop ∧
      (∀ d v, (.adcShutdown : Instr) ≠ .motRotate d v) ∧ (.adcShutdown : Instr) ≠ .ctlIter ∧
      (.adcShutdown : Instr) ≠ .ctlRun := by simp [running, ready, State.reset]
theorem witness_NopChangesNothing : opField 0x00FFFFFF#32 = 0x00#8 ∧ running.Calm := by decide
theorem witness_BandSelWritesTheTierCode : opField 0x0900001E#32 = 0x09#8 ∧ ready.Calm := by decide
theorem witness_CtlIterRunsOneIteration :
    opField 0x0A000000#32 = 0x0A#8 ∧ (prepared 700#10).Calm ∧ (prepared 700#10).adc.done = false ∧
      (prepared 700#10).canConvert = true ∧ (prepared 700#10).params.pollBound ≠ some 0 ∧
      ((prepared 700#10).gapAt 5).complete = true ∧ ∀ k, k < 48 → ((prepared 700#10).gapAt k).ticks = 0 := by decide
theorem witness_CtlIterWaitsInTheSamplePhase :
    (ready.Calm ∧ ready.adc.done = false ∧ ready.params.pollBound = none ∧ ready.canConvert = false) ∧
      (slow.Calm ∧ slow.adc.done = false ∧ slow.params.pollBound = none ∧ (slow.gapAt 5).complete = false) := by decide
theorem witness_CtlRunBootsIntoTheLoop : opField 0x0B000000#32 = 0x0B#8 ∧ ready.Calm := by decide

/-- The orchestrator about to sample meets the invariant. -/
theorem looping_inv : looping.Inv where
  converter := ⟨fun _ _ => by decide, fun h => absurd rfl h, by decide⟩
  timer := ⟨fun h => absurd rfl h⟩
  actuator := ⟨fun _ => by decide, fun _ h => (by cases h), by decide⟩
  control := ⟨by decide, by decide, fun _ => by decide, fun h => absurd h (by decide), fun h => absurd h (by decide),
    fun h => absurd h (by decide)⟩
  failure := ⟨fun h => absurd h (by decide)⟩

/-- A stopped motor meets the invariant. -/
theorem stopped_inv : (stopped 0x05000000#32).Inv where
  converter := ⟨fun _ _ => by decide, fun h => absurd rfl h, by decide⟩
  timer := ⟨fun _ => by decide⟩
  actuator := ⟨fun _ => by decide, fun v h => ⟨rfl, (by injection h)⟩, by decide⟩
  control := ⟨by decide, by decide, fun h => absurd h (by decide), fun h => absurd h (by decide),
    fun h => absurd h (by decide), fun h => absurd h (by decide)⟩
  failure := ⟨fun h => absurd h (by decide)⟩

theorem witness_StopClauseFailsOnlyByPwmStartAlone :
    (stopped 0x05000000#32).Inv ∧ (stopped 0x05000000#32).StopClause ∧
      (stopCmp (stopped 0x05000000#32).trace).isSome = true ∧
      (∀ w, (stopped 0x05000000#32).cmdReady = true → (stopped 0x05000000#32).presented = some w →
        opField w = 0x05#8 → (bField w).extractLsb' 0 8 = 0#8) ∧
      (∃ t, step (stopped 0x05000000#32) = .next t) ∧ running.Calm :=
  ⟨stopped_inv, fun _ _ => ⟨rfl, rfl, rfl⟩, rfl, fun w _ h => by obtain rfl : _ = w := (by injection h); decide, ⟨_, rfl⟩,
    by decide⟩

theorem witness_LoopNeverEnds :
    looping.Inv ∧ looping.ctl.loop = true ∧ looping.params.pollBound = none ∧ looping.env.rst = [] :=
  ⟨looping_inv, rfl, rfl, rfl⟩
theorem witness_PhasesFollowTheSuccessorTable :
    (let s := atPhase .itSample 0#3
     s.Calm ∧ s.ctl.fault = false ∧ s.pending = [] ∧ s.ctl.phase = Phase.itSample.code ∧ s.adc.done = false ∧
       s.canConvert = true ∧ s.params.pollBound ≠ some 0 ∧ (s.gapAt 3).complete = true) ∧
      (let s := atPhase .itAct 4#3
       s.Calm ∧ s.ctl.fault = false ∧ s.pending = [] ∧ s.ctl.phase = Phase.itAct.code ∧ s.ctl.tier.toNat ≤ 4) ∧
      (let s := atPhase .itDispFan 4#3
       s.Calm ∧ s.ctl.fault = false ∧ s.pending = [] ∧ s.ctl.phase = Phase.itDispFan.code) ∧
      (∀ p ∈ [Phase.bootAdc, .bootMot, .bootDisp, .itDispTemp, .itSelect],
        let s := atPhase p 0#3
        s.Calm ∧ s.ctl.fault = false ∧ s.pending = [] ∧ s.ctl.phase = p.code ∧ p ≠ .idle ∧ p ≠ .itSample ∧ p ≠ .itAct) := by
  decide
theorem witness_SamplePhaseSamplesAndLatches :
    (let s := atPhase .itSample 0#3
     s.Calm ∧ s.ctl.fault = false ∧ s.pending = [] ∧ s.ctl.phase = Phase.itSample.code ∧ s.adc.done = false ∧
       s.canConvert = true ∧ s.params.pollBound ≠ some 0 ∧ (s.gapAt 3).complete = true) ∧
      (looping.Calm ∧ looping.ctl.fault = false ∧ looping.pending = [] ∧ looping.ctl.phase = Phase.itSample.code ∧
        looping.adc.done = false ∧ looping.params.pollBound = none ∧ (looping.gapAt 3).complete = false) := by decide
theorem witness_DisplayAndSelectPhases :
    (atPhase .itDispTemp 0#3).Calm ∧ (atPhase .itDispTemp 0#3).ctl.phase = Phase.itDispTemp.code ∧
      (atPhase .itSelect 0#3).Calm ∧ (atPhase .itSelect 0#3).ctl.phase = Phase.itSelect.code ∧
      (atPhase .itDispFan 0#3).Calm ∧ (atPhase .itDispFan 0#3).ctl.phase = Phase.itDispFan.code ∧
      (atPhase .itDispFan 0#3).ctl.fault = false ∧ (atPhase .itDispFan 0#3).pending = [] := by decide
theorem witness_ActPhaseActsOnTheTier :
    (let s := atPhase .itAct 0#3
     s.Calm ∧ s.ctl.fault = false ∧ s.pending = [] ∧ s.ctl.phase = Phase.itAct.code ∧ s.ctl.tier.toNat ≤ 4) ∧
      (let s := atPhase .itAct 4#3
       s.Calm ∧ s.ctl.fault = false ∧ s.pending = [] ∧ s.ctl.phase = Phase.itAct.code ∧ s.ctl.tier.toNat ≤ 4 ∧
         ∀ k, k < 24 → (s.gapAt k).ticks = 0) := by decide
theorem witness_ObservationPortShowsTheLayout : 11 < 12 ∧ ready.readReg 12 = 0#16 := by decide
theorem witness_WiresFollowEnablesAndBinding :
    State.reset.AtReset ∧
      (PinMap.bound ({ ready.params.pinMap with in1 := ⟨9, 9⟩ } : PinMap) .in1 ∉ ready.params.pinMap.present) ∧
      running.params.pinMap.in1 ∈ running.params.pinMap.present ∧ running.pin.in1Oe = true ∧
      running.params.pinMap.in2 ∈ running.params.pinMap.present ∧ running.pin.in2Oe = true ∧
      ready.pin.in1Oe = false ∧ ready.pin.in2Oe = false ∧ ready.pin.pwmOe = false ∧
      running.params.pinMap.pwmOut ∈ running.params.pinMap.present ∧ running.pin.pwmOe = true ∧
      running.pwm.fast = true ∧ running.pwm.ninv = true := by decide
theorem witness_StepKeepsTheInvariant : looping.Inv ∧ ∃ t, step looping = .next t := ⟨looping_inv, _, rfl⟩

end Sys2Proof.Tests
end

