-- ==== Sys2Proof/Proofs/ResetTable.lean ====
section
/-! The reset table (10_state.md R42) as the fields hold it and as the observation port answers it. -/

namespace Sys2Proof.Machine

/-- The registers end at number 11 (20_memory.md R63). -/
theorem State.readReg_of_above (s : State) {n : Nat} (h : 11 < n) : s.readReg n = 0#16 := by
  obtain ⟨k, rfl⟩ : ∃ k, n = k + 12 := ⟨n - 12, by omega⟩
  rfl

theorem State.reset_readReg_of_register : ∀ n < 12, State.reset.readReg n = 0#16 := by decide

@[simp] theorem State.reset_readReg (n : Nat) : State.reset.readReg n = 0#16 := by
  rcases Nat.lt_or_ge n 12 with register | above
  · exact State.reset_readReg_of_register n register
  · exact State.reset.readReg_of_above above

/-- Settles O13: the fields are those `State.reset` is defined with (IDLE by its code 0), and the port by the split of the
register numbers at 11. -/
theorem resetValuesAreTheTable : Obligations.ResetValuesAreTheTable := by
  unfold Obligations.ResetValuesAreTheTable
  exact ⟨rfl, rfl, rfl, rfl, rfl, rfl, State.reset_readReg⟩

end Sys2Proof.Machine
end

/-! A word with a reserved OP (30_encoding.md R85): how the decoder rejects it, what a step is at a ready port, and what
the bare start and return of an ignored word leave as it was. -/

namespace Sys2Proof.Machine

/-! ## The decoder at a reserved code -/

/-- A code above the twelve of R84 falls through every row of the decoder. -/
theorem decodeWord_of_reserved {w : CmdWord} (h : 0x0C ≤ (opField w).toNat) :
    decodeWord w = .error (.reservedOp (opField w)) := by
  obtain ⟨n, hn⟩ : ∃ n, (opField w).toNat = n + 12 := ⟨(opField w).toNat - 12, by omega⟩
  unfold decodeWord
  rw [hn]
  rfl

theorem acceptWord_of_reserved {w : CmdWord} (h : 0x0C ≤ (opField w).toNat) (s : State) :
    acceptWord w s = .next (acceptReserved (opField w) s) := by
  simp only [acceptWord, decodeWord_of_reserved h]

/-! ## The ready port (20_memory.md R67) -/

theorem State.cmdReady_iff (s : State) :
    s.cmdReady = true ↔
      s.ctl.phase = Phase.idle.code ∧ s.ctl.fault = false ∧ s.pending = [] ∧ s.params.autorun = false := by
  simp [State.cmdReady, and_assoc]

/-- A ready port without reset accepts the word that is presented. -/
theorem step_of_presented {s : State} {w : CmdWord} (ready : s.cmdReady = true) (noReset : s.rstNow = false)
    (word : s.presented = some w) : step s = acceptWord w s.dropPresented := by
  obtain ⟨phase, noFault, noPending, noAutorun⟩ := s.cmdReady_iff.mp ready
  have accept : s.action = .accept w := by
    simp [State.action, noReset, noFault, noPending, phase, noAutorun, word]
  simp only [step, accept]

/-! ## What an ignored word leaves as it was -/

/-- A state that agrees with `s` but for the trace, and whose timer at most ticked, keeps all that `AllKept` names. -/
theorem State.Agree.allKept {s t : State} {trace : List Event} (h : t.Agree { s with trace := trace })
    (timer : s.PwmKept t) : s.AllKept t :=
  ⟨h.adc, timer, h.pin, h.mot, h.ctl, h.res, h.convs, h.draws, h.params, h.ain, h.cmds, h.rst⟩

theorem replay_reserved (op : BitVec 8) (s : State) :
    replay (opMicros op []) s = { s with trace := s.trace ++ [.opStart op, .opReturn op] } := by
  simp [replay_op, replay_nil, State.emit]

/-- The start and the return alone are a plain run that spares the timer: in a calm state it ends, and only the trace
shows it. -/
theorem acceptReserved_ignores (op : BitVec 8) {s : State} (calm : s.Calm) :
    s.AllKept (acceptReserved op s) ∧
      (acceptReserved op s).trace = s.trace ++ [.opStart op, .opReturn op] ∧ (acceptReserved op s).pending = [] := by
  obtain ⟨agree, -, ended⟩ := runMicros_plain (ms := opMicros op []) rfl calm
  rw [replay_reserved] at agree
  have timer : s.PwmKept (runMicros (opMicros op []) s) := runMicros_pwmKept rfl calm.1
  exact ⟨agree.allKept timer, agree.trace, ended⟩

/-- A ready port is ready again once the control registers and the parameters are kept and nothing is left to execute. -/
theorem State.cmdReady_of_kept {s t : State} (ready : s.cmdReady = true) (ctl : t.ctl = s.ctl)
    (params : t.params = s.params) (ended : t.pending = []) : t.cmdReady = true := by
  obtain ⟨phase, noFault, -, noAutorun⟩ := s.cmdReady_iff.mp ready
  rw [State.cmdReady_iff, ctl, params]
  exact ⟨phase, noFault, ended, noAutorun⟩

/-- Settles O7: the ready port accepts the word, the decoder rejects its code, and what is left to run is the start and
the return of an empty operation. -/
theorem reservedWordIsAcceptedAndIgnored : Obligations.ReservedWordIsAcceptedAndIgnored := by
  unfold Obligations.ReservedWordIsAcceptedAndIgnored
  intro s w calm ready word reserved
  have accepted : step s = .next (acceptReserved (opField w) s.dropPresented) := by
    rw [step_of_presented ready (State.rstNow_of_none calm.1) word, acceptWord_of_reserved reserved]
  have calmThen : s.dropPresented.Calm := calm
  obtain ⟨kept, recorded, ended⟩ := acceptReserved_ignores (opField w) calmThen
  have ⟨_, _, _, _, ctlKept, _, _, _, paramsKept, _⟩ := kept
  exact ⟨_, accepted, kept, recorded, ended, State.cmdReady_of_kept ready ctlKept paramsKept ended⟩

end Sys2Proof.Machine

/-! The Analog Sampling Unit (41_adc_sampling.md): what CONV does in a gap (R118), the shutdown (R121, R122), the channel
a read selects (R113), and the read that is never answered (R115, R116). -/

namespace Sys2Proof.Machine

/-! ## CONV in a gap (R118) -/

theorem State.convEnabled_iff (s : State) :
    s.convEnabled = true ↔ s.adc.busy = true ∧ s.adc.en = true ∧ s.adc.div ≠ 0#3 := by
  simp [State.convEnabled, and_assoc]

/-- Settles O26: of the two things a gap can do to the converter, the premise of either clause rules out the other. -/
theorem convCompletesOnlyATriggeredConversion : Obligations.ConvCompletesOnlyATriggeredConversion := by
  unfold Obligations.ConvCompletesOnlyATriggeredConversion
  intro s
  have movesIff : (s.adc.busy = true ∧ s.adc.en = true ∧ s.adc.div ≠ 0#3 ∧ (s.gapAt 0).complete = true) ↔
      s.convEnabled = true ∧ (s.gapAt 0).complete = true := by
    rw [s.convEnabled_iff]
    tauto
  rw [movesIff]
  refine ⟨s.gapStep_pin, s.gapStep_mot, s.gapStep_ctl, s.gapStep_res, s.gapStep_pwm_cmp, ?_⟩
  rcases s.gapStep_conv with ⟨enabled, lets, adc, convs, trace⟩ | ⟨blocked, adc, convs, trace⟩
  · exact ⟨fun _ => ⟨adc, convs, trace⟩, fun still => absurd ⟨enabled, lets⟩ still⟩
  · have still : ¬(s.convEnabled = true ∧ (s.gapAt 0).complete = true) := by
      rcases blocked with off | off <;> simp [off]
    exact ⟨fun moves => absurd moves still, fun _ => ⟨adc, convs, trace⟩⟩

/-! ## ADC_SHUTDOWN (R121, R122) -/

theorem decodeWord_adcShutdown {w : CmdWord} (op : opField w = 0x03#8) : decodeWord w = .ok .adcShutdown := by
  unfold decodeWord
  rw [op]
  rfl

/-- The converter shut down: selector, divisor and enable cleared. -/
def Adc.shutDown (a : Adc) : Adc := { a with refs := 0#2, div := 0#3, en := false }

@[simp] theorem Adc.shutDown_shutDown (a : Adc) : a.shutDown.shutDown = a.shutDown := rfl

/-- The shutdown of a calm state ends calm, with the three fields cleared, its start and return recorded, and the timer
at most ticked. -/
theorem runMicros_adcShutdown {s : State} (calm : s.Calm) :
    (runMicros adcShutdownMicros s).Agree { s with
        adc := s.adc.shutDown
        trace := s.trace ++ [.opStart 0x03#8, .opReturn 0x03#8] } ∧
      s.PwmKept (runMicros adcShutdownMicros s) ∧ (runMicros adcShutdownMicros s).Calm ∧
      (runMicros adcShutdownMicros s).pending = [] := by
  obtain ⟨agree, calmThen, ended⟩ := runMicros_plain (ms := adcShutdownMicros) rfl calm
  rw [replay_adcShutdown] at agree
  exact ⟨agree, runMicros_pwmKept rfl calm.1, calmThen, ended⟩

/-- Shutting down a unit that is shut down already keeps every register. -/
theorem runMicros_adcShutdown_allKept {s : State} (calm : s.Calm) (off : s.adc.shutDown = s.adc) :
    s.AllKept (runMicros adcShutdownMicros s) := by
  obtain ⟨agree, timer, -, -⟩ := runMicros_adcShutdown calm
  rw [off] at agree
  exact agree.allKept timer

/-- Settles O18: the shutdown is a plain run, and the state it leaves is one that is shut down already. -/
theorem adcShutdownClearsAndIsIdempotent : Obligations.AdcShutdownClearsAndIsIdempotent := by
  unfold Obligations.AdcShutdownClearsAndIsIdempotent
  refine ⟨fun _ => decodeWord_adcShutdown, fun s calm => ⟨_, rfl, ?_⟩⟩
  obtain ⟨agree, timer, calmThen, ended⟩ := runMicros_adcShutdown calm
  have off : (runMicros adcShutdownMicros s).adc.shutDown = (runMicros adcShutdownMicros s).adc := by
    rw [agree.adc]
    exact s.adc.shutDown_shutDown
  exact ⟨agree.adc, timer, agree.pin, agree.mot, agree.ctl, agree.res, agree.convs, agree.draws,
    ⟨agree.params, agree.ain, agree.cmds, agree.rst⟩, ended, agree.trace, _, rfl,
    runMicros_adcShutdown_allKept calmThen off⟩

/-! ## The channel of a read (R113) -/

theorem chanTrunc_mod (p : Params) (channel : Nat) : chanTrunc p (channel % 2 ^ p.chBits) = chanTrunc p channel := by
  simp only [chanTrunc, Nat.mod_mod]

/-- A channel of at most 8 bits fits ADC_MUX. -/
theorem chanTrunc_toNat {p : Params} (fits : p.chBits ≤ 8) (channel : Nat) :
    (chanTrunc p channel).toNat = channel % 2 ^ p.chBits := by
  have below : channel % 2 ^ p.chBits < 2 ^ 8 :=
    (Nat.mod_lt _ (Nat.two_pow_pos _)).trans_le (Nat.pow_le_pow_right (by decide) fits)
  rw [chanTrunc, BitVec.toNat_ofNat, Nat.mod_eq_of_lt below]

/-- Two runs that begin with a write each are the same run if they are so behind these writes. -/
theorem runMicros_cons_congr {m n : Micro} {ms ns : List Micro} {s : State} (hm : m.poll? = none) (hn : n.poll? = none)
    (behind : runMicros ms (m.apply s.gapStep) = runMicros ns (n.apply s.gapStep)) :
    runMicros (m :: ms) s = runMicros (n :: ns) s := by
  cases reset : s.rstNow with
  | true => rw [runMicros_cons_of_rst reset, runMicros_cons_of_rst reset]
  | false => rw [runMicros_cons_of_write reset hm, runMicros_cons_of_write reset hn, behind]

/-- A read looks at its operand through `chanTrunc` alone, in any state. -/
theorem runMicros_adcRead_congr {s : State} {a b : Nat} (same : chanTrunc s.params a = chanTrunc s.params b)
    (bound : Option Nat) : runMicros (adcReadMicros bound a) s = runMicros (adcReadMicros bound b) s := by
  refine runMicros_cons_congr rfl rfl (runMicros_cons_congr rfl rfl (congrArg _ ?_))
  simp [Micro.apply, State.emit, same]

/-- A micro-step that does not write ADC.CH. -/
def Micro.sparesChannel (m : Micro) : Bool :=
  match m with
  | .adcCh _ => false
  | _ => true

theorem Micro.apply_adc_ch {m : Micro} (spares : m.sparesChannel = true) (s : State) :
    (m.apply s).adc.ch = s.adc.ch := by
  cases m with
  | adcCh channel => exact absurd spares Bool.false_ne_true
  | _ => rfl

theorem Micro.poll?_eq_some_iff (m : Micro) (looks : Option Nat) : m.poll? = some looks ↔ m = .adcPoll looks := by
  cases m <;> simp [Micro.poll?]

/-- HardwareTimeout is not a write of ADC.CH (60_exceptions.md R216). -/
theorem State.raiseTimeout_adc_ch {s : State} (noReset : s.env.rst = []) : s.raiseTimeout.adc.ch = s.adc.ch := by
  simp [State.raiseTimeout, timeoutMicros, runWrites, gapThen, State.rstNow, noReset, Micro.apply,
    State.gapStep_adc_ch]

/-- Without reset, a run of micro-steps that do not write ADC.CH keeps it, whether it ends, is held or times out. -/
theorem runMicros_adc_ch {ms : List Micro} (spare : ms.all Micro.sparesChannel = true) {s : State}
    (noReset : s.env.rst = []) : (runMicros ms s).adc.ch = s.adc.ch := by
  induction ms generalizing s with
  | nil => rfl
  | cons m ms ih =>
    simp only [List.all_cons, Bool.and_eq_true] at spare
    obtain ⟨spareHead, spareTail⟩ := spare
    have noResetThen : s.gapStep.env.rst = [] := by simp [noReset]
    cases poll : m.poll? with
    | none =>
      rw [runMicros_cons_of_write (State.rstNow_of_none noReset) poll, ih spareTail (by simpa using noResetThen),
        Micro.apply_adc_ch spareHead, State.gapStep_adc_ch]
    | some looks =>
      obtain rfl := (m.poll?_eq_some_iff looks).mp poll
      rw [runMicros_cons_poll (State.rstNow_of_none noReset), ← s.gapStep_adc_ch]
      split
      · exact ih spareTail noResetThen
      · rfl
      · exact State.raiseTimeout_adc_ch noResetThen

/-- A read in a calm state selects its truncated channel, whatever becomes of the conversion. -/
theorem runMicros_adcRead_ch {s : State} (calm : s.Calm) (bound : Option Nat) (channel : Nat) :
    (runMicros (adcReadMicros bound channel) s).adc.ch = chanTrunc s.params channel := by
  obtain ⟨u, started, -, -, atPoll⟩ := runMicros_adcRead calm bound channel []
  rw [List.append_nil, List.append_nil] at atPoll
  rw [atPoll, runMicros_adc_ch rfl (started.rst.trans calm.1), started.adc]
  rfl

/-- Settles O20: a read looks at its operand through the truncation alone, and nothing behind the write of ADC.CH writes it
again. -/
theorem adcReadTruncatesTheChannel : Obligations.AdcReadTruncatesTheChannel := by
  unfold Obligations.AdcReadTruncatesTheChannel
  constructor
  · intro s channel
    have operand : (BitVec.ofNat 16 (channel.toNat % 2 ^ s.params.chBits)).toNat = channel.toNat % 2 ^ s.params.chBits := by
      rw [BitVec.toNat_ofNat, Nat.mod_eq_of_lt ((Nat.mod_le _ _).trans_lt channel.isLt)]
    refine congrArg Host.Outcome.next (runMicros_adcRead_congr ?_ s.params.pollBound)
    rw [operand, chanTrunc_mod]
  · intro s channel calm fits
    have selected := runMicros_adcRead_ch calm s.params.pollBound channel.toNat
    refine ⟨_, rfl, (congrArg BitVec.toNat selected).trans (chanTrunc_toNat fits _), fun three => ?_⟩
    rw [selected, chanTrunc, three]
    refine ⟨?_, ?_, ?_, ?_⟩ <;> (rintro rfl; decide)

/-! ## The hang (R115, R116; 60_exceptions.md R212) -/

/-- What a hang keeps: every register but the count of a running timer, RES, the conversion index, the draws, the
parameters and the trace. -/
structure State.HangKept (s t : State) : Prop where
  adc : t.adc = s.adc
  pwm : s.PwmKept t
  pin : t.pin = s.pin
  mot : t.mot = s.mot
  ctl : t.ctl = s.ctl
  res : t.res = s.res
  convs : t.convs = s.convs
  draws : t.draws = s.draws
  params : t.params = s.params
  trace : t.trace = s.trace

theorem State.HangKept.refl (s : State) : s.HangKept s :=
  ⟨rfl, ⟨rfl, rfl, rfl, rfl, fun _ => rfl⟩, rfl, rfl, rfl, rfl, rfl, rfl, rfl, rfl⟩

theorem State.HangKept.trans {s t u : State} (h : s.HangKept t) (k : t.HangKept u) : s.HangKept u where
  adc := k.adc.trans h.adc
  pwm := h.pwm.trans' k.pwm
  pin := k.pin.trans h.pin
  mot := k.mot.trans h.mot
  ctl := k.ctl.trans h.ctl
  res := k.res.trans h.res
  convs := k.convs.trans h.convs
  draws := k.draws.trans h.draws
  params := k.params.trans h.params
  trace := k.trace.trans h.trace

theorem State.convEnabled_of_canConvert {s : State} (cannot : s.canConvert = false) : s.convEnabled = false := by
  rw [show s.convEnabled = (s.adc.busy && s.canConvert) from Bool.and_assoc .., cannot, Bool.and_false]

theorem State.cmdReady_of_pending {s : State} (busy : s.pending ≠ []) : s.cmdReady = false := by
  simp [State.cmdReady, busy]

/-- The port is closed in a hang. -/
theorem State.HungWith.cmdReady {s : State} {rest : List Micro} (hung : s.HungWith rest) : s.cmdReady = false := by
  obtain ⟨⟨pending, -, -⟩, -, -⟩ := hung
  exact State.cmdReady_of_pending (by simp [pending])

/-- A step of a hung block is the loss of the word presented and one gap: the look finds what the look before found. -/
theorem step_of_hung {s : State} {rest : List Micro} (hung : s.HungWith rest) :
    step s = .next s.dropPresented.gapStep := by
  obtain ⟨⟨pending, flag, noFault⟩, still, noReset⟩ := hung
  have adc : s.dropPresented.gapStep.adc = s.adc := State.gapStep_adc_of_disabled (s := s.dropPresented) still
  have held : s.dropPresented.gapStep.pending = .adcPoll none :: rest := by simpa using pending
  have noResetNow : s.dropPresented.rstNow = false := State.rstNow_of_none (s := s.dropPresented) noReset
  rw [step_of_held pending noFault noReset, runMicros_cons_poll noResetNow, adc, flag]
  show Host.Outcome.next { s.dropPresented.gapStep with pending := .adcPoll none :: rest } = _
  rw [← held]

/-- A gap leaves a hung block hung. -/
theorem State.HungWith.gapStep {s : State} {rest : List Micro} (hung : s.HungWith rest) :
    s.dropPresented.gapStep.HungWith rest ∧ s.HangKept s.dropPresented.gapStep := by
  obtain ⟨⟨pending, flag, noFault⟩, still, noReset⟩ := hung
  have stillThen : s.dropPresented.convEnabled = false := still
  have adc : s.dropPresented.gapStep.adc = s.adc := State.gapStep_adc_of_disabled stillThen
  refine ⟨⟨⟨by simpa using pending, by rw [adc, flag], by simpa using noFault⟩, ?_, by simp [noReset]⟩, ?_⟩
  · simpa only [State.convEnabled, adc] using still
  · exact {
      adc := adc
      pwm := s.dropPresented.gapStep_pwmKept
      pin := by simp
      mot := by simp
      ctl := by simp
      res := by simp
      convs := State.gapStep_convs_of_disabled stillThen
      draws := by simp
      params := by simp
      trace := State.gapStep_trace_of_disabled stillThen }

/-- THE HANG LASTS: after any number of steps the block is hung as it was, and nothing has moved but a running timer. -/
theorem run_of_hung {rest : List Micro} (k : Nat) {s : State} (hung : s.HungWith rest) :
    ∃ t, Host.Core.run Sys2Proof.core k s = .next t ∧ t.HungWith rest ∧ s.HangKept t := by
  induction k generalizing s with
  | zero => exact ⟨s, run_zero s, hung, .refl s⟩
  | succ k ih =>
    obtain ⟨hungThen, kept⟩ := hung.gapStep
    obtain ⟨t, ran, hungLast, keptLast⟩ := ih hungThen
    exact ⟨t, by rw [run_succ_of_next (step_of_hung hung), ran], hungLast, kept.trans keptLast⟩

/-- A read on a converter that cannot convert starts the hang: all of `readStarted` is kept. -/
theorem runMicros_adcRead_hung {s : State} (calm : s.Calm) (flag : s.adc.done = false) (noFault : s.ctl.fault = false)
    (cannot : s.canConvert = false) (channel : Nat) :
    (runMicros (adcReadMicros none channel) s).HungWith afterPoll ∧
      (readStarted channel s).HangKept (runMicros (adcReadMicros none channel) s) := by
  obtain ⟨agree, held⟩ := runMicros_adcRead_held calm flag (.inl cannot) channel []
  rw [List.append_nil] at agree held
  rw [List.append_nil] at held
  have timer : s.PwmKept (runMicros (adcReadMicros none channel) s) := runMicros_pwmKept rfl calm.1
  have cannotThen : (runMicros (adcReadMicros none channel) s).canConvert = false := by
    rw [State.canConvert, agree.adc]
    exact cannot
  refine ⟨⟨⟨held, by rw [agree.adc]; exact flag, by rw [agree.ctl]; exact noFault⟩,
    State.convEnabled_of_canConvert cannotThen, agree.rst.trans calm.1⟩, ?_⟩
  exact ⟨agree.adc, timer, agree.pin, agree.mot, agree.ctl, agree.res, agree.convs, agree.draws, agree.params,
    agree.trace⟩

/-- Settles O22: the read leads into the hang, and by induction on the number of steps the hang lasts. -/
theorem readOnDisabledConverterHangsForever : Obligations.ReadOnDisabledConverterHangsForever := by
  unfold Obligations.ReadOnDisabledConverterHangsForever
  intro s channel calm flag infinite noFault disabled
  have cannot : s.canConvert = false := by
    rcases disabled with off | noClock
    · simp [State.canConvert, off]
    · simp [State.canConvert, noClock]
  obtain ⟨hung, started⟩ := runMicros_adcRead_hung calm flag noFault cannot channel.toNat
  refine ⟨runMicros (adcReadMicros none channel.toNat) s, by rw [← infinite]; rfl, fun k => ?_⟩
  obtain ⟨t, ran, hungLast, lasted⟩ := run_of_hung k hung
  have kept := started.trans lasted
  exact ⟨t, ran, hungLast, hungLast.cmdReady, kept.adc, kept.pwm, kept.pin, kept.mot, kept.ctl, kept.res, kept.convs,
    kept.draws, kept.params, kept.trace⟩

end Sys2Proof.Machine

/-! The Temperature Transducer (42_temperature.md): the formula on numbers (R130, R134, R135), its 16-bit word, and what
TEMP_CONV leaves in RES. -/

namespace Sys2Proof.Machine

/-! ## The formula (R130, R135) -/

/-- For any reference voltage the formula is monotonic in the sample (R135 (a)). -/
theorem temperature_mono (vrefMv : Nat) : Monotone (temperature vrefMv) := fun _ _ le =>
  Nat.div_le_div_right (Nat.mul_le_mul_right _ (Nat.mul_le_mul_left _ le))

@[simp] theorem temperature_zero (vrefMv : Nat) : temperature vrefMv 0 = 0 := by
  simp [temperature]

/-- Full scale is a tenth of the reference voltage in millivolts (R134). -/
theorem temperature_fullScale (vrefMv : Nat) : temperature vrefMv 1023 = vrefMv / 10 := by
  simp only [temperature, Config.maxTemperature, Config.maxDigitalValue, Config.maxSensorMv]
  omega

/-- At 2.56 V the formula is `256 s div 1023` (R135). -/
theorem temperature_of_vref2560 (sample : Nat) : temperature 2560 sample = 256 * sample / 1023 := by
  simp only [temperature, Config.maxTemperature, Config.maxDigitalValue, Config.maxSensorMv]
  omega

/-! ## The word (R134) -/

/-- The temperature of any sample fits 16 bits if VREF_mV meets the constraint of 00_scope.md R10. -/
theorem temperature_lt_two_pow_16 {vrefMv : Nat} (vref : vrefMv < 655360) (sample : BitVec 10) :
    temperature vrefMv sample.toNat < 2 ^ 16 := by
  have inRange : sample.toNat ≤ 1023 := by omega
  calc temperature vrefMv sample.toNat
      ≤ temperature vrefMv 1023 := temperature_mono vrefMv inRange
    _ = vrefMv / 10 := temperature_fullScale vrefMv
    _ < 2 ^ 16 := by omega

theorem tempWord_toNat {p : Params} (vref : p.vrefMv < 655360) (sample : BitVec 10) :
    (tempWord p sample).toNat = temperature p.vrefMv sample.toNat := by
  rw [tempWord, BitVec.toNat_ofNat, Nat.mod_eq_of_lt (temperature_lt_two_pow_16 vref sample)]

/-- The word is as monotonic as the number, for it does not wrap. -/
theorem tempWord_mono {p : Params} (vref : p.vrefMv < 655360) {a b : BitVec 10} (le : a.toNat ≤ b.toNat) :
    (tempWord p a).toNat ≤ (tempWord p b).toNat := by
  rw [tempWord_toNat vref, tempWord_toNat vref]
  exact temperature_mono _ le

@[simp] theorem tempWord_zero (p : Params) : tempWord p 0#10 = 0#16 := by
  simp [tempWord]

/-- At 2.56 V the word is `256 s div 1023`. -/
theorem tempWord_of_vref2560 {p : Params} (vref : p.vrefMv = 2560) (sample : BitVec 10) :
    tempWord p sample = BitVec.ofNat 16 (256 * sample.toNat / 1023) := by
  rw [tempWord, vref, temperature_of_vref2560]

/-! ## TEMP_CONV -/

/-- In a calm state the operand's temperature ends up in RES. -/
theorem exec_tempConv_res {s : State} (calm : s.Calm) (sample : BitVec 10) :
    ∃ t, exec (.tempConv sample) s = .next t ∧ t.res = tempWord s.params sample := by
  obtain ⟨agree, -, -⟩ := runMicros_plain (ms := tempConvMicros (.imm sample)) rfl calm
  rw [replay_tempConv] at agree
  exact ⟨_, rfl, agree.res⟩

/-- Settles O33: RES holds the word of the temperature, whose formula is monotonic and does not wrap; the three values are
the formula at 0 and at 2.56 V. -/
theorem tempConvIsMonotonicWithItsEndpoints : Obligations.TempConvIsMonotonicWithItsEndpoints := by
  unfold Obligations.TempConvIsMonotonicWithItsEndpoints
  intro s a b calm vref le
  obtain ⟨t, execA, resA⟩ := exec_tempConv_res calm a
  obtain ⟨u, execB, resB⟩ := exec_tempConv_res calm b
  refine ⟨t, u, execA, execB, ?monotonic, ?zero, fun vref2560 => ?endpoints⟩
  case monotonic =>
    rw [resA, resB]
    exact tempWord_mono vref le
  case zero =>
    rintro rfl
    rw [resA, tempWord_zero]
  case endpoints =>
    rw [resB, tempWord_of_vref2560 vref2560]
    constructor <;> (rintro rfl; rfl)

end Sys2Proof.Machine

/-! The PWM Generator (43_pwm.md): the compare value is a ceiling (R143), what one tick of TMR writes (R150), and how many
counts of a period the output is high for (R151, R152). -/

namespace Sys2Proof.Machine

/-! ## The compare value (R143, R144) -/

/-- The quotient is the ceiling of `255 d / 100`: it is below exactly the integers that this rational is below. -/
theorem compareNat_le_iff (d n : Nat) : compareNat d ≤ n ↔ 255 * d ≤ 100 * n := by
  simp only [compareNat, Config.pwmTop]
  omega

theorem compareNat_le_255 {d : Nat} (inContract : d ≤ 100) : compareNat d ≤ 255 :=
  (compareNat_le_iff d 255).mpr (by omega)

/-- A duty within the contract has a compare value that PWM.CMP holds without wrapping. -/
theorem compareWord_toNat {duty : BitVec 8} (inContract : duty.toNat ≤ 100) :
    (compareWord duty).toNat = compareNat duty.toNat := by
  have fits : compareNat duty.toNat < 2 ^ 8 := Nat.lt_succ_of_le (compareNat_le_255 inContract)
  rw [compareWord, BitVec.toNat_ofNat, Nat.mod_eq_of_lt fits]

/-- Settles O35: the word is the number, and the number is the ceiling; the five duties of the loop are evaluated. -/
theorem compareValueIsTheCeiling : Obligations.CompareValueIsTheCeiling := by
  unfold Obligations.CompareValueIsTheCeiling
  refine ⟨fun d inContract => ⟨compareWord_toNat inContract, compareNat_le_255 inContract, fun n => ?_⟩,
    rfl, rfl, rfl, rfl, rfl⟩
  exact (compareNat_le_iff d.toNat n).symm

/-! ## The count (R149, R150) -/

theorem State.tmrEnabled_iff (s : State) : s.tmrEnabled = true ↔ s.pwm.ps ≠ 0#3 := by
  simp [State.tmrEnabled]

/-- With a clock a tick counts up, and 255 is followed by 0. -/
theorem State.tmrTick_cnt_of_clock {s : State} (clock : s.pwm.ps ≠ 0#3) :
    s.tmrTick.pwm.cnt.toNat = (s.pwm.cnt.toNat + 1) % 256 := by
  simp [s.tmrEnabled_iff.mpr clock]

theorem State.tmrTick_cnt_of_noClock {s : State} (noClock : s.pwm.ps = 0#3) : s.tmrTick.pwm.cnt = s.pwm.cnt := by
  simp [State.tmrEnabled, noClock]

/-- Of a gap, the timer sees its ticks alone. -/
theorem State.gapStep_pwm_eq_tmrTicks (s : State) : s.gapStep.pwm = (s.tmrTicks (s.gapAt 0).ticks).pwm := by
  simp [State.gapStep, State.tmrEnabled]

/-- Settles O37: the tick by whether the timer has a clock, and the ticks of a gap by those of `tmrTicks`. -/
theorem tickCountsModulo256 : Obligations.TickCountsModulo256 := by
  unfold Obligations.TickCountsModulo256
  refine fun s => ⟨State.tmrTick_cnt_of_clock, State.tmrTick_cnt_of_noClock, rfl, ?_⟩
  rw [s.gapStep_pwm_eq_tmrTicks, s.tmrTicks_eq_iterate]

/-! ## The output (R151, R152) -/

theorem State.pwmOut_of_driven {s : State} (enabled : s.pin.pwmOe = true) (fast : s.pwm.fast = true)
    (ninv : s.pwm.ninv = true) : s.pwmOut = some (decide (s.pwm.cnt.toNat < s.pwm.cmp.toNat)) := by
  simp [State.pwmOut, enabled, fast, ninv]

/-- At a count of the period the driven output is high exactly if the count is below the compare value. -/
theorem State.pwmOut_high_at_count {s : State} (enabled : s.pin.pwmOe = true) (fast : s.pwm.fast = true)
    (ninv : s.pwm.ninv = true) {count : Nat} (inPeriod : count < 256) :
    ({ s with pwm := { s.pwm with cnt := BitVec.ofNat 8 count } }.pwmOut == some true) =
      decide (count < s.pwm.cmp.toNat) := by
  have level := State.pwmOut_of_driven (s := { s with pwm := { s.pwm with cnt := BitVec.ofNat 8 count } })
    enabled fast ninv
  rw [level]
  simp [Nat.mod_eq_of_lt inPeriod]

/-- Settles O38: the counts with a high output are those below CMP, and all of these lie in the period. -/
theorem outputIsHighForCompareTicks : Obligations.OutputIsHighForCompareTicks := by
  unfold Obligations.OutputIsHighForCompareTicks
  intro s enabled fast ninv
  have highBelowCmp := fun count (inPeriod : count ∈ List.range 256) =>
    State.pwmOut_high_at_count enabled fast ninv (List.mem_range.mp inPeriod)
  have cmpInPeriod : s.pwm.cmp.toNat ≤ 256 := s.pwm.cmp.isLt.le
  rw [List.filter_congr highBelowCmp, ← List.Ico.zero_bot, List.Ico.filter_lt_of_ge cmpInPeriod, List.Ico.length,
    Nat.sub_zero]

end Sys2Proof.Machine

/-! The Motor Actuator (44_motor.md): what MOT_INIT drives and records (R162, R163), and the patterns MOT_ROTATE passes
through before its compare write (R166). -/

namespace Sys2Proof.Machine

/-! ## MOT_INIT (R162, R163) -/

theorem decodeWord_motInit {w : CmdWord} (op : opField w = 0x06#8) : decodeWord w = .ok .motInit := by
  unfold decodeWord
  rw [op]
  rfl

/-- Both direction pins driven, both low; PWM_OE as it was. -/
def Pins.drivenLow (p : Pins) : Pins := { p with in1Oe := true, in2Oe := true, in1 := false, in2 := false }

@[simp] theorem Pins.drivenLow_drivenLow (p : Pins) : p.drivenLow.drivenLow = p.drivenLow := rfl

/-- The initialisation of a calm state ends calm, with the pins driven low, Stopped, its four pin writes recorded, and the
timer at most ticked. -/
theorem runMicros_motInit {s : State} (calm : s.Calm) :
    (runMicros motInitMicros s).Agree { s with
        pin := s.pin.drivenLow
        mot := { run := false, dir := .cw, speed := 0#8 }
        trace := s.trace ++ motInitEvents } ∧
      s.PwmKept (runMicros motInitMicros s) ∧ (runMicros motInitMicros s).Calm ∧
      (runMicros motInitMicros s).pending = [] := by
  obtain ⟨agree, calmThen, ended⟩ := runMicros_plain (ms := motInitMicros) rfl calm
  rw [replay_motInit] at agree
  exact ⟨agree, runMicros_pwmKept rfl calm.1, calmThen, ended⟩

/-- Initialising an actuator that is Stopped with its pins driven low keeps every register. -/
theorem runMicros_motInit_allKept {s : State} (calm : s.Calm) (low : s.pin.drivenLow = s.pin)
    (stopped : s.mot = { run := false, dir := .cw, speed := 0#8 }) : s.AllKept (runMicros motInitMicros s) := by
  obtain ⟨agree, timer, -, -⟩ := runMicros_motInit calm
  rw [low, ← stopped] at agree
  exact agree.allKept timer

/-- Settles O40: the initialisation is a plain run that spares the timer, and the state it leaves is initialised
already. -/
theorem motInitDrivesBothPinsLow : Obligations.MotInitDrivesBothPinsLow := by
  unfold Obligations.MotInitDrivesBothPinsLow
  refine ⟨fun _ => decodeWord_motInit, fun s calm => ⟨_, rfl, ?_⟩⟩
  obtain ⟨agree, timer, calmThen, ended⟩ := runMicros_motInit calm
  have low : (runMicros motInitMicros s).pin.drivenLow = (runMicros motInitMicros s).pin := by
    rw [agree.pin]
    exact s.pin.drivenLow_drivenLow
  exact ⟨agree.pin, agree.mot, agree.adc, timer, agree.ctl, agree.res, agree.convs, agree.draws,
    ⟨agree.params, agree.ain, agree.cmds, agree.rst⟩, ended, agree.trace, _, rfl,
    runMicros_motInit_allKept calmThen low agree.mot⟩

/-! ## Inside MOT_ROTATE (R166) -/

@[simp] theorem dirBit_eq_true_iff (dir : Direction) : dirBit dir = true ↔ dir = .ccw := by
  cases dir <;> simp [dirBit]

/-- After the start and the first pin write only IN1 is the request's. -/
theorem replay_motRotate_firstPin (dir : Direction) (speed : BitVec 8) (s : State) :
    (replay ((motRotateMicros dir speed).take 2) s).pin = { s.pin with in1 := dirBit dir } := by
  cases dir <;> rfl

/-- After the second pin write the pattern is the request's. -/
theorem replay_motRotate_bothPins (dir : Direction) (speed : BitVec 8) (s : State) :
    (replay ((motRotateMicros dir speed).take 3) s).pin = { s.pin with in1 := dirBit dir, in2 := !dirBit dir } := by
  cases dir <;> rfl

/-- A micro-step that does not write PWM.CMP. -/
def Micro.sparesCompare (m : Micro) : Bool :=
  match m with
  | .pwmCmp _ => false
  | _ => true

theorem Micro.apply_pwm_cmp {m : Micro} (spares : m.sparesCompare = true) (s : State) :
    (m.apply s).pwm.cmp = s.pwm.cmp := by
  cases m with
  | pwmCmp duty => exact absurd spares Bool.false_ne_true
  | _ => rfl

theorem replay_pwm_cmp {ms : List Micro} (spare : ms.all Micro.sparesCompare = true) (s : State) :
    (replay ms s).pwm.cmp = s.pwm.cmp := by
  induction ms generalizing s with
  | nil => rfl
  | cons m ms ih =>
    simp only [List.all_cons, Bool.and_eq_true] at spare
    obtain ⟨spareHead, spareTail⟩ := spare
    rw [replay_cons, ih spareTail, Micro.apply_pwm_cmp spareHead]

/-- The compare write inside PWM_START is the ninth micro-step of MOT_ROTATE. -/
theorem motRotateMicros_take_sparesCompare (dir : Direction) (speed : BitVec 8) {k : Nat} (before : k ≤ 8) :
    ((motRotateMicros dir speed).take k).all Micro.sparesCompare = true := by
  have firstEight : ((motRotateMicros dir speed).take 8).all Micro.sparesCompare = true := by cases dir <;> rfl
  rw [List.all_eq_true] at firstEight ⊢
  exact fun m mem => firstEight m (List.take_subset_take_left _ before mem)

/-- Settles O42: inside a calm rotation the state agrees with the micro-steps executed so far, of which the second and the
third write IN1 and IN2 and none of the first eight the compare value. -/
theorem motRotateTransientPatterns : Obligations.MotRotateTransientPatterns := by
  unfold Obligations.MotRotateTransientPatterns
  intro s dir speed calm
  have inside := State.inside_agree (motRotateMicros_plain dir speed) calm (State.Agree.refl s)
  have first : (s.inside (motRotateMicros dir speed) 2).pin = { s.pin with in1 := dirBit dir } :=
    (inside 2).pin.trans (replay_motRotate_firstPin dir speed s)
  have second : (s.inside (motRotateMicros dir speed) 3).pin = { s.pin with in1 := dirBit dir, in2 := !dirBit dir } :=
    (inside 3).pin.trans (replay_motRotate_bothPins dir speed s)
  have compare : ∀ k ≤ 8, (s.inside (motRotateMicros dir speed) k).pwm.cmp = s.pwm.cmp := fun k before =>
    (inside k).cmp.trans (replay_pwm_cmp (motRotateMicros_take_sparesCompare dir speed before) s)
  simp only [first, second, dirBit_eq_true_iff, true_and]
  exact ⟨and_comm, compare⟩

end Sys2Proof.Machine

/-! The Control Loop (45_control_loop.md): NOP (R180), the bands of the temperature (R181, R182), and the tier code that
BAND_SEL leaves in RES (R183). -/

namespace Sys2Proof.Machine

/-! ## NOP (R180) -/

theorem decodeWord_nop {w : CmdWord} (op : opField w = 0x00#8) : decodeWord w = .ok .nop := by
  unfold decodeWord
  rw [op]
  rfl

/-- What NOP runs is the empty operation, as an ignored word does. -/
theorem exec_nop (s : State) : exec .nop s = .next (acceptReserved 0x00#8 s) := rfl

/-- Settles O47: NOP is the start and the return of an empty operation, which keep every register of a calm state. -/
theorem nopChangesNothing : Obligations.NopChangesNothing := by
  unfold Obligations.NopChangesNothing
  refine ⟨fun _ => decodeWord_nop, decodeWord_nop rfl, fun s calm => ⟨_, exec_nop s, ?_⟩⟩
  obtain ⟨kept, recorded, ended⟩ := acceptReserved_ignores 0x00#8 calm
  exact ⟨kept, ended, recorded⟩

/-! ## The bands (R181, R182) -/

/-- The bands are 30 degrees wide, and the highest is open above. -/
theorem bandTier_toNat (temp : BitVec 16) : (bandTier temp).toNat = min 4 (temp.toNat / 30) := by
  unfold bandTier
  split_ifs <;> simp only [BitVec.toNat_ofNat] <;> omega

/-- A code in RES is the temperature's tier exactly if it is the number of the temperature's band. -/
theorem setWidth_bandTier_eq_iff (temp code : BitVec 16) :
    (bandTier temp).setWidth 16 = code ↔ min 4 (temp.toNat / 30) = code.toNat := by
  rw [← BitVec.toNat_inj, BitVec.toNat_setWidth_of_le (by decide), bandTier_toNat]

/-! ## BAND_SEL (R183) -/

theorem decodeWord_bandSel {w : CmdWord} (op : opField w = 0x09#8) : decodeWord w = .ok (.bandSel (bField w)) := by
  unfold decodeWord
  rw [op]
  rfl

/-- The selection in a calm state ends with the tier of its temperature in RES, its start and return recorded, and the
timer at most ticked. -/
theorem runMicros_bandSel {s : State} (calm : s.Calm) (src : TempSrc) :
    (runMicros (bandSelMicros src) s).Agree { s with
        res := (bandTier (tempOf src s)).setWidth 16
        trace := s.trace ++ [.opStart 0x09#8, .opReturn 0x09#8] } ∧
      s.PwmKept (runMicros (bandSelMicros src) s) ∧ (runMicros (bandSelMicros src) s).pending = [] := by
  obtain ⟨agree, -, ended⟩ := runMicros_plain (ms := bandSelMicros src) rfl calm
  rw [replay_bandSel] at agree
  exact ⟨agree, runMicros_pwmKept rfl calm.1, ended⟩

/-- Settles O48: BAND_SEL is a plain run that writes RES alone, and the number of the band tells the five codes apart. -/
theorem bandSelWritesTheTierCode : Obligations.BandSelWritesTheTierCode := by
  unfold Obligations.BandSelWritesTheTierCode
  refine ⟨fun _ => decodeWord_bandSel, fun s temp calm => ⟨_, rfl, ?_⟩⟩
  obtain ⟨agree, timer, ended⟩ := runMicros_bandSel calm (.imm temp)
  have resIff : ∀ code, (runMicros (bandSelMicros (.imm temp)) s).res = code ↔
      min 4 (temp.toNat / 30) = code.toNat := by
    rw [agree.res]
    exact setWidth_bandTier_eq_iff temp
  have tier4 : min 4 (temp.toNat / 30) = 4 ↔ 120 ≤ temp.toNat := by omega
  have tier3 : min 4 (temp.toNat / 30) = 3 ↔ 90 ≤ temp.toNat ∧ temp.toNat < 120 := by omega
  have tier2 : min 4 (temp.toNat / 30) = 2 ↔ 60 ≤ temp.toNat ∧ temp.toNat < 90 := by omega
  have tier1 : min 4 (temp.toNat / 30) = 1 ↔ 30 ≤ temp.toNat ∧ temp.toNat < 60 := by omega
  have tier0 : min 4 (temp.toNat / 30) = 0 ↔ temp.toNat < 30 := by omega
  exact ⟨(resIff 4).trans tier4, (resIff 3).trans tier3, (resIff 2).trans tier2, (resIff 1).trans tier1,
    (resIff 0).trans tier0, agree.adc, timer, agree.pin, agree.mot, agree.ctl, agree.convs, agree.draws,
    ⟨agree.params, agree.ain, agree.cmds, agree.rst⟩, ended, agree.trace⟩

end Sys2Proof.Machine

/-! Reset and boot (70_reset_and_hazards.md): `rst` wins (R230 to R233), with AUTORUN = 1 the step in IDLE is CTL_RUN
(R234), and what the boot sequence leaves (R236, R237). -/

namespace Sys2Proof.Machine

/-! ## Reset (R230 to R233) -/

/-- A step in which `rst` is asserted is the reset, whatever SEQ was doing; a word presented then is lost. -/
theorem step_of_rst {s : State} (reset : s.rstNow = true) : step s = .next s.dropPresented.applyReset := by
  have action : s.action = .reset := by simp [State.action, reset]
  simp only [step, action]

/-- Settles O14: the step is the reset, and BUSY is 0 after it. -/
theorem resetWinsOverEverything : Obligations.ResetWinsOverEverything := by
  unfold Obligations.ResetWinsOverEverything
  intro s reset
  have atReset := s.dropPresented.applyReset_atReset
  have noConversion : s.dropPresented.applyReset.convEnabled = false := State.convEnabled_of_idle rfl
  exact ⟨_, step_of_rst reset, atReset, noConversion, by simp, by simp⟩

/-! ## The start with AUTORUN = 1 (R234) -/

/-- With AUTORUN = 1 the step in IDLE is the one CTL_RUN makes, and the word presented is lost. -/
theorem step_of_autorun {s : State} (noReset : s.rstNow = false) (noFault : s.ctl.fault = false)
    (ended : s.pending = []) (idle : s.ctl.phase = Phase.idle.code) (autorun : s.params.autorun = true) :
    step s = exec .ctlRun s.dropPresented := by
  have action : s.action = .start := by simp [State.action, noReset, noFault, ended, idle, autorun]
  simp only [step, action]
  rfl

theorem State.cmdReady_of_autorun {s : State} (autorun : s.params.autorun = true) : s.cmdReady = false := by
  simp [State.cmdReady, autorun]

/-! ## Plain phases in a calm state -/

theorem replay_agree (ms : List Micro) {s t : State} (agree : s.Agree t) : (replay ms s).Agree (replay ms t) := by
  induction ms generalizing s t with
  | nil => exact agree
  | cons m ms ih => exact ih (m.apply_agree agree)

/-- What a phase executes is read from the parameters and the control registers alone. -/
theorem State.Agree.phaseMicros_congr {s t : State} (agree : s.Agree t) (p : Phase) :
    phaseMicros p s = phaseMicros p t := by
  cases p <;> simp only [phaseMicros, agree.params, agree.ctl]

/-- Work begun in `s` has come calmly to its end in `u`, which agrees with `t`; the timer has at most ticked since `s`. -/
structure State.SettlesAs (s t u : State) : Prop where
  agree : u.Agree t
  timer : s.PwmKept u
  calm : u.Calm
  ended : u.pending = []

/-- Plain micro-steps that spare the timer settle as the same micro-steps executed alone. -/
theorem runMicros_settlesAs {r s t : State} {ms : List Micro} (agree : s.Agree t) (timer : r.PwmKept s) (calm : s.Calm)
    (plain : ms.all Micro.plain = true) (spares : ms.all Micro.sparesTimer = true) :
    r.SettlesAs (replay ms t) (runMicros ms s) := by
  obtain ⟨agreeRun, calmThen, ended⟩ := runMicros_plain plain calm
  exact ⟨agreeRun.trans (replay_agree ms agree), timer.trans' (runMicros_pwmKept spares calm.1), calmThen, ended⟩

/-- The first of several phases, where its micro-steps are plain and spare the timer, settles, and the others follow. -/
theorem runPhases_succ_settlesAs {n : Nat} {r s t : State} {p : Phase} {ms : List Micro} (settled : r.SettlesAs t s)
    (phase : t.ctl.phase = p.code) (notIdle : p ≠ .idle) (micros : phaseMicros p t = .ok ms)
    (plain : ms.all Micro.plain = true) (spares : ms.all Micro.sparesTimer = true) :
    ∃ u, runPhases (n + 1) s = runPhases n u ∧ r.SettlesAs (replay ms t) u := by
  obtain ⟨agree, timer, calm, ended⟩ := settled
  have next : s.nextPhase = some p := State.nextPhase_of ended ((congrArg Ctl.phase agree.ctl).trans phase) notIdle
  exact ⟨_, runPhases_succ next ((agree.phaseMicros_congr p).trans micros),
    runMicros_settlesAs agree timer calm plain spares⟩

/-! ## The boot sequence (R236) -/

/-- A state after CTL_RUN's boot: the converter enabled with the boot parameters, both direction pins driven low, Stopped,
the loop on and its first sample next. The timer is as it was. -/
def State.booted (s : State) : State :=
  { s with
    adc := { s.adc with refs := s.params.refsSel, div := s.params.divSel, en := true }
    pin := s.pin.drivenLow
    mot := { run := false, dir := .cw, speed := 0#8 }
    ctl := { s.ctl with loop := true, phase := Phase.itSample.code }
    trace := s.trace ++ [.opStart 0x0B#8, .opStart 0x01#8, .opReturn 0x01#8] ++ motInitEvents ++ [.dispInit] }

/-- The start of CTL_RUN and its three boot phases, executed alone. -/
theorem replay_boot (s : State) :
    replay [.dispInit, .ctlPhase .itSample]
      (replay (motInitMicros ++ [.ctlPhase .bootDisp])
        (replay (adcInitMicros s.params.refsSel s.params.divSel ++ [.ctlPhase .bootMot])
          (replay [.opStart 0x0B#8, .ctlLoop true, .ctlPhase .bootAdc] s))) = s.booted := by
  simp [replay_append, replay_adcInit, replay_motInit, replay_cons, replay_nil, Micro.apply, State.emit, State.booted,
    Pins.drivenLow]

/-- CTL_RUN in a calm state leads through the three boot phases to the first sample phase. -/
theorem exec_ctlRun_settlesAs_booted {s : State} (calm : s.Calm) :
    ∃ t, exec .ctlRun s = .next t ∧ s.SettlesAs s.booted t := by
  have entered : s.SettlesAs (replay [.opStart 0x0B#8, .ctlLoop true, .ctlPhase .bootAdc] s)
      (runMicros [.opStart 0x0B#8, .ctlLoop true, .ctlPhase .bootAdc] s) :=
    runMicros_settlesAs (.refl s) ⟨rfl, rfl, rfl, rfl, fun _ => rfl⟩ calm rfl rfl
  obtain ⟨a, toAdc, adcDone⟩ := runPhases_succ_settlesAs (n := 2) (p := .bootAdc) entered rfl (by decide) rfl rfl rfl
  obtain ⟨b, toMot, motDone⟩ := runPhases_succ_settlesAs (n := 1) (p := .bootMot) adcDone rfl (by decide) rfl rfl rfl
  obtain ⟨c, toDisp, dispDone⟩ := runPhases_succ_settlesAs (n := 0) (p := .bootDisp) motDone rfl (by decide) rfl rfl rfl
  refine ⟨c, ?_, replay_boot s ▸ dispDone⟩
  calc exec .ctlRun s
      = runPhases 3 (runMicros [.opStart 0x0B#8, .ctlLoop true, .ctlPhase .bootAdc] s) := rfl
    _ = runPhases 2 a := toAdc
    _ = runPhases 1 b := toMot
    _ = runPhases 0 c := toDisp
    _ = .next c := rfl

/-! ## The boot state (R237) -/

/-- The observation port shows the five register groups and nothing else. -/
theorem State.readReg_congr {s t : State} (adc : t.adc = s.adc) (pwm : t.pwm = s.pwm) (pin : t.pin = s.pin)
    (mot : t.mot = s.mot) (ctl : t.ctl = s.ctl) : t.readReg = s.readReg := by
  funext n
  simp only [State.readReg, adc, pwm, pin, mot, ctl]

/-- Where the timer has no clock, a settled state shows on the observation port what the state it agrees with shows. -/
theorem State.SettlesAs.readReg {s t u : State} (settled : s.SettlesAs t u) (noClock : s.pwm.ps = 0#3)
    (count : t.pwm.cnt = s.pwm.cnt) : u.readReg = t.readReg := by
  obtain ⟨agree, ⟨_, _, _, _, still⟩, _, _⟩ := settled
  have pwm : u.pwm = t.pwm := by rw [agree.pwm, still noClock, ← count]
  exact State.readReg_congr agree.adc pwm agree.pin agree.mot agree.ctl

/-- Settles O16: the step of the reset state is CTL_RUN's boot, in which the timer has no clock, so that the registers read
as those of `State.booted`. -/
theorem bootStateOfTheDefaultBlock : Obligations.BootStateOfTheDefaultBlock := by
  unfold Obligations.BootStateOfTheDefaultBlock
  have starts : step State.reset = exec .ctlRun State.reset := step_of_autorun rfl rfl rfl rfl rfl
  obtain ⟨t, boots, settled⟩ := exec_ctlRun_settlesAs_booted (s := State.reset) ⟨rfl, rfl⟩
  have registers : t.readReg = State.reset.booted.readReg := settled.readReg rfl rfl
  have autorun : t.params.autorun = true := congrArg Params.autorun settled.agree.params
  have ctl : t.ctl = State.reset.booted.ctl := settled.agree.ctl
  refine ⟨t, starts.trans boots, ?registers, congrArg Ctl.phase ctl, congrArg Ctl.loop ctl, congrArg Ctl.mstate ctl,
    congrArg Mot.run settled.agree.mot, State.cmdReady_of_autorun autorun⟩
  case registers =>
    rw [registers]
    decide

end Sys2Proof.Machine

/-! The encoding (30_encoding.md): a word is its three fields (R80), the operand bits are the low bits of a field (R83), and
decoding and the assembled word are inverse up to the unused bits (R81, R82, R88). -/

namespace Sys2Proof

/-! ## Words, fields and lanes -/

/-- A word is its three fields put together (R80). -/
theorem word_eq_fields (w : CmdWord) : opField w ++ aField w ++ bField w = w := by
  have upper : opField w ++ aField w = w.extractLsb' 16 16 :=
    BitVec.extractLsb'_append_extractLsb'_eq_extractLsb' (by decide)
  rw [upper]
  exact BitVec.extractLsb'_append_extractLsb'

/-- The four byte lanes of a word put together are the word (20_memory.md R62). -/
theorem wordOfBytes_lanes (w : CmdWord) :
    wordOfBytes (w.extractLsb' 0 8) (w.extractLsb' 8 8) (w.extractLsb' 16 8) (w.extractLsb' 24 8) = w := by
  have lower : w.extractLsb' 8 8 ++ w.extractLsb' 0 8 = bField w :=
    BitVec.extractLsb'_append_extractLsb'_eq_extractLsb' (by decide)
  calc wordOfBytes (w.extractLsb' 0 8) (w.extractLsb' 8 8) (w.extractLsb' 16 8) (w.extractLsb' 24 8)
      = opField w ++ aField w ++ (w.extractLsb' 8 8 ++ w.extractLsb' 0 8) := BitVec.append_assoc
    _ = w := by rw [lower, word_eq_fields]

/-- What four lanes of a word decode to is what the word decodes to, whatever bytes follow. -/
theorem decodeBytes_bytesOfWord (w : CmdWord) (rest : List Byte) :
    decodeBytes (bytesOfWord w ++ rest) = (decodeWord w).map (fun i => (i, rest)) := by
  simp only [bytesOfWord, List.cons_append, List.nil_append, decodeBytes, wordOfBytes_lanes]
  cases decodeWord w <;> rfl

/-- An operand in the low bits of a wider field is read back whole. -/
@[simp] theorem extractLsb'_setWidth_operand {k n : Nat} (operand : BitVec k) (fits : k ≤ n) :
    (operand.setWidth n).extractLsb' 0 k = operand := by
  rw [BitVec.extractLsb'_setWidth_of_le (by omega), BitVec.extractLsb'_eq_self]

/-- The low bits of a field, all others 0, are the field masked by them. -/
theorem setWidth_extractLsb'_eq_mask {n : Nat} (field : BitVec n) {k : Nat} (fits : k ≤ n) :
    (field.extractLsb' 0 k).setWidth n = field &&& BitVec.ofNat n (2 ^ k - 1) := by
  have small : 2 ^ k - 1 < 2 ^ n := (Nat.sub_lt (Nat.two_pow_pos k) Nat.one_pos).trans_le (Nat.pow_le_pow_right (by decide) fits)
  apply BitVec.eq_of_toNat_eq
  rw [BitVec.toNat_and, BitVec.toNat_ofNat, Nat.mod_eq_of_lt small, Nat.and_two_pow_sub_one_eq_mod,
    BitVec.toNat_setWidth_of_le fits, BitVec.extractLsb'_toNat, Nat.shiftRight_zero]

@[simp] theorem Direction.ofCode_code (dir : Direction) : Direction.ofCode dir.code = dir := by cases dir <;> rfl

@[simp] theorem Direction.code_ofCode (c : BitVec 1) : (Direction.ofCode c).code = c := by decide +revert

/-! ## Decoding the assembled word -/

/-- Every operation's assembled word decodes to the operation. -/
@[simp] theorem decodeWord_encode (i : Instr) : decodeWord (encode i) = .ok i := by
  obtain ⟨op, a, b⟩ := Laws.fields_append i.op i.fieldA i.fieldB
  unfold decodeWord
  rw [encode, op, a, b]
  cases i with
  | adcInit refs div => simp [Instr.op, Instr.fieldA, Instr.fieldB]
  | tempConv sample => simp [Instr.op, Instr.fieldB]
  | pwmStart duty => simp [Instr.op, Instr.fieldB]
  | motRotate dir speed => simp [Instr.op, Instr.fieldA, Instr.fieldB]
  | _ => rfl

/-- Settles O1: the lanes give back the assembled word, and the assembled word the operation. -/
theorem decodeBytesInvertsEncodeBytes : Obligations.DecodeBytesInvertsEncodeBytes := by
  unfold Obligations.DecodeBytesInvertsEncodeBytes
  intro i rest
  rw [encodeBytes, decodeBytes_bytesOfWord, decodeWord_encode]
  rfl

/-! ## Which words decode (R82, R84, R85) -/

/-- A word whose code is one of the twelve decodes. -/
theorem decodeWord_of_le {w : CmdWord} (code : (opField w).toNat ≤ 0x0B) : ∃ i, decodeWord w = .ok i := by
  unfold decodeWord
  generalize (opField w).toNat = n at code
  interval_cases n <;> exact ⟨_, rfl⟩

/-- A decoded word's code is one of the twelve. -/
theorem le_of_decodeWord {w : CmdWord} {i : Instr} (decoded : decodeWord w = .ok i) : (opField w).toNat ≤ 0x0B := by
  by_contra above
  rw [Machine.decodeWord_of_reserved (by omega)] at decoded
  cases decoded

/-- A word that is rejected has a reserved code, and the rejection names it. -/
theorem decodeWord_error {w : CmdWord} {e : DecodeReject} (rejected : decodeWord w = .error e) :
    0x0C ≤ (opField w).toNat ∧ e = .reservedOp (opField w) := by
  rcases Nat.lt_or_ge (opField w).toNat 0x0C with twelve | reserved
  · obtain ⟨i, decoded⟩ := decodeWord_of_le (w := w) (by omega)
    rw [decoded] at rejected
    cases rejected
  · rw [Machine.decodeWord_of_reserved reserved] at rejected
    cases rejected
    exact ⟨reserved, rfl⟩

/-- Settles O3: the reserved codes are rejected by name, and nothing else is rejected. -/
theorem decodeRejectsExactlyReservedCodes : Obligations.DecodeRejectsExactlyReservedCodes := by
  unfold Obligations.DecodeRejectsExactlyReservedCodes
  refine fun w => ⟨⟨fun rejected => ?_, Machine.decodeWord_of_reserved⟩, fun e rejected => ?_⟩
  · obtain ⟨reserved, -⟩ := decodeWord_error rejected
    exact reserved
  · obtain ⟨-, named⟩ := decodeWord_error rejected
    exact named

/-- A word under a mask is masked field by field. -/
theorem and_maskOfFields (w : CmdWord) (maskA : BitVec 8) (maskB : BitVec 16) :
    w &&& (0xFF#8 ++ maskA ++ maskB) = opField w ++ (aField w &&& maskA) ++ (bField w &&& maskB) := by
  conv_lhs => rw [← word_eq_fields w, BitVec.and_append, BitVec.and_append]
  rw [show opField w &&& 0xFF#8 = opField w from BitVec.and_allOnes]

/-- An operation's assembled word is a word with its unused bits cleared, if it is so in each of the three fields. -/
theorem encode_of_fields {w : CmdWord} {i : Instr} {maskA : BitVec 8} {maskB : BitVec 16} (op : (opField w).toNat = i.op.toNat)
    (used : usedBits i.op = 0xFF#8 ++ maskA ++ maskB) (a : i.fieldA = aField w &&& maskA)
    (b : i.fieldB = bField w &&& maskB) : encode i = w &&& usedBits (opField w) := by
  rw [BitVec.eq_of_toNat_eq op, used, and_maskOfFields, BitVec.eq_of_toNat_eq op, ← a, ← b, encode]

/-- The assembled word of what a word decodes to is the word with its unused bits cleared: OP whole, and of either field
the low bits that hold the operand (R83). -/
theorem encode_of_decodeWord {w : CmdWord} {i : Instr} (decoded : decodeWord w = .ok i) :
    encode i = w &&& usedBits (opField w) := by
  have noA : 0#8 = aField w &&& 0#8 := BitVec.and_zero.symm
  have noB : 0#16 = bField w &&& 0#16 := BitVec.and_zero.symm
  have wholeB : bField w = bField w &&& 0xFFFF#16 := BitVec.and_allOnes.symm
  unfold decodeWord at decoded
  split at decoded <;> cases decoded <;> rename_i op
  case h_1 | h_4 | h_7 | h_9 | h_11 | h_12 => exact encode_of_fields op rfl noA noB
  case h_3 | h_10 => exact encode_of_fields op rfl noA wholeB
  case h_5 | h_6 => exact encode_of_fields op rfl noA (setWidth_extractLsb'_eq_mask _ (by decide))
  case h_2 =>
    exact encode_of_fields op rfl (setWidth_extractLsb'_eq_mask _ (by decide)) (setWidth_extractLsb'_eq_mask _ (by decide))
  case h_8 =>
    refine encode_of_fields (maskA := 1#8) op rfl ?_ (setWidth_extractLsb'_eq_mask _ (by decide))
    rw [Instr.fieldA, Direction.code_ofCode]
    exact setWidth_extractLsb'_eq_mask _ (by decide)

theorem encode_injective {i j : Instr} (same : encode i = encode j) : i = j := by
  have decoded := congrArg decodeWord same
  rw [decodeWord_encode, decodeWord_encode] at decoded
  exact Except.ok.inj decoded

/-- Settles O2: a word with one of the twelve codes decodes to some operation, whose assembled word is the word on its used
bits; assembled words tell operations apart. -/
theorem decodeReadsExactlyTheUsedBits : Obligations.DecodeReadsExactlyTheUsedBits := by
  unfold Obligations.DecodeReadsExactlyTheUsedBits
  refine fun w i => ⟨fun decoded => ⟨le_of_decodeWord decoded, encode_of_decodeWord decoded⟩, ?_⟩
  rintro ⟨code, used⟩
  obtain ⟨j, decoded⟩ := decodeWord_of_le code
  rw [decoded, encode_injective (used.trans (encode_of_decodeWord decoded).symm)]

/-- Settles O4: thirteen words of the spec, decoded. -/
theorem wordsOfTheTestVectorsDecode : Obligations.WordsOfTheTestVectorsDecode := by
  unfold Obligations.WordsOfTheTestVectorsDecode
  decide

end Sys2Proof

/-! The step (20_memory.md R67, R68; 45_control_loop.md R196): what it can be, said once; the word at the port; which steps
are refused (93_implementation_defined.md U5); what every step keeps. -/

namespace Sys2Proof.Machine

/-! ## What a step can be -/

/-- SEQ is free to begin something: no reset is asserted, the block has not failed, and no operation is in progress. -/
structure State.Free (s : State) : Prop where
  noReset : s.rstNow = false
  noFault : s.ctl.fault = false
  ended : s.pending = []

/-- The things a step of `s` can be, each with the condition under which it is that. -/
inductive State.StepIs (s : State) : Host.Outcome State Fault Refusal → Prop
  | reset (now : s.rstNow = true) : s.StepIs (.next s.dropPresented.applyReset)
  | failed (noReset : s.rstNow = false) (fault : s.ctl.fault = true) : s.StepIs (.next s.dropPresented.gapStep)
  | held (noReset : s.rstNow = false) (noFault : s.ctl.fault = false) (held : s.pending ≠ []) :
      s.StepIs (.next (runMicros s.pending s.dropPresented))
  | start (free : s.Free) (idle : s.ctl.phase = Phase.idle.code) (autorun : s.params.autorun = true) :
      s.StepIs (exec .ctlRun s.dropPresented)
  | accept (w : CmdWord) (free : s.Free) (ready : s.cmdReady = true) (word : s.presented = some w) :
      s.StepIs (acceptWord w s.dropPresented)
  | quiet (free : s.Free) (ready : s.cmdReady = true) (noWord : s.presented = none) : s.StepIs (.next s.dropPresented.gapStep)
  | phase (p : Phase) (free : s.Free) (phase : s.ctl.phase = p.code) (notIdle : p ≠ .idle) :
      s.StepIs (runPhase p s.dropPresented)
  | badPhase (free : s.Free) (reserved : 8 < s.ctl.phase.toNat) : s.StepIs (.refused (.reservedPhase s.ctl.phase))

/-- A code is a phase's, or one of the reserved ones (10_state.md R37). -/
theorem Phase.ofCode_cases (c : BitVec 4) :
    (∃ p : Phase, c = p.code) ∨ (8 < c.toNat ∧ Phase.ofCode c = none) := by
  have legal : c.toNat ≤ 8 → ∃ p ∈ [Phase.idle, .bootAdc, .bootMot, .bootDisp, .itSample, .itDispTemp, .itSelect, .itAct,
      .itDispFan], c = p.code := by decide +revert
  have reserved : 8 < c.toNat → Phase.ofCode c = none := by decide +revert
  rcases Nat.lt_or_ge 8 c.toNat with above | below
  · exact .inr ⟨above, reserved above⟩
  · obtain ⟨p, -, code⟩ := legal below
    exact .inl ⟨p, code⟩

theorem Phase.toNat_code_le (p : Phase) : p.code.toNat ≤ 8 := by cases p <;> decide

/-- The step in a reserved phase is refused. -/
theorem step_of_reservedPhase {s : State} (free : s.Free) (reserved : 8 < s.ctl.phase.toNat) :
    step s = .refused (.reservedPhase s.ctl.phase) := by
  obtain ⟨p, legal⟩ | ⟨-, none⟩ := Phase.ofCode_cases s.ctl.phase
  · exact absurd (legal ▸ p.toNat_code_le) (Nat.not_le.mpr reserved)
  · have action : s.action = .badPhase s.ctl.phase := by
      simp [State.action, free.noReset, free.noFault, free.ended, none]
    simp only [step, action]

/-- The step in a phase other than IDLE is that phase. -/
theorem State.Free.step_of_phase {s : State} (free : s.Free) {p : Phase} (phase : s.ctl.phase = p.code)
    (notIdle : p ≠ .idle) : step s = runPhase p s.dropPresented := by
  have action : s.action = .phase p := by
    simp only [State.action, free.noReset, free.noFault, free.ended, phase, Phase.ofCode_code]
    cases p with
    | idle => exact absurd rfl notIdle
    | _ => rfl
  simp only [step, action]

/-- A ready port to which nothing is presented: one gap. -/
theorem step_of_quiet {s : State} (ready : s.cmdReady = true) (noReset : s.rstNow = false) (noWord : s.presented = none) :
    step s = .next s.dropPresented.gapStep := by
  obtain ⟨phase, noFault, noPending, noAutorun⟩ := s.cmdReady_iff.mp ready
  have action : s.action = .wait := by
    simp [State.action, noReset, noFault, noPending, phase, noAutorun, noWord]
  simp only [step, action, waitStep]

/-- WHAT A STEP IS, in every state. -/
theorem step_is (s : State) : s.StepIs (step s) := by
  cases reset : s.rstNow with
  | true => exact step_of_rst reset ▸ .reset reset
  | false =>
  cases fault : s.ctl.fault with
  | true =>
    have action : s.action = .wait := by simp [State.action, reset, fault]
    have waits : step s = .next s.dropPresented.gapStep := by simp only [step, action, waitStep]
    exact waits ▸ .failed reset fault
  | false =>
  by_cases ended : s.pending = []
  swap
  · have action : s.action = .resume := by simp [State.action, reset, fault, ended]
    have resumes : step s = .next (runMicros s.pending s.dropPresented) := by
      simp only [step, action, resumeStep, State.dropPresented_pending]
    exact resumes ▸ .held reset fault ended
  have free : s.Free := ⟨reset, fault, ended⟩
  obtain ⟨p, phase⟩ | ⟨reserved, -⟩ := Phase.ofCode_cases s.ctl.phase
  swap
  · exact step_of_reservedPhase free reserved ▸ .badPhase free reserved
  by_cases idle : p = .idle
  swap
  · exact free.step_of_phase phase idle ▸ .phase p free phase idle
  subst idle
  cases autorun : s.params.autorun with
  | true => exact step_of_autorun reset fault ended phase autorun ▸ .start free phase autorun
  | false =>
    have ready := s.cmdReady_iff.mpr ⟨phase, fault, ended, autorun⟩
    cases word : s.presented with
    | none => exact step_of_quiet ready reset word ▸ .quiet free ready word
    | some w => exact step_of_presented ready reset word ▸ .accept w free ready word

/-! ## The word at the port (20_memory.md R67, 30_encoding.md R81) -/

theorem acceptWord_of_decoded {w : CmdWord} {i : Instr} (decoded : decodeWord w = .ok i) (s : State) :
    acceptWord w s = exec i s := by
  simp only [acceptWord, decoded]

/-- Settles O5: the ready port accepts the word, and a decoded word is executed. -/
theorem stepExecutesTheAcceptedOperation : Obligations.StepExecutesTheAcceptedOperation := by
  unfold Obligations.StepExecutesTheAcceptedOperation
  intro s w i ready noReset word decoded
  rw [step_of_presented ready noReset word, acceptWord_of_decoded decoded]
  rfl

/-- What the decoder reads from the lanes of a table word, it reads from the word. -/
theorem decodeWord_of_decodeTableWord {nbits w : Nat} {i : Instr} (decoded : decodeTableWord nbits w = some i) :
    decodeWord (tableWord nbits w) = .ok i := by
  have lanes := decodeBytes_bytesOfWord (tableWord nbits w) []
  rw [List.append_nil] at lanes
  rw [decodeTableWord, lanes] at decoded
  cases word : decodeWord (tableWord nbits w) <;> simp_all [Except.map]

/-- A presented word stands at a ready port. -/
theorem State.presentWord_ready (s : State) (w : CmdWord) :
    (s.presentWord w).cmdReady = true ∧ (s.presentWord w).rstNow = false ∧ (s.presentWord w).presented = some w :=
  ⟨rfl, rfl, rfl⟩

/-- Settles O6: the presented word stands at a ready port, and the step there is the accepted word's. -/
theorem stepExecutesTheFetchedWord : Obligations.StepExecutesTheFetchedWord := by
  unfold Obligations.StepExecutesTheFetchedWord
  intro s nbits w i decoded
  obtain ⟨ready, noReset, word⟩ := s.presentWord_ready (tableWord nbits w)
  rw [State.withFetchWord, step_of_presented ready noReset word,
    acceptWord_of_decoded (decodeWord_of_decodeTableWord decoded)]

/-- A step looks at the word presented only to decide what to do. -/
theorem step_congr {s t : State} (action : s.action = t.action) (dropped : s.dropPresented = t.dropPresented) :
    step s = step t := by
  simp only [step, action, dropped]

/-- At a closed port what SEQ does is decided without the words. -/
theorem State.action_withCmds {s : State} (closed : s.cmdReady = false) (cmds cmds' : List (Option CmdWord)) :
    ({ s with env := { s.env with cmds := cmds } } : State).action =
      ({ s with env := { s.env with cmds := cmds' } } : State).action := by
  have notReady : s.ctl.phase = Phase.idle.code → s.ctl.fault = false → s.pending = [] → s.params.autorun = true := by
    intro phase noFault ended
    by_contra noAutorun
    exact Bool.false_ne_true (closed.symm.trans (s.cmdReady_iff.mpr ⟨phase, noFault, ended, by simpa using noAutorun⟩))
  obtain ⟨p, phase⟩ | ⟨-, reserved⟩ := Phase.ofCode_cases s.ctl.phase
  · by_cases idle : p = .idle
    · subst idle
      cases fault : s.ctl.fault with
      | true => simp [State.action, State.rstNow, fault]
      | false =>
        by_cases ended : s.pending = []
        · simp [State.action, State.rstNow, notReady phase fault ended, phase]
        · simp [State.action, State.rstNow, ended]
    · cases p with
      | idle => exact absurd rfl idle
      | _ => simp [State.action, State.rstNow, phase]
  · simp [State.action, State.rstNow, reserved]

/-- Settles O8: at a closed port the word bears neither on what SEQ does nor on the state it does it in. -/
theorem wordAtClosedPortHasNoEffect : Obligations.WordAtClosedPortHasNoEffect := by
  unfold Obligations.WordAtClosedPortHasNoEffect
  exact fun s w closed => step_congr (s.action_withCmds closed _ _) rfl

/-! ## Which operations and steps are refused -/

/-- IT_ACT is not about to be executed with a reserved tier (30_encoding.md R93). -/
def State.ActLegal (s : State) : Prop := s.nextPhase = some .itAct → s.ctl.tier.toNat ≤ 4

theorem State.ActLegal.of_tier {s : State} (tier : s.ctl.tier.toNat ≤ 4) : s.ActLegal := fun _ => tier

theorem State.ActLegal.of_phase {s : State} {q : Phase} (phase : s.ctl.phase = q.code) (other : q ≠ .itAct) :
    s.ActLegal := by
  intro next
  obtain ⟨-, act, -⟩ := State.nextPhase_some next
  exact absurd (Phase.code_injective (phase.symm.trans act)) other

theorem State.ActLegal.of_held {s : State} (held : s.pending ≠ []) : s.ActLegal := by
  intro next
  rw [State.nextPhase_of_held held] at next
  cases next

/-- A phase is refused exactly if it is IT_ACT with a reserved tier. -/
theorem phaseMicros_error_iff (p : Phase) (s : State) (r : Refusal) :
    phaseMicros p s = .error r ↔ p = .itAct ∧ 4 < s.ctl.tier.toNat ∧ r = .reservedTier s.ctl.tier := by
  cases p with
  | itAct =>
    by_cases legal : s.ctl.tier.toNat ≤ 4
    · simp [phaseMicros, legal, Nat.not_lt.mpr legal]
    · simp [phaseMicros, legal, Nat.not_le.mp legal, eq_comm]
  | _ => simp [phaseMicros]

/-- A legal phase leads to a state whose next phase is legal: IT_SELECT leaves the tier of a temperature, and no other
phase leads to IT_ACT. -/
theorem runMicros_phase_actLegal {p : Phase} {s : State} {ms : List Micro} (micros : phaseMicros p s = .ok ms)
    (notIdle : p ≠ .idle) : (runMicros ms s).ActLegal := by
  by_cases sample : p = .itSample
  · subst sample
    cases micros
    rw [show adcReadMicros s.params.pollBound s.params.sensorChannel ++ tempConvMicros .result ++
        [.ctlTemp, .ctlPhase .itDispTemp] = (adcReadMicros s.params.pollBound s.params.sensorChannel ++
          tempConvMicros .result ++ [.ctlTemp]) ++ [.ctlPhase .itDispTemp] by simp]
    rcases runMicros_phase_end _ .itDispTemp s with phase | held | idle
    · exact .of_phase phase (by decide)
    · exact .of_held held
    · exact .of_phase idle (by decide)
  · rcases runMicros_blind_or_reset (phaseMicros_blind sample micros) s with ⟨-, -, -, -, ctl, -⟩ | ⟨⟨r, agree⟩, -⟩
    · exact .of_phase (q := .idle) (congrArg Ctl.phase ctl) (by decide)
    · have phase := congrArg Ctl.phase agree.ctl
      have tier := congrArg Ctl.tier agree.ctl
      cases p with
      | idle => exact absurd rfl notIdle
      | itSample => exact absurd rfl sample
      | itSelect =>
        cases micros
        refine .of_tier (tier ▸ ?_)
        simp [replay_append, replay_bandSel, replay_cons, replay_nil, Micro.apply, bandTier_le]
      | itAct =>
        refine .of_phase (q := .itDispFan) (phase.trans ?_) (by decide)
        simp only [phaseMicros] at micros
        split at micros <;> cases micros
        simp [replay_append, replay_cons, replay_nil, Micro.apply]
      | itDispFan =>
        cases loop : s.ctl.loop <;> simp only [phaseMicros, iterEndMicros, loop] at micros <;> cases micros
        · exact .of_phase (q := .idle) phase (by decide)
        · exact .of_phase (q := .itSample) phase (by decide)
      | bootAdc => cases micros; exact .of_phase (q := .bootMot) phase (by decide)
      | bootMot => cases micros; exact .of_phase (q := .bootDisp) phase (by decide)
      | bootDisp => cases micros; exact .of_phase (q := .itSample) phase (by decide)
      | itDispTemp => cases micros; exact .of_phase (q := .itSelect) phase (by decide)

/-- Several phases from a legal state are not refused. -/
theorem runPhases_next (n : Nat) {s : State} (legal : s.ActLegal) : ∃ t, runPhases n s = .next t := by
  induction n generalizing s with
  | zero => exact ⟨s, rfl⟩
  | succ n ih =>
    cases next : s.nextPhase with
    | none => exact ⟨s, runPhases_stop next⟩
    | some p =>
      obtain ⟨-, -, notIdle⟩ := State.nextPhase_some next
      cases micros : phaseMicros p s with
      | error r =>
        obtain ⟨rfl, reserved, -⟩ := (phaseMicros_error_iff p s r).mp micros
        exact absurd (legal next) (Nat.not_le.mpr reserved)
      | ok ms =>
        rw [runPhases_succ next micros]
        exact ih (runMicros_phase_actLegal micros notIdle)

/-- A run that ends by entering another phase than IT_ACT is legal. -/
theorem runMicros_enter_actLegal (ms : List Micro) {q : Phase} (other : q ≠ .itAct) (s : State) :
    (runMicros (ms ++ [.ctlPhase q]) s).ActLegal := by
  rcases runMicros_phase_end ms q s with phase | held | idle
  · exact .of_phase phase other
  · exact .of_held held
  · exact .of_phase idle (by decide)

/-- Every operation has a next state: the phases inside CTL_ITER and CTL_RUN are legal, and the others are one run. -/
theorem exec_next (i : Instr) (s : State) : ∃ t, exec i s = .next t := by
  cases i with
  | ctlIter => exact runPhases_next 5 (runMicros_enter_actLegal [.opStart 0x0A#8] (by decide) s)
  | ctlRun => exact runPhases_next 3 (runMicros_enter_actLegal [.opStart 0x0B#8, .ctlLoop true] (by decide) s)
  | _ => exact ⟨_, rfl⟩

/-- Settles O10. -/
theorem everyOperationHasANextState : Obligations.EveryOperationHasANextState := by
  unfold Obligations.EveryOperationHasANextState
  exact exec_next

theorem acceptWord_next (w : CmdWord) (s : State) : ∃ t, acceptWord w s = .next t := by
  cases decoded : decodeWord w with
  | ok i => exact acceptWord_of_decoded decoded s ▸ exec_next i s
  | error e =>
    obtain ⟨reserved, -⟩ := decodeWord_error decoded
    exact ⟨_, acceptWord_of_reserved reserved s⟩

theorem runPhase_refused_iff (p : Phase) (s : State) (r : Refusal) :
    runPhase p s = .refused r ↔ p = .itAct ∧ 4 < s.ctl.tier.toNat ∧ r = .reservedTier s.ctl.tier := by
  rw [← phaseMicros_error_iff, runPhase]
  cases phaseMicros p s <;> simp

/-- Settles O11: of all that a step can be, only a phase can be refused, and only by its code or by the tier. -/
theorem onlyReservedCodesAreRefused : Obligations.OnlyReservedCodesAreRefused := by
  unfold Obligations.OnlyReservedCodesAreRefused
  intro s r
  constructor
  · intro refused
    have is := step_is s
    generalize step s = outcome at refused is
    cases is with
    | reset | failed | held | quiet => cases refused
    | start =>
      obtain ⟨t, next⟩ := exec_next .ctlRun s.dropPresented
      rw [next] at refused
      cases refused
    | accept w =>
      obtain ⟨t, next⟩ := acceptWord_next w s.dropPresented
      rw [next] at refused
      cases refused
    | phase p free phase notIdle =>
      obtain ⟨rfl, tier, reason⟩ := (runPhase_refused_iff p s.dropPresented r).mp refused
      exact ⟨free.noReset, free.noFault, free.ended, .inr ⟨phase, tier, reason⟩⟩
    | badPhase free reserved =>
      cases refused
      exact ⟨free.noReset, free.noFault, free.ended, .inl ⟨reserved, rfl⟩⟩
  · rintro ⟨noReset, noFault, ended, ⟨reserved, rfl⟩ | ⟨phase, tier, rfl⟩⟩
    · exact step_of_reservedPhase ⟨noReset, noFault, ended⟩ reserved
    · rw [State.Free.step_of_phase ⟨noReset, noFault, ended⟩ phase (by decide)]
      exact (runPhase_refused_iff .itAct s.dropPresented _).mpr ⟨rfl, tier, rfl⟩

/-! ## What every step keeps (00_scope.md R9, R15) -/

/-- Settles O12: a gap, a micro-step and a reset each leave the parameters and at most append to the trace. -/
theorem stepKeepsParametersAndTracePast : Obligations.StepKeepsParametersAndTracePast := by
  unfold Obligations.StepKeepsParametersAndTracePast
  intro s t next
  have extend : ∀ {u : State} (es : List Event), s.trace <+: u.trace → s.trace <+: u.trace ++ es :=
    fun es past => past.trans ⟨es, rfl⟩
  refine step_keeps (P := fun u => u.params = s.params ∧ s.trace <+: u.trace) ?gap ?micro ?reset (fun _ _ kept => kept)
    (fun _ kept => kept) ⟨rfl, List.prefix_rfl⟩ next
  case gap =>
    rintro u ⟨params, past⟩
    refine ⟨by simp [params], ?_⟩
    rcases u.gapStep_conv with ⟨-, -, -, -, trace⟩ | ⟨-, -, -, trace⟩ <;> rw [trace]
    · exact extend _ past
    · exact past
  case micro =>
    rintro m u ⟨params, past⟩
    obtain ⟨es, trace⟩ := m.apply_trace u
    exact ⟨by simp [params], trace ▸ extend es past⟩
  case reset =>
    rintro u ⟨params, past⟩ -
    exact ⟨params, extend _ past⟩

end Sys2Proof.Machine

/-! Inside an operation (00_scope.md R13, R14; 20_memory.md R67): the port between two micro-steps, and a reset there
(70_reset_and_hazards.md R230). -/

namespace Sys2Proof.Machine

/-- The first micro-step of an operation, and the inside of what is left of it. -/
theorem State.inside_succ {s : State} (noReset : s.rstNow = false) {m : Micro} (write : m.poll? = none) (ms : List Micro)
    (k : Nat) : s.inside (m :: ms) (k + 1) = (m.apply s.gapStep).inside ms k := by
  unfold State.inside
  rw [Function.iterate_succ_apply, microStep_of_not_rst noReset, microEffect_of_write write]

/-- After its last micro-step an operation is at its end. -/
theorem State.inside_length {ms : List Micro} (writes : ∀ m ∈ ms, m.poll? = none) (s : State) :
    s.inside ms ms.length = runMicros ms s := by
  rw [← runWrites_eq_runMicros writes, runWrites_eq_microStep writes, State.inside]

/-- Settles O9: inside an operation and at a poll something is left to execute, which closes the port. -/
theorem portIsClosedInsideAnOperation : Obligations.PortIsClosedInsideAnOperation := by
  unfold Obligations.PortIsClosedInsideAnOperation
  refine ⟨fun ms s writes noReset => ⟨fun k before => ?_, s.inside_length writes⟩, ?_⟩
  · have left := State.inside_pending writes noReset k
    have notAll : ms.drop k ≠ [] := by simpa using before
    exact ⟨left, State.cmdReady_of_pending (left ▸ notAll)⟩
  · rintro s rest ⟨held, -, -⟩
    exact State.cmdReady_of_pending (by simp [held])

/-- A reset that comes after `n` of the micro-steps of an operation finds the state inside after these `n`. -/
theorem runMicros_of_reset_midway {ms : List Micro} (writes : ∀ m ∈ ms, m.poll? = none) {n : Nat} (before : n < ms.length)
    {s : State} {later : List Nat} (coming : s.env.rst = n :: later) :
    runMicros ms s = (s.inside ms n).applyReset ∧ (s.inside ms n).env.rst = 0 :: later := by
  induction n generalizing ms s with
  | zero =>
    obtain ⟨m, ms, rfl⟩ := List.exists_cons_of_length_pos before
    exact ⟨runMicros_cons_of_rst (by simp [State.rstNow, coming]) m ms, coming⟩
  | succ n ih =>
    obtain ⟨m, ms, rfl⟩ := List.exists_cons_of_length_pos (Nat.zero_lt_of_lt before)
    have noReset : s.rstNow = false := by simp [State.rstNow, coming]
    have write : m.poll? = none := writes m (List.mem_cons_self ..)
    have comingThen : (m.apply s.gapStep).env.rst = n :: later := by simp [coming]
    rw [runMicros_cons_of_write noReset write, State.inside_succ noReset write]
    exact ih (fun m' mem => writes m' (List.mem_cons_of_mem m mem)) (Nat.lt_of_succ_lt_succ before) comingThen

/-- Settles O15: the reset strikes the state inside the operation, and takes its own entry off the list. -/
theorem resetAbandonsAnOperationMidway : Obligations.ResetAbandonsAnOperationMidway := by
  unfold Obligations.ResetAbandonsAnOperationMidway
  intro ms s n later writes before coming
  obtain ⟨abandoned, now⟩ := runMicros_of_reset_midway writes before coming
  refine ⟨abandoned, ?_, ?_⟩ <;> rw [abandoned]
  · exact State.applyReset_atReset _
  · simp [now]

end Sys2Proof.Machine

/-! The invariant (10_state.md R43): what of it does not depend on where SEQ is (`CoreInv`), which operations keep that, and
the three places where SEQ can be between two steps: at rest, held at a poll, failed. -/

namespace Sys2Proof.Machine

/-! ## The part that holds wherever SEQ is -/

/-- The invariant without what it says of the place SEQ is at. -/
structure State.CoreInv (s : State) : Prop where
  channel : s.adc.ch.toNat < 2 ^ s.params.chBits
  timer : s.TimerInv
  actuator : s.ActuatorInv
  control : s.LoopInv

/-- It looks at nothing in the converter but the channel, and at the trace only for the stop. -/
theorem State.CoreInv.congr {s t : State} (h : t.CoreInv) (agree : s.AgreeOutside t) (channel : s.adc.ch = t.adc.ch)
    (stop : stopCmp s.trace = stopCmp t.trace) : s.CoreInv := by
  obtain ⟨channelFits, ⟨started⟩, ⟨stopped, stopDuty, pattern⟩,
    ⟨phaseLegal, tierLegal, looping, booting, selected, acted⟩⟩ := h
  refine ⟨?_, ⟨?_⟩, ⟨?_, ?_, ?_⟩, ⟨?_, ?_, ?_, ?_, ?_, ?_⟩⟩ <;>
    simpa only [channel, agree.params, agree.ps, agree.fast, agree.ninv, agree.cmp, agree.pin, agree.mot, agree.ctl, stop]

theorem State.Agree.outside {s t : State} (h : s.Agree t) : s.AgreeOutside t :=
  ⟨h.fast, h.ninv, h.ps, h.cmp, h.pin, h.mot, h.ctl, h.res, h.rst, h.cmds, h.ain, h.draws, h.params⟩

theorem State.CoreInv.of_agree {s t : State} (h : t.CoreInv) (agree : s.Agree t) : s.CoreInv :=
  h.congr agree.outside (congrArg Adc.ch agree.adc) (congrArg stopCmp agree.trace)

theorem State.CoreInv.gapStep {s : State} (h : s.CoreInv) : s.gapStep.CoreInv := by
  obtain ⟨channelFits, ⟨started⟩, ⟨stopped, stopDuty, pattern⟩,
    ⟨phaseLegal, tierLegal, looping, booting, selected, acted⟩⟩ := h
  refine ⟨?_, ⟨?_⟩, ⟨?_, ?_, ?_⟩, ⟨?_, ?_, ?_, ?_, ?_, ?_⟩⟩ <;>
    simpa only [State.gapStep_adc_ch, State.gapStep_params, State.gapStep_pwm_fast, State.gapStep_pwm_ninv,
      State.gapStep_pwm_ps, State.gapStep_pwm_cmp, State.gapStep_pin, State.gapStep_mot, State.gapStep_ctl,
      State.gapStep_stopCmp]

/-! ## The places of SEQ -/

/-- Between operations of a block that has not failed. -/
structure State.RestInv (s : State) : Prop where
  core : s.CoreInv
  ended : s.pending = []
  noFault : s.ctl.fault = false
  notBusy : s.adc.busy = false
  notDone : s.adc.done = false

/-- At the poll of a read whose conversion is in flight, of a command or of an iteration. -/
structure State.PollInv (s : State) (looks : Option Nat) (rest : List Micro) : Prop where
  core : s.CoreInv
  noFault : s.ctl.fault = false
  busy : s.adc.busy = true
  notDone : s.adc.done = false
  bound : looks.isSome = s.params.pollBound.isSome
  place : (s.ctl.phase = Phase.idle.code ∧ rest = afterPoll) ∨ (s.ctl.phase = Phase.itSample.code ∧ rest = afterSamplePoll)

/-- Failed under a finite bound. -/
structure State.FailedInv (s : State) : Prop where
  core : s.CoreInv
  ended : s.pending = []
  fault : s.ctl.fault = true
  bound : s.params.pollBound.isSome = true
  idle : s.ctl.phase = Phase.idle.code
  noLoop : s.ctl.loop = false

theorem State.RestInv.inv {s : State} (h : s.RestInv) : s.Inv where
  converter := ⟨fun _ _ => ⟨h.notBusy, h.notDone⟩, fun held => absurd h.ended held, h.core.channel⟩
  timer := h.core.timer
  actuator := h.core.actuator
  control := h.core.control
  failure := ⟨fun fault => absurd (fault.symm.trans h.noFault) (by decide)⟩

theorem State.FailedInv.inv {s : State} (h : s.FailedInv) : s.Inv where
  converter := ⟨fun _ noFault => absurd (noFault.symm.trans h.fault) (by decide), fun held => absurd h.ended held,
    h.core.channel⟩
  timer := h.core.timer
  actuator := h.core.actuator
  control := h.core.control
  failure := ⟨fun _ => ⟨h.bound, h.idle, h.noLoop, h.ended⟩⟩

theorem State.PollInv.inv {s : State} {looks : Option Nat} {rest : List Micro} (h : s.PollInv looks rest)
    (held : s.pending = .adcPoll looks :: rest) : s.Inv where
  converter := by
    refine ⟨fun ended => absurd (held.symm.trans ended) (List.cons_ne_nil _ _), fun _ => ?_, h.core.channel⟩
    refine ⟨h.busy, h.notDone, h.noFault, looks, h.bound, ?_⟩
    rcases h.place with ⟨phase, rfl⟩ | ⟨phase, rfl⟩
    · exact .inl ⟨phase, held⟩
    · exact .inr ⟨phase, held⟩
  timer := h.core.timer
  actuator := h.core.actuator
  control := h.core.control
  failure := ⟨fun fault => absurd (fault.symm.trans h.noFault) (by decide)⟩

theorem State.Inv.core {s : State} (h : s.Inv) : s.CoreInv := ⟨h.converter.channel, h.timer, h.actuator, h.control⟩

/-- WHERE SEQ CAN BE between two steps. -/
theorem State.Inv.cases {s : State} (h : s.Inv) :
    s.RestInv ∨ (∃ looks rest, s.pending = .adcPoll looks :: rest ∧ s.PollInv looks rest) ∨ s.FailedInv := by
  by_cases ended : s.pending = []
  · cases fault : s.ctl.fault with
    | false =>
      obtain ⟨notBusy, notDone⟩ := h.converter.quiet ended fault
      exact .inl ⟨h.core, ended, fault, notBusy, notDone⟩
    | true =>
      obtain ⟨bound, idle, noLoop, -⟩ := h.failure.failed fault
      exact .inr (.inr ⟨h.core, ended, fault, bound, idle, noLoop⟩)
  · obtain ⟨busy, notDone, noFault, looks, bound, ⟨phase, held⟩ | ⟨phase, held⟩⟩ := h.converter.held ended
    · exact .inr (.inl ⟨looks, _, held, h.core, noFault, busy, notDone, bound, .inl ⟨phase, rfl⟩⟩)
    · exact .inr (.inl ⟨looks, _, held, h.core, noFault, busy, notDone, bound, .inr ⟨phase, rfl⟩⟩)

theorem State.Inv.rest {s : State} (h : s.Inv) (ended : s.pending = []) (noFault : s.ctl.fault = false) : s.RestInv := by
  obtain ⟨notBusy, notDone⟩ := h.converter.quiet ended noFault
  exact ⟨h.core, ended, noFault, notBusy, notDone⟩

/-- Neither the moment of the next reset nor the words still to come are looked at. -/
theorem State.Inv.withRst {s : State} (h : s.Inv) (r : List Nat) : (s.withRst r).Inv := by
  obtain ⟨⟨quiet, held, channel⟩, ⟨started⟩, ⟨stopped, stopDuty, pattern⟩,
    ⟨phaseLegal, tierLegal, looping, booting, selected, acted⟩, ⟨failed⟩⟩ := h
  exact ⟨⟨quiet, held, channel⟩, ⟨started⟩, ⟨stopped, stopDuty, pattern⟩,
    ⟨phaseLegal, tierLegal, looping, booting, selected, acted⟩, ⟨failed⟩⟩

theorem State.Inv.dropPresented {s : State} (h : s.Inv) : s.dropPresented.Inv := by
  obtain ⟨⟨quiet, held, channel⟩, ⟨started⟩, ⟨stopped, stopDuty, pattern⟩,
    ⟨phaseLegal, tierLegal, looping, booting, selected, acted⟩, ⟨failed⟩⟩ := h
  exact ⟨⟨quiet, held, channel⟩, ⟨started⟩, ⟨stopped, stopDuty, pattern⟩,
    ⟨phaseLegal, tierLegal, looping, booting, selected, acted⟩, ⟨failed⟩⟩

/-! ## Reset -/

/-- A reset state meets the invariant if, by its trace, no stop with another compare value than 0 has come last. -/
theorem State.inv_of_atReset {s : State} (reset : s.AtReset) (stop : ∀ v, stopCmp s.trace = some v → v = 0#8) : s.Inv := by
  obtain ⟨adc, pwm, pin, mot, ctl, -, -, ended⟩ := reset
  have noStop : ∀ v, stopCmp s.trace = some v → State.reset.mot.run = false ∧ State.reset.pwm.cmp = v :=
    fun v stopped => ⟨rfl, (stop v stopped).symm⟩
  have chBits : (0#8).toNat < 2 ^ s.params.chBits := Nat.two_pow_pos _
  have control : s.LoopInv := by constructor <;> simp [ctl, mot, State.reset, Phase.code]
  refine State.RestInv.inv ⟨⟨?_, ⟨?_⟩, ⟨?_, ?_, ?_⟩, control⟩, ended, ?_, ?_, ?_⟩ <;> simp only [adc, pwm, pin, mot, ctl]
  · exact chBits
  · simp [State.reset]
  · simp [State.reset]
  · exact noStop
  · simp [State.reset]
  · rfl
  · rfl
  · rfl

/-- Reset leads to the invariant, from any state whatever. -/
theorem State.applyReset_inv (s : State) : s.applyReset.Inv := by
  refine State.inv_of_atReset s.applyReset_atReset fun v stopped => ?_
  rw [State.applyReset_trace, stopCmp_append] at stopped
  obtain ⟨_, -, zero⟩ := Option.map_eq_some_iff.mp stopped
  exact zero.symm

/-- Settles O59: the reset state has all its registers at their reset values and no stop in its trace. -/
theorem resetMeetsTheInvariant : Obligations.ResetMeetsTheInvariant := by
  unfold Obligations.ResetMeetsTheInvariant
  refine State.inv_of_atReset ⟨rfl, rfl, rfl, rfl, rfl, rfl, rfl, rfl⟩ fun v stopped => ?_
  cases stopped

/-- A run leads to the invariant with resets if it does without. -/
theorem runMicros_inv_of_noReset {ms : List Micro} {s : State} (h : (runMicros ms (s.withRst [])).Inv) :
    (runMicros ms s).Inv := by
  rcases runMicros_reset_or_same ms s with ⟨u, -, -, reset⟩ | ⟨r, -, same⟩
  · exact reset ▸ u.applyReset_inv
  · exact same ▸ h.withRst r

end Sys2Proof.Machine

/-! The invariant through an operation and through a phase: one lemma for the micro-steps it does not look at, one for each
operation that it does look at, one for the read, and from these every step. -/

namespace Sys2Proof.Machine

/-! ## Writes that the invariant does not look at -/

/-- A write of nothing that the invariant looks at between operations. -/
def Micro.neutral (m : Micro) : Bool :=
  match m with
  | .opStart op => op != 0x07#8
  | .opReturn op => op != 0x08#8
  | .adcRefs _ => true
  | .adcDiv _ => true
  | .adcEn _ => true
  | .adcClearDone => true
  | .retSample => true
  | .retTemp _ => true
  | .retTier _ => true
  | .dispInit => true
  | .dispTemp => true
  | .dispFan => true
  | _ => false

/-- Events that bear on no stop: all but the start of a rotation, the return of a stop, a compare write and a reset. -/
theorem stopCmp_append_of_neutral {es : List Event} (neutral : ∀ e ∈ es, ∀ c, stopCmpAfter c e = c) (trace : List Event) :
    stopCmp (trace ++ es) = stopCmp trace := by
  rw [stopCmp_append]
  generalize stopCmp trace = c
  induction es with
  | nil => rfl
  | cons e es ih =>
    rw [List.foldl_cons, neutral e (List.mem_cons_self ..)]
    exact ih fun e' mem => neutral e' (List.mem_cons_of_mem e mem)

theorem Micro.neutral_stopCmp {m : Micro} (neutral : m.neutral = true) (s : State) :
    stopCmp (m.apply s).trace = stopCmp s.trace := by
  cases m with
  | opStart op =>
    have other : op ≠ 0x07#8 := by simpa [Micro.neutral] using neutral
    exact stopCmp_append_of_neutral (by simp [stopCmpAfter, other]) _
  | opReturn op =>
    have other : op ≠ 0x08#8 := by simpa [Micro.neutral] using neutral
    exact stopCmp_append_of_neutral (by simp [stopCmpAfter, other]) _
  | dispInit | dispTemp | dispFan => exact stopCmp_append_of_neutral (by simp [stopCmpAfter]) _
  | adcRefs | adcDiv | adcEn | adcClearDone | retSample | retTemp | retTier => rfl
  | _ => exact absurd neutral Bool.false_ne_true

theorem Micro.neutral_plain {m : Micro} (neutral : m.neutral = true) : m.plain = true := by
  cases m with
  | adcPoll | adcTrigger => exact absurd neutral Bool.false_ne_true
  | _ => rfl

theorem State.CoreInv.neutral {s : State} (h : s.CoreInv) {m : Micro} (neutral : m.neutral = true) : (m.apply s).CoreInv := by
  have stop := Micro.neutral_stopCmp neutral s
  obtain ⟨channelFits, ⟨started⟩, ⟨stopped, stopDuty, pattern⟩,
    ⟨phaseLegal, tierLegal, looping, booting, selected, acted⟩⟩ := h
  rw [← stop] at stopDuty
  cases m with
  | opStart | opReturn | dispInit | dispTemp | dispFan | adcRefs | adcDiv | adcEn | adcClearDone | retSample | retTemp
  | retTier =>
    exact ⟨channelFits, ⟨started⟩, ⟨stopped, stopDuty, pattern⟩,
      ⟨phaseLegal, tierLegal, looping, booting, selected, acted⟩⟩
  | _ => exact absurd neutral Bool.false_ne_true

theorem State.RestInv.neutral {s : State} (h : s.RestInv) {m : Micro} (neutral : m.neutral = true) :
    (m.apply s).RestInv := by
  have core := h.core.neutral neutral
  obtain ⟨-, ended, noFault, notBusy, notDone⟩ := h
  cases m with
  | adcClearDone => exact ⟨core, ended, noFault, notBusy, rfl⟩
  | opStart | opReturn | dispInit | dispTemp | dispFan | adcRefs | adcDiv | adcEn | retSample | retTemp | retTier =>
    exact ⟨core, ended, noFault, notBusy, notDone⟩
  | _ => exact absurd neutral Bool.false_ne_true

theorem State.RestInv.replay_neutral {ms : List Micro} {s : State} (h : s.RestInv)
    (neutral : ms.all Micro.neutral = true) : (replay ms s).RestInv := by
  induction ms generalizing s with
  | nil => exact h
  | cons m ms ih =>
    simp only [List.all_cons, Bool.and_eq_true] at neutral
    obtain ⟨neutralHead, neutralTail⟩ := neutral
    exact ih (h.neutral neutralHead) neutralTail

/-! ## Operations that the invariant looks at -/

theorem stopCmp_pwmStartEvents (trace : List Event) (v : BitVec 8) :
    stopCmp (trace ++ pwmStartEvents v) = (stopCmp trace).map (fun _ => v) := by
  simp [stopCmp_append, pwmStartEvents, stopCmpAfter]

theorem stopCmp_motInitEvents (trace : List Event) : stopCmp (trace ++ motInitEvents) = stopCmp trace :=
  stopCmp_append_of_neutral (by simp [motInitEvents, stopCmpAfter]) trace

/-- Behind a rotation no stop has come last. -/
theorem stopCmp_motRotateEvents (trace : List Event) (dir : Direction) (v : BitVec 8) :
    stopCmp (trace ++ motRotateEvents dir v) = none := by
  simp [stopCmp_append, motRotateEvents, patternEvents, pwmStartEvents, stopCmpAfter]

/-- Behind a stop it has, with compare value 0. -/
theorem stopCmp_motStopEvents (trace : List Event) : stopCmp (trace ++ motStopEvents) = some 0#8 := by
  simp [stopCmp_append, motStopEvents, motRotateEvents, patternEvents, pwmStartEvents, stopCmpAfter]

/-- PWM_START leaves the timer as `TimerInv` wants it, and the actuator where it was. -/
theorem State.RestInv.replay_pwmStart {s : State} (h : s.RestInv) (duty : BitVec 8) :
    (replay (pwmStartMicros duty) s).RestInv := by
  obtain ⟨⟨channel, -, ⟨stopped, stopDuty, pattern⟩, control⟩, ended, noFault, notBusy, notDone⟩ := h
  rw [Machine.replay_pwmStart]
  refine ⟨⟨channel, ⟨fun _ => ⟨rfl, rfl, rfl, rfl⟩⟩, ⟨stopped, fun v last => ?_, pattern⟩, ⟨control.phaseLegal,
    control.tierLegal, control.looping, control.booting, control.selected, control.acted⟩⟩, ended, noFault, notBusy, notDone⟩
  rw [stopCmp_pwmStartEvents] at last
  obtain ⟨before, stop, written⟩ := Option.map_eq_some_iff.mp last
  obtain ⟨run, -⟩ := stopDuty before stop
  exact ⟨run, written⟩

/-- A write of the actuator keeps the loop's part, except where IT_DISP_FAN is about to show it. -/
theorem State.LoopInv.withMot {s t : State} (h : s.LoopInv) (ctl : t.ctl = s.ctl)
    (notFan : s.ctl.phase ≠ Phase.itDispFan.code) : t.LoopInv := by
  obtain ⟨phaseLegal, tierLegal, looping, booting, selected, -⟩ := h
  rw [← ctl] at phaseLegal tierLegal looping booting selected notFan
  exact ⟨phaseLegal, tierLegal, looping, booting, selected, fun fan => absurd fan notFan⟩

theorem State.RestInv.replay_motInit {s : State} (h : s.RestInv) (notFan : s.ctl.phase ≠ Phase.itDispFan.code) :
    (replay motInitMicros s).RestInv := by
  obtain ⟨⟨channel, ⟨started⟩, ⟨-, stopDuty, -⟩, control⟩, ended, noFault, notBusy, notDone⟩ := h
  rw [Machine.replay_motInit]
  refine ⟨⟨channel, ⟨started⟩, ⟨fun _ => ⟨rfl, rfl, rfl, rfl⟩, fun v last => ?_, by simp⟩, control.withMot rfl notFan⟩,
    ended, noFault, notBusy, notDone⟩
  rw [stopCmp_motInitEvents] at last
  obtain ⟨-, cmp⟩ := stopDuty v last
  exact ⟨rfl, cmp⟩

theorem State.RestInv.replay_motRotate {s : State} (h : s.RestInv) (notFan : s.ctl.phase ≠ Phase.itDispFan.code)
    (dir : Direction) (speed : BitVec 8) : (replay (motRotateMicros dir speed) s).RestInv := by
  obtain ⟨⟨channel, -, -, control⟩, ended, noFault, notBusy, notDone⟩ := h
  rw [Machine.replay_motRotate]
  refine ⟨⟨channel, ⟨fun _ => ⟨rfl, rfl, rfl, rfl⟩⟩, ⟨nofun, fun v last => ?_, by cases dir <;> simp [dirBit]⟩,
    control.withMot rfl notFan⟩, ended, noFault, notBusy, notDone⟩
  rw [stopCmp_motRotateEvents] at last
  cases last

theorem State.RestInv.replay_motStop {s : State} (h : s.RestInv) (notFan : s.ctl.phase ≠ Phase.itDispFan.code) :
    (replay motStopMicros s).RestInv := by
  obtain ⟨⟨channel, -, -, control⟩, ended, noFault, notBusy, notDone⟩ := h
  rw [Machine.replay_motStop]
  refine ⟨⟨channel, ⟨fun _ => ⟨rfl, rfl, rfl, rfl⟩⟩, ⟨fun _ => ⟨rfl, rfl, rfl, rfl⟩, fun v last => ?_, by simp⟩,
    control.withMot rfl notFan⟩, ended, noFault, notBusy, notDone⟩
  rw [stopCmp_motStopEvents] at last
  cases last
  exact ⟨rfl, rfl⟩

/-! ## Writes of the loop's registers -/

/-- Entering a phase: the loop does not idle, boot phases belong to it, and the latches hold what the phase reads. -/
theorem State.RestInv.enter {s : State} (h : s.RestInv) {q : Phase} (looping : s.ctl.loop = true → q ≠ .idle)
    (booting : q = .bootAdc ∨ q = .bootMot ∨ q = .bootDisp → s.ctl.loop = true)
    (selected : q = .itAct → s.ctl.tier = bandTier s.ctl.temp)
    (acted : q = .itDispFan → s.ctl.mstate.bit = s.mot.run) : (Micro.apply (.ctlPhase q) s).RestInv := by
  obtain ⟨⟨channel, ⟨started⟩, ⟨stopped, stopDuty, pattern⟩, control⟩, ended, noFault, notBusy, notDone⟩ := h
  refine ⟨⟨channel, ⟨started⟩, ⟨stopped, stopDuty, pattern⟩, ⟨q.toNat_code_le, control.tierLegal,
    fun loop idle => looping loop (Phase.code_injective idle), fun boot => booting ?_,
    fun act => selected (Phase.code_injective act), fun fan => acted (Phase.code_injective fan)⟩⟩,
    ended, noFault, notBusy, notDone⟩
  cases q <;> simp_all [Micro.apply, Phase.code]

/-- Entering a phase that needs nothing but a loop that does not idle. -/
theorem State.RestInv.enter_sampling {s : State} (h : s.RestInv) {q : Phase}
    (sampling : q = .itSample ∨ q = .itDispTemp ∨ q = .itSelect) : (Micro.apply (.ctlPhase q) s).RestInv := by
  refine h.enter ?_ ?_ ?_ ?_ <;> rcases sampling with rfl | rfl | rfl <;> simp

/-- Going on in the boot sequence. -/
theorem State.RestInv.enter_boot {s : State} (h : s.RestInv) {q : Phase} (boot : q = .bootAdc ∨ q = .bootMot ∨ q = .bootDisp)
    (loop : s.ctl.loop = true) : (Micro.apply (.ctlPhase q) s).RestInv := by
  refine h.enter ?_ (fun _ => loop) ?_ ?_ <;> rcases boot with rfl | rfl | rfl <;> simp

/-- A latch of the loop that no phase about to be executed reads may be written. -/
theorem State.RestInv.withCtl {s : State} (h : s.RestInv) {ctl : Ctl} (phase : ctl.phase = s.ctl.phase)
    (loop : ctl.loop = s.ctl.loop) (fault : ctl.fault = s.ctl.fault) (tier : ctl.tier.toNat ≤ 4)
    (selected : s.ctl.phase = Phase.itAct.code → ctl.tier = bandTier ctl.temp)
    (notFan : s.ctl.phase ≠ Phase.itDispFan.code) : ({ s with ctl := ctl } : State).RestInv := by
  obtain ⟨⟨channel, ⟨started⟩, ⟨stopped, stopDuty, pattern⟩, control⟩, ended, noFault, notBusy, notDone⟩ := h
  refine ⟨⟨channel, ⟨started⟩, ⟨stopped, stopDuty, pattern⟩, ⟨phase ▸ control.phaseLegal, tier, ?_, ?_, ?_, ?_⟩⟩,
    ended, fault.trans noFault, notBusy, notDone⟩
  · simpa only [phase, loop] using control.looping
  · simpa only [phase, loop] using control.booting
  · simpa only [phase] using selected
  · exact fun fan => absurd (phase.symm.trans fan) notFan

/-! ## Runs from rest -/

theorem replay_withRst (ms : List Micro) (s : State) (r : List Nat) : replay ms (s.withRst r) = (replay ms s).withRst r := by
  induction ms generalizing s with
  | nil => rfl
  | cons m ms ih => rw [replay_cons, Micro.apply_withRst, ih, replay_cons]

theorem State.RestInv.withRst {s : State} (h : s.RestInv) (r : List Nat) : (s.withRst r).RestInv :=
  (h.inv.withRst r).rest h.ended h.noFault

theorem State.RestInv.of_agree {s t : State} (h : t.RestInv) (agree : s.Agree t) (ended : s.pending = []) : s.RestInv :=
  ⟨h.core.of_agree agree, ended, (congrArg Ctl.fault agree.ctl).trans h.noFault,
    (congrArg Adc.busy agree.adc).trans h.notBusy, (congrArg Adc.done agree.adc).trans h.notDone⟩

/-- PLAIN MICRO-STEPS AT REST, with or without reset: they lead to the invariant if they do when executed alone. -/
theorem State.RestInv.runMicros_inv {ms : List Micro} {s : State} (h : s.RestInv) (plain : ms.all Micro.plain = true)
    (after : (replay ms s).RestInv) : (runMicros ms s).Inv := by
  apply runMicros_inv_of_noReset
  obtain ⟨agree, -, ended⟩ := runMicros_plain (s := s.withRst []) plain ⟨rfl, h.notBusy⟩
  rw [replay_withRst] at agree
  exact ((after.withRst []).of_agree agree ended).inv

theorem State.RestInv.runMicros_neutral_inv {ms : List Micro} {s : State} (h : s.RestInv)
    (neutral : ms.all Micro.neutral = true) : (runMicros ms s).Inv := by
  refine h.runMicros_inv ?_ (h.replay_neutral neutral)
  rw [List.all_eq_true] at neutral ⊢
  exact fun m mem => Micro.neutral_plain (neutral m mem)

/-! ## The poll and the read -/

/-- HardwareTimeout from a poll leads to a failed block that meets the invariant. -/
theorem State.CoreInv.raiseTimeout {s : State} (h : s.CoreInv) (noReset : s.env.rst = [])
    (bound : s.params.pollBound.isSome = true) : s.raiseTimeout.FailedInv := by
  obtain ⟨agree, ended⟩ := State.raiseTimeout_agreeOutside noReset
  have stop : stopCmp s.raiseTimeout.trace = stopCmp s.trace := by
    simp [State.raiseTimeout, timeoutMicros, runWrites, gapThen, State.rstNow, noReset, Micro.apply]
  have failed : ({ s with ctl := { s.ctl with fault := true, phase := Phase.idle.code, loop := false } } : State).CoreInv := by
    obtain ⟨channel, ⟨started⟩, ⟨stopped, stopDuty, pattern⟩, control⟩ := h
    exact ⟨channel, ⟨started⟩, ⟨stopped, stopDuty, pattern⟩,
      ⟨Nat.zero_le _, control.tierLegal, nofun, by simp [Phase.code], nofun, nofun⟩⟩
  have ctl := agree.ctl
  have params := agree.params
  refine ⟨failed.congr agree (State.raiseTimeout_adc_ch noReset) stop, ended, ?_, ?_, ?_, ?_⟩ <;>
    simp only [ctl, params, bound]

/-- What is left of a read once its conversion is complete leads to rest. -/
theorem State.CoreInv.runMicros_behindPoll {s : State} (h : s.CoreInv) (noReset : s.env.rst = []) (noFault : s.ctl.fault = false)
    (notBusy : s.adc.busy = false) {rest : List Micro}
    (place : (s.ctl.phase = Phase.idle.code ∧ rest = afterPoll) ∨ (s.ctl.phase = Phase.itSample.code ∧ rest = afterSamplePoll)) :
    (runMicros rest s).RestInv := by
  let cleared : State := { s with adc := { s.adc with done := false }, pending := [] }
  have atRest : cleared.RestInv := by
    obtain ⟨channel, ⟨started⟩, ⟨stopped, stopDuty, pattern⟩, control⟩ := h
    exact ⟨⟨channel, ⟨started⟩, ⟨stopped, stopDuty, pattern⟩, ⟨control.phaseLegal, control.tierLegal, control.looping,
      control.booting, control.selected, control.acted⟩⟩, rfl, noFault, notBusy, rfl⟩
  have agree : ∀ ms, (replay (.adcClearDone :: ms) s).Agree (replay ms cleared) := fun ms =>
    replay_agree ms ⟨rfl, rfl, rfl, rfl, rfl, rfl, rfl, rfl, rfl, rfl, rfl, rfl, rfl, rfl, rfl, rfl⟩
  have command : (replay [.retSample, .opReturn 0x02#8] cleared).RestInv := atRest.replay_neutral rfl
  rcases place with ⟨-, rfl⟩ | ⟨phase, rfl⟩
  · obtain ⟨run, -, ended⟩ := runMicros_plain (ms := afterPoll) rfl ⟨noReset, notBusy⟩
    exact command.of_agree (run.trans (agree _)) ended
  · obtain ⟨run, -, ended⟩ := runMicros_plain (ms := afterSamplePoll) rfl ⟨noReset, notBusy⟩
    let converted := replay ([.retSample, .opReturn 0x02#8] ++ tempConvMicros .result) cleared
    have convertedRest : converted.RestInv := atRest.replay_neutral rfl
    have sample : converted.ctl.phase = Phase.itSample.code := phase
    have latched : (Micro.apply .ctlTemp converted).RestInv :=
      convertedRest.withCtl rfl rfl rfl convertedRest.core.control.tierLegal
        (fun act => absurd (sample.symm.trans act) (by decide)) (sample ▸ by decide)
    exact (latched.enter_sampling (q := .itDispTemp) (.inr (.inl rfl))).of_agree (run.trans (agree _)) ended

/-- A LOOK at the poll, without reset, leads to the invariant: the read goes on to rest, is held again, or fails. -/
theorem State.PollInv.runMicros_inv {s : State} {looks : Option Nat} {rest : List Micro} (h : s.PollInv looks rest)
    (noReset : s.env.rst = []) : (runMicros (.adcPoll looks :: rest) s).Inv := by
  have core := h.core.gapStep
  have noResetThen : s.gapStep.env.rst = [] := by simp [noReset]
  have noFault : s.gapStep.ctl.fault = false := by simpa using h.noFault
  have place : (s.gapStep.ctl.phase = Phase.idle.code ∧ rest = afterPoll) ∨
      (s.gapStep.ctl.phase = Phase.itSample.code ∧ rest = afterSamplePoll) := by simpa using h.place
  have failing (bounded : looks.isSome = true) : s.gapStep.raiseTimeout.Inv :=
    (core.raiseTimeout noResetThen (by rw [State.gapStep_params, ← h.bound, bounded])).inv
  rw [runMicros_cons_poll (State.rstNow_of_none noReset)]
  rcases s.gapStep_conv with ⟨-, -, adc, -⟩ | ⟨-, adc, -⟩
  · have done : s.gapStep.adc.done = true := by rw [adc]; rfl
    have notBusy : s.gapStep.adc.busy = false := by rw [adc]; rfl
    have goesOn := (core.runMicros_behindPoll noResetThen noFault notBusy place).inv
    rw [done]
    match looks with
    | none => exact goesOn
    | some 0 => exact failing rfl
    | some (n + 1) => exact goesOn
  · have notDone : s.gapStep.adc.done = false := by rw [adc, h.notDone]
    have busy : s.gapStep.adc.busy = true := by rw [adc, h.busy]
    have heldAgain (left : Option Nat) (same : left.isSome = looks.isSome) :
        ({ s.gapStep with pending := .adcPoll left :: rest } : State).Inv := by
      have poll : s.gapStep.PollInv left rest :=
        ⟨core, noFault, busy, notDone, by rw [same, h.bound, State.gapStep_params], place⟩
      obtain ⟨⟨channel, ⟨started⟩, ⟨stopped, stopDuty, pattern⟩, ⟨phaseLegal, tierLegal, looping, booting, selected, acted⟩⟩,
        noFault, busy, notDone, bound, place⟩ := poll
      exact State.PollInv.inv ⟨⟨channel, ⟨started⟩, ⟨stopped, stopDuty, pattern⟩,
        ⟨phaseLegal, tierLegal, looping, booting, selected, acted⟩⟩, noFault, busy, notDone, bound, place⟩ rfl
    rw [notDone]
    match looks with
    | none => exact heldAgain none rfl
    | some 0 => exact failing rfl
    | some 1 => exact failing rfl
    | some (n + 2) => exact heldAgain (some (n + 1)) rfl

/-- The truncated channel fits its bits, whatever their number. -/
theorem chanTrunc_lt (p : Params) (channel : Nat) : (chanTrunc p channel).toNat < 2 ^ p.chBits := by
  rw [chanTrunc, BitVec.toNat_ofNat]
  exact (Nat.mod_le _ _).trans_lt (Nat.mod_lt _ (Nat.two_pow_pos _))

/-- A READ FROM REST leads to the invariant, of a command and in an iteration. -/
theorem State.RestInv.runMicros_adcRead_inv {s : State} (h : s.RestInv) (channel : Nat) {tail : List Micro}
    (place : (s.ctl.phase = Phase.idle.code ∧ afterPoll ++ tail = afterPoll) ∨
      (s.ctl.phase = Phase.itSample.code ∧ afterPoll ++ tail = afterSamplePoll)) :
    (runMicros (adcReadMicros s.params.pollBound channel ++ tail) s).Inv := by
  apply runMicros_inv_of_noReset
  obtain ⟨u, started, -, -, run⟩ := runMicros_adcRead (s := s.withRst []) ⟨rfl, h.notBusy⟩ s.params.pollBound channel tail
  have core : (readStarted channel (s.withRst [])).CoreInv := by
    have stop : stopCmp (readStarted channel s).trace = stopCmp s.trace :=
      stopCmp_append_of_neutral (by simp [stopCmpAfter]) _
    obtain ⟨-, ⟨started⟩, ⟨stopped, stopDuty, pattern⟩, control⟩ := h.core
    exact ⟨chanTrunc_lt s.params channel, ⟨started⟩, ⟨stopped, fun v last => stopDuty v (stop.symm.trans last), pattern⟩,
      ⟨control.phaseLegal, control.tierLegal, control.looping, control.booting, control.selected, control.acted⟩⟩
  have poll : u.PollInv s.params.pollBound (afterPoll ++ tail) := by
    refine ⟨core.of_agree started, ?_, ?_, ?_, ?_, ?_⟩ <;> simp only [started.ctl, started.adc, started.params]
    · exact h.noFault
    · rfl
    · exact h.notDone
    · rfl
    · exact place
  rw [run]
  exact poll.runMicros_inv (started.rst.trans rfl)

/-! ## Phases -/

/-- The end of IT_ACT records a MotorState that is MOT.RUN's. -/
theorem State.RestInv.recordMotor {s : State} (h : s.RestInv) (act : s.ctl.phase = Phase.itAct.code)
    (run : s.mot.run = decide (s.ctl.tier ≠ 0#3)) :
    (replay [.ctlMstate (mstateOfTier s.ctl.tier), .ctlPhase .itDispFan] s).RestInv := by
  have recorded : (Micro.apply (.ctlMstate (mstateOfTier s.ctl.tier)) s).RestInv :=
    h.withCtl rfl rfl rfl h.core.control.tierLegal h.core.control.selected (act ▸ by decide)
  exact recorded.enter (q := .itDispFan) (fun _ => by decide) (by simp) (by simp)
    fun _ => (MotorState.bit_mstateOfTier _).trans run.symm

/-- The actuation of a tier, executed alone in IT_ACT. -/
theorem State.RestInv.replay_act {s : State} (h : s.RestInv) (act : s.ctl.phase = Phase.itAct.code) :
    (replay (actMicros s.ctl.tier ++ [.ctlPhase .itDispFan]) s).RestInv := by
  have notFan : s.ctl.phase ≠ Phase.itDispFan.code := act ▸ by decide
  rw [actMicros, List.append_assoc, replay_append]
  by_cases stop : s.ctl.tier = 0#3
  · have stopped := h.replay_motStop notFan
    rw [if_pos stop]
    rw [Machine.replay_motStop] at stopped ⊢
    exact stopped.recordMotor act (by simp [stop])
  · have rotates := h.replay_motRotate notFan .cw (tierDuty s.ctl.tier)
    rw [if_neg stop]
    rw [Machine.replay_motRotate] at rotates ⊢
    exact rotates.recordMotor act (by simp [stop])

/-- ONE PHASE FROM REST leads to the invariant. -/
theorem State.RestInv.runMicros_phase_inv {s : State} (h : s.RestInv) {p : Phase} (phase : s.ctl.phase = p.code)
    {ms : List Micro} (micros : phaseMicros p s = .ok ms) : (runMicros ms s).Inv := by
  have boots : p = .bootAdc ∨ p = .bootMot ∨ p = .bootDisp → s.ctl.loop = true := by
    rintro (rfl | rfl | rfl) <;> exact h.core.control.booting (by simp [phase, Phase.code])
  cases p with
  | idle =>
    cases micros
    exact h.runMicros_inv rfl h
  | bootAdc =>
    cases micros
    refine h.runMicros_inv rfl ?_
    rw [replay_append]
    have init : (replay (adcInitMicros s.params.refsSel s.params.divSel) s).RestInv := h.replay_neutral rfl
    exact init.enter_boot (.inr (.inl rfl)) (boots (.inl rfl))
  | bootMot =>
    cases micros
    refine h.runMicros_inv rfl ?_
    rw [replay_append]
    have init := h.replay_motInit (phase ▸ by decide)
    exact init.enter_boot (.inr (.inr rfl)) (boots (.inr (.inl rfl)))
  | bootDisp =>
    cases micros
    exact h.runMicros_inv rfl ((h.neutral (m := .dispInit) rfl).enter_sampling (.inl rfl))
  | itSample =>
    cases micros
    rw [List.append_assoc]
    exact h.runMicros_adcRead_inv _ (.inr ⟨phase, rfl⟩)
  | itDispTemp =>
    cases micros
    exact h.runMicros_inv rfl ((h.neutral (m := .dispTemp) rfl).enter_sampling (.inr (.inr rfl)))
  | itSelect =>
    cases micros
    refine h.runMicros_inv rfl ?_
    rw [replay_append]
    have banded : (replay (bandSelMicros .latch) s).RestInv := h.replay_neutral rfl
    rw [replay_bandSel] at banded ⊢
    have notAct : s.ctl.phase ≠ Phase.itAct.code := phase ▸ by decide
    have latched := banded.withCtl (ctl := { s.ctl with tier := bandTier s.ctl.temp }) rfl rfl rfl (bandTier_le _)
      (fun act => absurd act notAct) (phase ▸ by decide)
    simpa [replay_cons, replay_nil, Micro.apply, tempOf] using
      latched.enter (q := .itAct) (fun _ => by decide) (by simp) (fun _ => rfl) nofun
  | itAct =>
    simp only [phaseMicros] at micros
    split at micros <;> cases micros
    refine h.runMicros_inv ?_ (h.replay_act phase)
    unfold actMicros
    split <;> rfl
  | itDispFan =>
    cases micros
    have shown := h.neutral (m := .dispFan) rfl
    cases loop : s.ctl.loop with
    | true => exact h.runMicros_inv rfl (shown.enter_sampling (.inl rfl))
    | false =>
      have idle : (Micro.apply (.ctlPhase .idle) (Micro.apply .dispFan s)).RestInv :=
        shown.enter (fun looping => absurd (looping.symm.trans loop) (by decide)) (by simp) nofun nofun
      exact h.runMicros_inv rfl (idle.neutral (m := .opReturn 0x0A#8) rfl)

theorem State.RestInv.runPhase_inv {s t : State} (h : s.RestInv) {p : Phase} (phase : s.ctl.phase = p.code)
    (next : runPhase p s = .next t) : t.Inv := by
  unfold runPhase at next
  split at next <;> cases next
  rename_i micros
  exact h.runMicros_phase_inv phase micros

/-- A failed block is idle, so that a phase that is next finds SEQ at rest. -/
theorem State.Inv.rest_of_nextPhase {s : State} (h : s.Inv) {p : Phase} (next : s.nextPhase = some p) :
    s.RestInv ∧ s.ctl.phase = p.code := by
  obtain ⟨ended, phase, notIdle⟩ := State.nextPhase_some next
  refine ⟨h.rest ended (Bool.eq_false_iff.mpr fun fault => ?_), phase⟩
  obtain ⟨-, idle, -⟩ := h.failure.failed fault
  exact notIdle (Phase.code_injective (phase.symm.trans idle))

theorem runPhases_inv {n : Nat} {s t : State} (h : s.Inv) (ran : runPhases n s = .next t) : t.Inv := by
  induction n generalizing s with
  | zero => cases ran; exact h
  | succ n ih =>
    cases next : s.nextPhase with
    | none => rw [runPhases_stop next] at ran; cases ran; exact h
    | some p =>
      obtain ⟨rest, phase⟩ := h.rest_of_nextPhase next
      cases micros : phaseMicros p s with
      | error r => simp [runPhases, next, runPhase, micros] at ran
      | ok ms =>
        rw [runPhases_succ next micros] at ran
        exact ih (rest.runMicros_phase_inv phase micros) ran

/-! ## Operations and steps -/

/-- The beginning of CTL_ITER, executed alone. -/
theorem State.RestInv.replay_enterIter {s : State} (h : s.RestInv) :
    (replay [.opStart 0x0A#8, .ctlPhase .itSample] s).RestInv :=
  (h.neutral (m := .opStart 0x0A#8) rfl).enter_sampling (.inl rfl)

/-- The beginning of CTL_RUN, executed alone. -/
theorem State.RestInv.replay_enterRun {s : State} (h : s.RestInv) :
    (replay [.opStart 0x0B#8, .ctlLoop true, .ctlPhase .bootAdc] s).RestInv := by
  obtain ⟨⟨channel, ⟨started⟩, ⟨stopped, stopDuty, pattern⟩, control⟩, ended, noFault, notBusy, notDone⟩ :=
    h.neutral (m := .opStart 0x0B#8) rfl
  exact ⟨⟨channel, ⟨started⟩, ⟨stopped, stopDuty, pattern⟩, ⟨Phase.bootAdc.toNat_code_le, control.tierLegal,
    fun _ => (by decide : Phase.bootAdc.code ≠ Phase.idle.code), fun _ => rfl, nofun, nofun⟩⟩, ended, noFault, notBusy, notDone⟩

/-- AN OPERATION FROM REST in IDLE leads to the invariant. -/
theorem State.RestInv.exec_inv {s t : State} (h : s.RestInv) (idle : s.ctl.phase = Phase.idle.code) {i : Instr}
    (next : exec i s = .next t) : t.Inv := by
  have notFan : s.ctl.phase ≠ Phase.itDispFan.code := idle ▸ by decide
  cases i with
  | nop => cases next; exact h.runMicros_neutral_inv rfl
  | adcInit refs div => cases next; exact h.runMicros_neutral_inv rfl
  | adcRead channel =>
    cases next
    have read := h.runMicros_adcRead_inv channel.toNat (tail := []) (.inl ⟨idle, List.append_nil _⟩)
    rwa [List.append_nil] at read
  | adcShutdown => cases next; exact h.runMicros_neutral_inv rfl
  | tempConv sample => cases next; exact h.runMicros_neutral_inv rfl
  | pwmStart duty => cases next; exact h.runMicros_inv rfl (h.replay_pwmStart duty)
  | motInit => cases next; exact h.runMicros_inv rfl (h.replay_motInit notFan)
  | motRotate dir speed =>
    cases next
    exact h.runMicros_inv (motRotateMicros_plain dir speed) (h.replay_motRotate notFan dir speed)
  | motStop => cases next; exact h.runMicros_inv motStopMicros_plain (h.replay_motStop notFan)
  | bandSel temp => cases next; exact h.runMicros_neutral_inv rfl
  | ctlIter => exact runPhases_inv (h.runMicros_inv rfl h.replay_enterIter) next
  | ctlRun => exact runPhases_inv (h.runMicros_inv rfl h.replay_enterRun) next

theorem State.RestInv.acceptWord_inv {s t : State} (h : s.RestInv) (idle : s.ctl.phase = Phase.idle.code) {w : CmdWord}
    (next : acceptWord w s = .next t) : t.Inv := by
  cases decoded : decodeWord w with
  | ok i => exact h.exec_inv idle ((acceptWord_of_decoded decoded s).symm.trans next)
  | error e =>
    obtain ⟨reserved, -⟩ := decodeWord_error decoded
    rw [acceptWord_of_reserved reserved] at next
    cases next
    refine h.runMicros_neutral_inv ?_
    have notRotate : opField w ≠ 0x07#8 := by rintro eq; simp [eq] at reserved
    have notStop : opField w ≠ 0x08#8 := by rintro eq; simp [eq] at reserved
    simp [opMicros, Micro.neutral, notRotate, notStop]

/-- A gap in which SEQ does nothing keeps the invariant, at rest and in a failed block. -/
theorem State.Inv.gapStep {s : State} (h : s.Inv) (ended : s.pending = []) : s.gapStep.Inv := by
  have endedThen : s.gapStep.pending = [] := by simpa using ended
  cases fault : s.ctl.fault with
  | false =>
    obtain ⟨core, -, noFault, notBusy, notDone⟩ := h.rest ended fault
    have adc := State.gapStep_adc_of_disabled (State.convEnabled_of_idle notBusy)
    exact State.RestInv.inv ⟨core.gapStep, endedThen, by simpa using noFault, adc ▸ notBusy, adc ▸ notDone⟩
  | true =>
    obtain ⟨bound, idle, noLoop, -⟩ := h.failure.failed fault
    refine State.FailedInv.inv ⟨h.core.gapStep, endedThen, ?_, ?_, ?_, ?_⟩ <;> simpa

/-- EVERY STEP KEEPS THE INVARIANT. -/
theorem step_inv {s t : State} (h : s.Inv) (next : step s = .next t) : t.Inv := by
  have is := step_is s
  have dropped := h.dropPresented
  generalize step s = outcome at next is
  cases is with
  | reset => cases next; exact s.dropPresented.applyReset_inv
  | failed noReset fault =>
    obtain ⟨-, -, -, ended⟩ := h.failure.failed fault
    cases next
    exact dropped.gapStep ended
  | held noReset noFault held =>
    cases next
    rcases (dropped.withRst []).cases with atRest | ⟨looks, rest, pending, poll⟩ | failed
    · exact absurd atRest.ended held
    · rw [show s.pending = .adcPoll looks :: rest from pending]
      exact runMicros_inv_of_noReset (poll.runMicros_inv rfl)
    · exact absurd failed.ended held
  | start free idle => exact (dropped.rest free.ended free.noFault).exec_inv idle next
  | accept w free ready =>
    obtain ⟨idle, -⟩ := s.cmdReady_iff.mp ready
    exact (dropped.rest free.ended free.noFault).acceptWord_inv idle next
  | quiet free => cases next; exact dropped.gapStep free.ended
  | phase p free phase => exact (dropped.rest free.ended free.noFault).runPhase_inv phase next
  | badPhase => cases next

/-- Settles O60. -/
theorem stepKeepsTheInvariant : Obligations.StepKeepsTheInvariant := by
  unfold Obligations.StepKeepsTheInvariant
  exact fun s t => step_inv

end Sys2Proof.Machine

/-! The endless loop (45_control_loop.md R198): no phase writes LOOP, and under the infinite poll nothing else does. -/

namespace Sys2Proof.Machine

/-- A micro-step that neither writes LOOP nor can end in a HardwareTimeout. -/
def Micro.staysInLoop (m : Micro) : Bool :=
  match m with
  | .ctlLoop _ => false
  | .adcPoll (some _) => false
  | _ => true

theorem Micro.apply_loop {m : Micro} (stays : m.staysInLoop = true) (s : State) :
    (m.apply s).ctl.loop = s.ctl.loop := by
  cases m with
  | ctlLoop => exact absurd stays Bool.false_ne_true
  | _ => rfl

/-- Without reset a run of such micro-steps leaves LOOP, whether it ends or is held. -/
theorem runMicros_loop {ms : List Micro} (stay : ms.all Micro.staysInLoop = true) {s : State} (noReset : s.env.rst = []) :
    (runMicros ms s).ctl.loop = s.ctl.loop := by
  induction ms generalizing s with
  | nil => rfl
  | cons m ms ih =>
    simp only [List.all_cons, Bool.and_eq_true] at stay
    obtain ⟨stayHead, stayTail⟩ := stay
    cases poll : m.poll? with
    | none =>
      rw [runMicros_cons_of_write (State.rstNow_of_none noReset) poll, ih stayTail (by simp [noReset]),
        Micro.apply_loop stayHead, State.gapStep_ctl]
    | some looks =>
      obtain rfl := (m.poll?_eq_some_iff looks).mp poll
      cases looks with
      | some n => exact absurd stayHead Bool.false_ne_true
      | none =>
        rw [runMicros_cons_poll (State.rstNow_of_none noReset)]
        cases s.gapStep.adc.done with
        | true => exact (ih stayTail (by simp [noReset])).trans (congrArg Ctl.loop s.gapStep_ctl)
        | false => exact congrArg Ctl.loop s.gapStep_ctl

/-- Under the infinite poll every phase stays in the loop. -/
theorem phaseMicros_staysInLoop {p : Phase} {s : State} {ms : List Micro} (infinite : s.params.pollBound = none)
    (micros : phaseMicros p s = .ok ms) : ms.all Micro.staysInLoop = true := by
  cases p with
  | itSample =>
    cases micros
    rw [infinite]
    rfl
  | itAct =>
    simp only [phaseMicros] at micros
    split at micros <;> cases micros
    unfold actMicros
    split <;> rfl
  | itDispFan =>
    cases micros
    unfold iterEndMicros
    split <;> rfl
  | _ => cases micros; rfl

/-- Where no reset comes, none comes after a step. -/
theorem step_noReset {s t : State} (noReset : s.env.rst = []) (next : step s = .next t) : t.env.rst = [] := by
  refine step_keeps (P := fun u => u.env.rst = []) (fun u none => by simp [none]) (fun m u none => by simp [none])
    (fun u none now => ?_) (fun _ _ none => none) (fun _ none => none) noReset next
  rw [State.rstNow_of_none none] at now
  cases now

/-- A step of the loop under the infinite poll is a phase or a look at the poll of IT_SAMPLE, and LOOP stays. -/
theorem step_of_loop {s : State} (h : s.Inv) (loop : s.ctl.loop = true) (infinite : s.params.pollBound = none)
    (noReset : s.env.rst = []) : ∃ t, step s = .next t ∧ t.ctl.loop = true := by
  have notIdle := h.control.looping loop
  rcases h.cases with ⟨core, ended, noFault, -, -⟩ | ⟨looks, rest, held, core, noFault, -, -, bound, place⟩ | failed
  · obtain ⟨p, phase⟩ | ⟨reserved, -⟩ := Phase.ofCode_cases s.ctl.phase
    swap
    · exact absurd core.control.phaseLegal (Nat.not_le.mpr reserved)
    rw [step_of_phase noReset noFault ended phase (fun idle => notIdle (idle ▸ phase)), runPhase]
    cases micros : phaseMicros p s.dropPresented with
    | error r =>
      obtain ⟨-, reserved, -⟩ := (phaseMicros_error_iff p s.dropPresented r).mp micros
      exact absurd core.control.tierLegal (Nat.not_le.mpr reserved)
    | ok ms =>
      have stay := phaseMicros_staysInLoop infinite micros
      exact ⟨_, rfl, (runMicros_loop (s := s.dropPresented) stay noReset).trans loop⟩
  · obtain ⟨idle, -⟩ | ⟨-, rfl⟩ := place
    · exact absurd idle notIdle
    obtain rfl : looks = none := by simpa [infinite] using bound
    exact ⟨_, step_of_held held noFault noReset, (runMicros_loop (s := s.dropPresented) rfl noReset).trans loop⟩
  · exact absurd failed.idle notIdle

/-- Settles O52: the step stays in the loop and keeps the invariant, by which a looping block is not idle and so its port
is closed, and has not failed under the infinite poll. -/
theorem loopNeverEnds : Obligations.LoopNeverEnds := by
  unfold Obligations.LoopNeverEnds
  intro s h loop infinite noReset
  obtain ⟨t, next, loopThen⟩ := step_of_loop h loop infinite noReset
  have inv := step_inv h next
  obtain ⟨params, -⟩ := stepKeepsParametersAndTracePast s t next
  have infiniteThen : t.params.pollBound = none := by rw [params, infinite]
  have noFault : t.ctl.fault = false := by
    refine Bool.eq_false_iff.mpr fun fault => ?_
    obtain ⟨bounded, -⟩ := inv.failure.failed fault
    simp [infiniteThen] at bounded
  have closed : t.cmdReady = false := by
    refine Bool.eq_false_iff.mpr fun ready => ?_
    obtain ⟨idle, -⟩ := t.cmdReady_iff.mp ready
    exact inv.control.looping loopThen idle
  exact ⟨t, next, inv, loopThen, infiniteThen, step_noReset noReset next, noFault, closed⟩

end Sys2Proof.Machine

/-! The Analog Sampling Unit, continued (41_adc_sampling.md): ADC_INIT (R110), the read that is answered at its first look or
not (R113 to R115), the held read (R114, R119), the read that finds the flag set (R117), and what a sample depends on
(00_scope.md R3). -/

namespace Sys2Proof.Machine

/-! ## ADC_INIT (R110 to R112) -/

theorem State.pwmKept_refl (s : State) : s.PwmKept s := ⟨rfl, rfl, rfl, rfl, fun _ => rfl⟩

/-- Plain micro-steps of a calm state that spare the timer settle as when executed alone. -/
theorem runMicros_settles {ms : List Micro} {s : State} (calm : s.Calm) (plain : ms.all Micro.plain = true)
    (spares : ms.all Micro.sparesTimer = true) : s.SettlesAs (replay ms s) (runMicros ms s) :=
  runMicros_settlesAs (.refl s) s.pwmKept_refl calm plain spares

theorem State.Agree.outsideKept {s t : State} (h : t.Agree s) : s.OutsideKept t := ⟨h.params, h.ain, h.cmds, h.rst⟩

/-- Settles O17: ADC_INIT is a plain run of three writes. -/
theorem adcInitProgramsSelectorDivisorEnable : Obligations.AdcInitProgramsSelectorDivisorEnable := by
  unfold Obligations.AdcInitProgramsSelectorDivisorEnable
  refine ⟨fun w op => ?decodes, fun s refs div calm => ⟨_, rfl, ?_⟩⟩
  case decodes =>
    unfold decodeWord
    rw [op]
    rfl
  obtain ⟨agree, timer, -, ended⟩ := runMicros_settles (ms := adcInitMicros refs div) calm rfl rfl
  rw [replay_adcInit] at agree
  exact ⟨agree.adc, timer, agree.pin, agree.mot, agree.ctl, agree.res, agree.convs, agree.draws,
    agree.outsideKept, ended, agree.trace⟩

/-! ## The first look (R113 to R115) -/

/-- Settles O19: the state after an answered read is `sampled`. -/
theorem adcReadReturnsTheAnswer : Obligations.AdcReadReturnsTheAnswer := by
  unfold Obligations.AdcReadReturnsTheAnswer
  refine ⟨fun w op => ?decodes, fun s channel calm _ can looks answered => ⟨_, rfl, ?_⟩⟩
  case decodes =>
    unfold decodeWord
    rw [op]
    rfl
  obtain ⟨agree, -, ended⟩ := runMicros_adcRead_answered calm can looks answered channel.toNat (rest := []) rfl
  rw [List.append_nil] at agree ended
  have timer : s.PwmKept (runMicros (adcReadMicros s.params.pollBound channel.toNat) s) := runMicros_pwmKept rfl calm.1
  exact ⟨agree.adc, agree.res, agree.convs, agree.trace, timer, agree.pin, agree.mot, agree.ctl, agree.draws,
    agree.outsideKept, ended⟩

/-- Settles O21: a read that is not answered stops where it is `readStarted`. -/
theorem adcReadWaitsForTheConverter : Obligations.AdcReadWaitsForTheConverter := by
  unfold Obligations.AdcReadWaitsForTheConverter
  intro s channel calm flag infinite unanswered
  obtain ⟨agree, held⟩ := runMicros_adcRead_held calm flag unanswered channel.toNat []
  rw [List.append_nil, ← infinite] at agree held
  rw [List.append_nil] at held
  have timer : s.PwmKept (runMicros (adcReadMicros s.params.pollBound channel.toNat) s) := runMicros_pwmKept rfl calm.1
  exact ⟨_, rfl, agree.adc, infinite ▸ held, State.cmdReady_of_pending (held ▸ List.cons_ne_nil _ _), agree.trace, timer,
    agree.pin, agree.mot, agree.ctl, agree.res, agree.convs, agree.draws, agree.outsideKept⟩

/-! ## Held at the infinite poll (R114, R115) -/

/-- A gap in which CONV does not move changes only what `Agree` leaves out. -/
theorem State.gapStep_agree_of_still {s : State} (noReset : s.env.rst = [])
    (still : s.convEnabled = false ∨ (s.gapAt 0).complete = false) : s.gapStep.Agree s := by
  obtain ⟨enabled, lets, -⟩ | ⟨-, adc, convs, trace⟩ := s.gapStep_conv
  · rcases still with off | off
    · exact absurd (off.symm.trans enabled) (by decide)
    · exact absurd (off.symm.trans lets) (by decide)
  · constructor <;> simp [adc, convs, trace, noReset]

/-- A gap in which CONV completes the conversion: the completion, and nothing else that `Agree` looks at. -/
theorem State.gapStep_agree_of_complete {s : State} (noReset : s.env.rst = []) (enabled : s.convEnabled = true)
    (lets : (s.gapAt 0).complete = true) : s.gapStep.Agree s.convComplete := by
  obtain ⟨-, -, adc, convs, trace⟩ | ⟨off | off, -⟩ := s.gapStep_conv
  · constructor <;> simp [adc, convs, trace, noReset]
  · exact absurd (off.symm.trans enabled) (by decide)
  · exact absurd (off.symm.trans lets) (by decide)

/-- A look at the infinite poll that finds nothing is the loss of the word presented and one gap. -/
theorem step_of_unanswered {s : State} {rest : List Micro} (held : s.HeldWith rest) (noReset : s.env.rst = [])
    (still : s.convEnabled = false ∨ (s.gapAt 0).complete = false) :
    step s = .next s.dropPresented.gapStep ∧ s.dropPresented.gapStep.HeldWith rest ∧ s.HangKept s.dropPresented.gapStep := by
  obtain ⟨pending, flag, noFault⟩ := held
  have agree : s.dropPresented.gapStep.Agree s.dropPresented :=
    State.gapStep_agree_of_still (s := s.dropPresented) noReset still
  have adc : s.dropPresented.gapStep.adc = s.adc := agree.adc
  have pendingThen : s.dropPresented.gapStep.pending = .adcPoll none :: rest := by simpa using pending
  refine ⟨?_, ⟨pendingThen, by rw [adc, flag], by simpa using noFault⟩, agree.adc, s.dropPresented.gapStep_pwmKept,
    agree.pin, agree.mot, agree.ctl, agree.res, agree.convs, agree.draws, agree.params, agree.trace⟩
  rw [step_of_held pending noFault noReset,
    runMicros_cons_poll (State.rstNow_of_none (s := s.dropPresented) noReset), adc, flag]
  show Host.Outcome.next { s.dropPresented.gapStep with pending := .adcPoll none :: rest } = _
  rw [← pendingThen]

/-- Settles O23: the step is one gap, which leaves the hang as it was; nothing from outside moves but the word that is
gone. -/
theorem hangIsKeptByEveryStep : Obligations.HangIsKeptByEveryStep := by
  unfold Obligations.HangIsKeptByEveryStep
  intro s rest hung
  obtain ⟨hungThen, kept⟩ := hung.gapStep
  have ⟨_, _, noReset⟩ := hung
  exact ⟨_, step_of_hung hung, hungThen, hungThen.cmdReady, kept.adc, kept.pwm, kept.pin, kept.mot, kept.ctl, kept.res,
    kept.convs, kept.draws, kept.trace, by simp, by simp, by simp, by simp [noReset]⟩

/-- SEQ STAYS HELD as long as CONV does not answer: the state after `k` such steps, with the gaps `k` nearer. -/
theorem run_of_unanswered {rest : List Micro} (k : Nat) {s : State} (held : s.HeldWith rest) (noReset : s.env.rst = [])
    (still : ∀ j, j < k → (s.gapAt j).complete = false) :
    ∃ t : State, Host.Core.run Sys2Proof.core k s = .next t ∧ t.HeldWith rest ∧ s.HangKept t ∧ t.env.rst = [] ∧
      t.env.ain = s.env.ain ∧ ∀ j, t.gapAt j = s.gapAt (j + k) := by
  induction k generalizing s with
  | zero => exact ⟨s, run_zero s, held, .refl s, noReset, rfl, fun _ => rfl⟩
  | succ k ih =>
    obtain ⟨stepped, heldThen, kept⟩ := step_of_unanswered held noReset (.inr (still 0 (Nat.succ_pos k)))
    have nearer : ∀ j, s.dropPresented.gapStep.gapAt j = s.gapAt (j + 1) := fun j => by
      rw [State.gapStep_gapAt]
      exact State.gapAt_congr rfl rfl _
    obtain ⟨t, ran, heldLast, keptLast, noResetLast, ain, gaps⟩ := ih heldThen (by simp [noReset])
      fun j before => nearer j ▸ still (j + 1) (Nat.succ_lt_succ before)
    refine ⟨t, by rw [run_succ_of_next stepped, ran], heldLast, kept.trans keptLast, noResetLast, ain.trans (by simp),
      fun j => ?_⟩
    rw [gaps, nearer, Nat.add_assoc]

/-- A run and one step more. -/
theorem run_succ_last {k : Nat} {s t u : State} (ran : Host.Core.run Sys2Proof.core k s = .next t) (stepped : step t = .next u) :
    Host.Core.run Sys2Proof.core (k + 1) s = .next u := by
  induction k generalizing s with
  | zero =>
    cases ran
    rw [run_succ_of_next stepped, run_zero]
  | succ k ih =>
    cases first : step s with
    | next s' => rw [run_succ_of_next first] at ran ⊢; exact ih ran
    | fault r => cases r
    | refused r =>
      have first' : Sys2Proof.core.step s = .refused r := first
      simp [Host.Core.run, first'] at ran

/-- The look that finds the answer: what is left of the read settles from the completed conversion. -/
theorem step_of_answered {s : State} {rest : List Micro} (held : s.HeldWith rest) (noReset : s.env.rst = [])
    (enabled : s.convEnabled = true) (lets : (s.gapAt 0).complete = true) (plain : rest.all Micro.plain = true)
    (spares : rest.all Micro.sparesTimer = true) :
    ∃ u, step s = .next u ∧ s.SettlesAs (replay rest s.dropPresented.convComplete) u := by
  obtain ⟨pending, -, noFault⟩ := held
  have agree : s.dropPresented.gapStep.Agree s.dropPresented.convComplete :=
    State.gapStep_agree_of_complete (s := s.dropPresented) noReset enabled lets
  have calm : s.dropPresented.gapStep.Calm := ⟨by simp [noReset], congrArg Adc.busy agree.adc⟩
  have done : s.dropPresented.gapStep.adc.done = true := congrArg Adc.done agree.adc
  refine ⟨runMicros rest s.dropPresented.gapStep, ?_,
    runMicros_settlesAs agree s.dropPresented.gapStep_pwmKept calm plain spares⟩
  rw [step_of_held pending noFault noReset,
    runMicros_cons_poll (State.rstNow_of_none (s := s.dropPresented) noReset), done]
  rfl

theorem replay_afterPoll (s : State) :
    replay afterPoll s = { s with
      adc := { s.adc with done := false }
      res := s.adc.data.setWidth 16
      trace := s.trace ++ [.opReturn 0x02#8] } := rfl

theorem replay_afterSamplePoll (s : State) :
    replay afterSamplePoll s = { s with
      adc := { s.adc with done := false }
      res := tempWord s.params s.adc.data
      ctl := { s.ctl with temp := tempWord s.params s.adc.data, phase := Phase.itDispTemp.code }
      trace := s.trace ++ [.opReturn 0x02#8, .opStart 0x04#8, .opReturn 0x04#8] } := by
  simp [afterSamplePoll, replay_append, replay_afterPoll, replay_tempConv, replay_cons, replay_nil, Micro.apply, sampleOf]

/-- The sample CONV would write depends on the channel, the index and the environment's table. -/
theorem State.sampleNow_congr {s t : State} (adc : t.adc = s.adc) (convs : t.convs = s.convs) (ain : t.env.ain = s.env.ain) :
    t.sampleNow = s.sampleNow := by
  simp only [State.sampleNow, State.ainAt, adc, convs, ain]

/-- Settles O24: held until the answer comes, and then what is left of the read, of a command or of IT_SAMPLE, settles. -/
theorem heldReadReturnsOnceAnswered : Obligations.HeldReadReturnsOnceAnswered := by
  unfold Obligations.HeldReadReturnsOnceAnswered
  intro n s rest held noReset enabled still lets
  obtain ⟨t, ran, heldThen, kept, noResetThen, ain, gaps⟩ := run_of_unanswered n held noReset still
  have enabledThen : t.convEnabled = true := by simpa only [State.convEnabled, kept.adc] using enabled
  have letsThen : (t.gapAt 0).complete = true := by rwa [gaps, Nat.zero_add]
  have sample : t.sampleNow = s.sampleNow := State.sampleNow_congr kept.adc kept.convs ain
  have sampleDropped : t.dropPresented.sampleNow = s.sampleNow := sample
  refine ⟨fun k upTo => ?_, ?_, ?_⟩
  · obtain ⟨t, ran, heldThen, kept, -⟩ := run_of_unanswered k held noReset fun j before => still j (before.trans_le upTo)
    exact ⟨t, ran, heldThen, kept.adc, kept.pwm, kept.pin, kept.mot, kept.ctl, kept.res, kept.convs, kept.trace⟩
  · rintro rfl
    obtain ⟨u, stepped, agree, timer, -, ended⟩ := step_of_answered heldThen noResetThen enabledThen letsThen rfl rfl
    rw [replay_afterPoll] at agree
    refine ⟨u, run_succ_last ran stepped, ended, agree.res.trans ?_, agree.adc.trans ?_, agree.convs.trans ?_,
      agree.trace.trans ?_, agree.pin.trans kept.pin, agree.mot.trans kept.mot, agree.ctl.trans kept.ctl,
      kept.pwm.trans' timer⟩ <;> simp [sampleDropped, kept.adc, kept.convs, kept.trace]
  · rintro rfl
    obtain ⟨u, stepped, agree, timer, -, ended⟩ := step_of_answered heldThen noResetThen enabledThen letsThen rfl rfl
    rw [replay_afterSamplePoll] at agree
    refine ⟨u, run_succ_last ran stepped, ended, agree.res.trans ?_, agree.adc.trans ?_, agree.convs.trans ?_,
      agree.ctl.trans ?_, agree.trace.trans ?_, agree.pin.trans kept.pin, agree.mot.trans kept.mot,
      kept.pwm.trans' timer⟩ <;> simp [sampleDropped, kept.adc, kept.convs, kept.trace, kept.ctl, kept.params]

/-! ## The flag found set (R117) -/

/-- A micro-step that writes none of the converter's registers. -/
def Micro.sparesConverter (m : Micro) : Bool :=
  match m with
  | .adcRefs _ => false
  | .adcDiv _ => false
  | .adcEn _ => false
  | .adcCh _ => false
  | .adcTrigger => false
  | .adcClearDone => false
  | _ => true

theorem Micro.apply_adc {m : Micro} (spares : m.sparesConverter = true) (s : State) : (m.apply s).adc = s.adc := by
  cases m with
  | adcRefs | adcDiv | adcEn | adcCh | adcTrigger | adcClearDone => exact absurd spares Bool.false_ne_true
  | _ => rfl

/-- Writes in whose gaps CONV does not move, because no gap lets it or because it is not enabled and not written, agree with
the same writes executed alone. -/
theorem runMicros_of_still {ms : List Micro} (writes : ∀ m ∈ ms, m.poll? = none) {s : State} (noReset : s.env.rst = [])
    (still : (∀ k, k < ms.length → (s.gapAt k).complete = false) ∨
      (s.convEnabled = false ∧ ms.all Micro.sparesConverter = true)) :
    (runMicros ms s).Agree (replay ms s) ∧ (runMicros ms s).pending = [] := by
  induction ms generalizing s with
  | nil => exact ⟨⟨rfl, rfl, rfl, rfl, rfl, rfl, rfl, rfl, rfl, rfl, rfl, rfl, rfl, rfl, rfl, rfl⟩, rfl⟩
  | cons m ms ih =>
    have agree : s.gapStep.Agree s :=
      State.gapStep_agree_of_still noReset (still.symm.imp And.left (fun all => all 0 (Nat.succ_pos _)))
    rw [runMicros_cons_of_write (State.rstNow_of_none noReset) (writes m (List.mem_cons_self ..))]
    have stillThen : (∀ k, k < ms.length → ((m.apply s.gapStep).gapAt k).complete = false) ∨
        ((m.apply s.gapStep).convEnabled = false ∧ ms.all Micro.sparesConverter = true) := by
      rcases still with all | ⟨off, spare⟩
      · refine .inl fun k before => ?_
        rw [Micro.apply_gapAt, State.gapStep_gapAt]
        exact all (k + 1) (Nat.succ_lt_succ before)
      · simp only [List.all_cons, Bool.and_eq_true] at spare
        obtain ⟨spareHead, spareTail⟩ := spare
        refine .inr ⟨?_, spareTail⟩
        simpa only [State.convEnabled, Micro.apply_adc spareHead, agree.adc] using off
    obtain ⟨run, ended⟩ := ih (fun m' mem => writes m' (List.mem_cons_of_mem m mem)) (by simp [noReset]) stillThen
    exact ⟨run.trans (replay_agree ms (m.apply_agree agree)), ended⟩

/-- Settles O25: the look finds the old flag, and behind it the old data are returned with CONV still at work. -/
theorem readWithFlagSetReturnsStaleData : Obligations.ReadWithFlagSetReturnsStaleData := by
  unfold Obligations.ReadWithFlagSetReturnsStaleData
  intro s channel calm flag looks still3 still4 still5 still6
  refine ⟨_, rfl, ?_⟩
  obtain ⟨u, started, -, gaps, run⟩ := runMicros_adcRead calm s.params.pollBound channel.toNat []
  rw [List.append_nil, List.append_nil] at run
  have noReset : u.env.rst = [] := started.rst.trans calm.1
  have agree : u.gapStep.Agree u := State.gapStep_agree_of_still noReset (.inr (gaps 0 ▸ still3))
  have adc : u.gapStep.adc = { s.adc with ch := chanTrunc s.params channel.toNat, busy := true } :=
    agree.adc.trans started.adc
  have still : ∀ k, k < afterPoll.length → (u.gapStep.gapAt k).complete = false := by
    intro k before
    rw [State.gapStep_gapAt, gaps]
    match k, before with
    | 0, _ => exact still4
    | 1, _ => exact still5
    | 2, _ => exact still6
  have done : u.gapStep.adc.done = true := by rw [adc]; exact flag
  obtain ⟨behind, ended⟩ := runMicros_of_still (ms := afterPoll) (by decide) (s := u.gapStep) (by simp [noReset]) (.inl still)
  rw [replay_afterPoll, adc] at behind
  rw [runMicros_cons_poll (State.rstNow_of_none noReset), done, pollLook_true looks] at run
  rw [run]
  exact ⟨behind.res, behind.adc, ended⟩

/-! ## What a sample depends on (00_scope.md R3) -/

/-- Two states that differ at most in the timer, the pins, the actuator, the loop's registers and the draws. -/
structure State.SamplesAlike (s t : State) : Prop where
  adc : s.adc = t.adc
  res : s.res = t.res
  pending : s.pending = t.pending
  convs : s.convs = t.convs
  trace : s.trace = t.trace
  env : s.env = t.env
  gapsUsed : s.gapsUsed = t.gapsUsed
  params : s.params = t.params

theorem State.SamplesAlike.rstNow {s t : State} (h : s.SamplesAlike t) : s.rstNow = t.rstNow := by
  simp only [State.rstNow, h.env]

theorem State.SamplesAlike.applyReset {s t : State} (h : s.SamplesAlike t) : s.applyReset.SamplesAlike t.applyReset := by
  constructor <;> simp [h.trace, h.env, h.gapsUsed, h.params]

theorem State.SamplesAlike.setPending {s t : State} (h : s.SamplesAlike t) (p : List Micro) :
    ({ s with pending := p } : State).SamplesAlike { t with pending := p } :=
  ⟨h.adc, h.res, rfl, h.convs, h.trace, h.env, h.gapsUsed, h.params⟩

theorem State.SamplesAlike.gapStep {s t : State} (h : s.SamplesAlike t) : s.gapStep.SamplesAlike t.gapStep := by
  obtain ⟨adc, res, pending, convs, trace, env, gapsUsed, params⟩ := h
  have gap : s.gapAt 0 = t.gapAt 0 := State.gapAt_congr (congrArg Env.gaps env) gapsUsed 0
  have enabled : s.convEnabled = t.convEnabled := by simp only [State.convEnabled, adc]
  have sample : s.sampleNow = t.sampleNow := State.sampleNow_congr adc convs (congrArg Env.ain env)
  have used : s.gapStep.gapsUsed = t.gapStep.gapsUsed := by simp [State.gapStep, env, gapsUsed]
  have conv : s.gapStep.adc = t.gapStep.adc ∧ s.gapStep.convs = t.gapStep.convs ∧ s.gapStep.trace = t.gapStep.trace := by
    simp only [State.gapStep, State.convMove, gap, enabled]
    split <;> simp [adc, convs, trace, sample]
  obtain ⟨adcThen, convsThen, traceThen⟩ := conv
  exact ⟨adcThen, by simpa using res, by simpa using pending, convsThen, traceThen, by simp [env], used, by simpa using params⟩

/-- A micro-step of a read, or of HardwareTimeout: it writes neither a register of the converter, nor RES, nor the trace
from the timer, the pins, the actuator or the loop. -/
def Micro.samples (m : Micro) : Bool :=
  match m with
  | .opStart _ => true
  | .opReturn _ => true
  | .adcCh _ => true
  | .adcTrigger => true
  | .adcPoll _ => true
  | .adcClearDone => true
  | .retSample => true
  | .ctlFault => true
  | .ctlPhase _ => true
  | .ctlLoop _ => true
  | _ => false

theorem State.SamplesAlike.apply {s t : State} (h : s.SamplesAlike t) {m : Micro} (samples : m.samples = true) :
    (m.apply s).SamplesAlike (m.apply t) := by
  obtain ⟨adc, res, pending, convs, trace, env, gapsUsed, params⟩ := h
  cases m with
  | opStart | opReturn | adcCh | adcTrigger | adcPoll | adcClearDone | retSample | ctlFault | ctlPhase | ctlLoop =>
    constructor <;> simp only [Micro.apply, State.emit, adc, res, pending, convs, trace, env, gapsUsed, params]
  | _ => exact absurd samples Bool.false_ne_true

theorem runWrites_samplesAlike {ms : List Micro} (samples : ms.all Micro.samples = true) {s t : State}
    (h : s.SamplesAlike t) : (runWrites ms s).SamplesAlike (runWrites ms t) := by
  induction ms generalizing s t with
  | nil => exact h.setPending []
  | cons m ms ih =>
    simp only [List.all_cons, Bool.and_eq_true] at samples
    obtain ⟨samplesHead, samplesTail⟩ := samples
    simp only [runWrites, gapThen, h.rstNow]
    split
    · exact h.applyReset
    · exact ih samplesTail (h.gapStep.apply samplesHead)

/-- A read from two such states leads to two such states, in whatever way it goes. -/
theorem runMicros_samplesAlike {ms : List Micro} (samples : ms.all Micro.samples = true) {s t : State}
    (h : s.SamplesAlike t) : (runMicros ms s).SamplesAlike (runMicros ms t) := by
  induction ms generalizing s t with
  | nil => exact h.setPending []
  | cons m ms ih =>
    simp only [List.all_cons, Bool.and_eq_true] at samples
    obtain ⟨samplesHead, samplesTail⟩ := samples
    have look : m.look s.gapStep = m.look t.gapStep := by simp only [Micro.look, h.gapStep.adc]
    simp only [runMicros, gapThen, h.rstNow, look]
    split
    · exact h.applyReset
    · split
      · exact ih samplesTail (h.gapStep.apply samplesHead)
      · exact h.gapStep.setPending _
      · exact runWrites_samplesAlike rfl h.gapStep

/-- Settles O27: all that a read does, it does alike in the two states. -/
theorem sampleDoesNotDependOnActuation : Obligations.SampleDoesNotDependOnActuation := by
  unfold Obligations.SampleDoesNotDependOnActuation
  intro s pwm pin mot ctl channel
  have alike : s.SamplesAlike { s with pwm := pwm, pin := pin, mot := mot, ctl := ctl } :=
    ⟨rfl, rfl, rfl, rfl, rfl, rfl, rfl, rfl⟩
  obtain ⟨adc, res, pending, convs, trace, -⟩ :=
    runMicros_samplesAlike (ms := adcReadMicros s.params.pollBound channel.toNat) rfl alike
  exact ⟨_, _, rfl, rfl, adc, res, convs, pending, trace⟩

end Sys2Proof.Machine

/-! The bounded poll and the failed block (60_exceptions.md R216): the last look, the three writes of HardwareTimeout, and
what goes on after it. -/

namespace Sys2Proof.Machine

/-! ## HardwareTimeout -/

/-- A look at a bound of 0, or at a bound of 1 with the flag clear, raises HardwareTimeout. -/
theorem runMicros_of_timeout {looks : Option Nat} {s : State} (noReset : s.env.rst = [])
    (last : pollLook looks s.gapStep.adc.done = .timeout) (rest : List Micro) :
    runMicros (.adcPoll looks :: rest) s = s.gapStep.raiseTimeout := by
  rw [runMicros_cons_poll (State.rstNow_of_none noReset), last]

/-- FAULT is 1 after HardwareTimeout. -/
theorem State.raiseTimeout_fault {s : State} (noReset : s.env.rst = []) : s.raiseTimeout.ctl.fault = true := by
  obtain ⟨agree, -⟩ := State.raiseTimeout_agreeOutside noReset
  rw [agree.ctl]

theorem State.raiseTimeout_pwmKept {s : State} (noReset : s.env.rst = []) : s.PwmKept s.raiseTimeout := by
  rw [State.raiseTimeout_eq]
  exact runMicros_pwmKept rfl noReset

/-- Where CONV does not move in its gaps, HardwareTimeout leaves the converter and the trace too. -/
theorem State.raiseTimeout_of_still {s : State} (noReset : s.env.rst = [])
    (still : s.convEnabled = false ∨ ∀ k, k < 3 → (s.gapAt k).complete = false) :
    s.raiseTimeout.adc = s.adc ∧ s.raiseTimeout.trace = s.trace := by
  have stillWrites := still.symm.imp_right fun off => (⟨off, rfl⟩ : _ ∧ timeoutMicros.all Micro.sparesConverter = true)
  obtain ⟨agree, -⟩ := runMicros_of_still (ms := timeoutMicros) (by decide) noReset stillWrites
  rw [State.raiseTimeout_eq]
  exact ⟨agree.adc, agree.trace⟩

/-! ## A bounded poll of a dead converter -/

/-- SEQ is held with `looks` looks left at the poll of a converter that cannot convert, and no reset comes. -/
structure State.DeadPoll (s : State) (looks : Nat) (rest : List Micro) : Prop where
  held : s.pending = .adcPoll (some looks) :: rest
  notDone : s.adc.done = false
  noFault : s.ctl.fault = false
  dead : s.canConvert = false
  noReset : s.env.rst = []

/-- A dead converter does not move in a gap. -/
theorem State.gapStep_adc_of_dead {s : State} (dead : s.canConvert = false) : s.gapStep.adc = s.adc :=
  State.gapStep_adc_of_disabled (State.convEnabled_of_canConvert dead)

/-- The last look raises HardwareTimeout. -/
theorem runMicros_deadPoll_last {s : State} (noReset : s.env.rst = []) (dead : s.canConvert = false)
    (notDone : s.adc.done = false) (rest : List Micro) : (runMicros (.adcPoll (some 1) :: rest) s).ctl.fault = true := by
  rw [runMicros_of_timeout noReset (by rw [State.gapStep_adc_of_dead dead, notDone]; rfl)]
  exact State.raiseTimeout_fault (by simp [noReset])

/-- Any look before the last leaves SEQ held with one look less. -/
theorem runMicros_deadPoll {s : State} (noReset : s.env.rst = []) (dead : s.canConvert = false)
    (notDone : s.adc.done = false) (noFault : s.ctl.fault = false) (n : Nat) (rest : List Micro) :
    (runMicros (.adcPoll (some (n + 2)) :: rest) s).DeadPoll (n + 1) rest := by
  have adc := State.gapStep_adc_of_dead dead
  rw [runMicros_cons_poll (State.rstNow_of_none noReset), adc, notDone, pollLook_two_false]
  refine ⟨rfl, ?_, by simpa using noFault, ?_, by simp [noReset]⟩
  · simp only [adc, notDone]
  · simpa only [State.canConvert, adc] using dead

/-- With `n + 1` looks left SEQ is held for `n` steps more, and the step after them fails. -/
theorem run_of_deadPoll {rest : List Micro} (n : Nat) {s : State} (poll : s.DeadPoll (n + 1) rest) :
    (∀ k, k < n + 1 → ∃ t : State, Host.Core.run Sys2Proof.core k s = .next t ∧ t.ctl.fault = false ∧ t.pending ≠ []) ∧
      ∃ t : State, Host.Core.run Sys2Proof.core (n + 1) s = .next t ∧ t.ctl.fault = true := by
  have now : ∃ t : State, Host.Core.run Sys2Proof.core 0 s = .next t ∧ t.ctl.fault = false ∧ t.pending ≠ [] :=
    ⟨s, run_zero s, poll.noFault, poll.held ▸ List.cons_ne_nil _ _⟩
  have stepped := step_of_held poll.held poll.noFault poll.noReset
  induction n generalizing s with
  | zero =>
    refine ⟨fun k before => ?_, _, run_succ_last (run_zero s) stepped, ?_⟩
    · obtain rfl : k = 0 := by omega
      exact now
    · exact runMicros_deadPoll_last (s := s.dropPresented) poll.noReset poll.dead poll.notDone rest
  | succ n ih =>
    have pollThen : (runMicros (.adcPoll (some (n + 2)) :: rest) s.dropPresented).DeadPoll (n + 1) rest :=
      runMicros_deadPoll (s := s.dropPresented) poll.noReset poll.dead poll.notDone poll.noFault n rest
    obtain ⟨heldLater, t, ran, fault⟩ := ih pollThen
      ⟨_, run_zero _, pollThen.noFault, pollThen.held ▸ List.cons_ne_nil _ _⟩
      (step_of_held pollThen.held pollThen.noFault pollThen.noReset)
    refine ⟨fun k before => ?_, t, by rw [run_succ_of_next stepped, ran], fault⟩
    cases k with
    | zero => exact now
    | succ k =>
      rw [run_succ_of_next stepped]
      exact heldLater k (Nat.lt_of_succ_lt_succ before)

/-- Settles O28: the read takes the first look itself, and each step after it one more. -/
theorem boundedPollTimesOutAtItsLastLook : Obligations.BoundedPollTimesOutAtItsLastLook := by
  unfold Obligations.BoundedPollTimesOutAtItsLastLook
  intro n s channel calm flag cannot noFault _
  obtain ⟨u, started, -, -, run⟩ := runMicros_adcRead calm s.params.pollBound channel.toNat []
  rw [List.append_nil, List.append_nil] at run
  have noReset : u.env.rst = [] := started.rst.trans calm.1
  have dead : u.canConvert = false := by rw [State.canConvert, started.adc]; exact cannot
  have notDone : u.adc.done = false := by rw [started.adc]; exact flag
  have noFaultThen : u.ctl.fault = false := by rw [started.ctl]; exact noFault
  constructor
  · intro zero
    refine ⟨_, rfl, ?_⟩
    rw [run, zero, runMicros_of_timeout noReset (pollLook_zero _)]
    exact State.raiseTimeout_fault (by simp [noReset])
  · intro bound
    refine ⟨_, rfl, ?_⟩
    rw [run, bound]
    cases n with
    | zero => exact ⟨nofun, _, run_zero _, runMicros_deadPoll_last noReset dead notDone _⟩
    | succ n => exact run_of_deadPoll n (runMicros_deadPoll noReset dead notDone noFaultThen n _)

/-! ## The three writes (R216) -/

/-- INSIDE A BLIND OPERATION without reset: outside the converter, the micro-steps so far executed alone. -/
theorem State.inside_agreeOutside {ms : List Micro} (blind : ms.all Micro.blind = true) {s t : State}
    (noReset : s.env.rst = []) (h : s.AgreeOutside t) (k : Nat) : (s.inside ms k).AgreeOutside (replay (ms.take k) t) := by
  induction k generalizing ms s t with
  | zero => exact ⟨h.1, h.2, h.3, h.4, h.5, h.6, h.7, h.8, h.9, h.10, h.11, h.12, h.13⟩
  | succ k ih =>
    cases ms with
    | nil =>
      rw [State.inside, microStep_iterate_of_idle (s := { s with pending := [] }) rfl]
      exact ⟨h.1, h.2, h.3, h.4, h.5, h.6, h.7, h.8, h.9, h.10, h.11, h.12, h.13⟩
    | cons m ms =>
      simp only [List.all_cons, Bool.and_eq_true] at blind
      obtain ⟨blindHead, blindTail⟩ := blind
      rw [State.inside_succ (State.rstNow_of_none noReset) (Micro.blind_poll? blindHead)]
      exact ih blindTail (by simp [noReset])
        (Micro.apply_agreeOutside blindHead ((State.gapStep_agreeOutside noReset).trans h))

/-- The micro-step at the last look leads into HardwareTimeout. -/
theorem microStep_of_lastLook {s : State} {rest : List Micro} (held : s.pending = .adcPoll (some 1) :: rest)
    (noReset : s.env.rst = []) (notDone : s.gapStep.adc.done = false) (k : Nat) :
    microStep^[k + 1] s = s.gapStep.inside timeoutMicros k := by
  have timesOut : microEffect (.adcPoll (some 1)) rest s.gapStep = { s.gapStep with pending := timeoutMicros } := by
    simp [microEffect, Micro.look, Micro.poll?, notDone]
  have first : microStep s = { s.gapStep with pending := timeoutMicros } := by
    conv_lhs => rw [show s = { s with pending := .adcPoll (some 1) :: rest } by rw [← held]]
    rw [microStep_of_not_rst (State.rstNow_of_none noReset), timesOut]
  rw [Function.iterate_succ_apply, first, State.inside]

/-- In HardwareTimeout the port is closed: a write is left, or FAULT is set. -/
theorem State.inside_timeout_cmdReady {s : State} (noReset : s.env.rst = []) {k : Nat} (upTo : k ≤ 3) :
    (s.inside timeoutMicros k).cmdReady = false := by
  rcases Nat.lt_or_ge k 3 with before | last
  · have left := State.inside_pending (ms := timeoutMicros) (by decide) noReset k
    have notAll : timeoutMicros.drop k ≠ [] := by simpa [timeoutMicros] using before
    exact State.cmdReady_of_pending (left ▸ notAll)
  · obtain rfl : k = 3 := by omega
    have fault : (s.inside timeoutMicros 3).ctl.fault = true :=
      congrArg Ctl.fault (State.inside_agreeOutside (ms := timeoutMicros) rfl noReset (.refl s) 3).ctl
    simp [State.cmdReady, fault]

/-- Settles O29: the last look finds the flag clear, and the rest of the step is HardwareTimeout, as a whole and
micro-step by micro-step. -/
theorem timeoutLeavesTheActuatorAsItWas : Obligations.TimeoutLeavesTheActuatorAsItWas := by
  unfold Obligations.TimeoutLeavesTheActuatorAsItWas
  intro s rest held noFault noReset notDone still
  constructor
  · have looked : s.dropPresented.gapStep.Agree s.dropPresented :=
      State.gapStep_agree_of_still (s := s.dropPresented) noReset still
    have noResetThen : s.dropPresented.gapStep.env.rst = [] := looked.rst.trans noReset
    have adc : s.dropPresented.gapStep.adc = s.adc := looked.adc
    have stepped : step s = .next s.dropPresented.gapStep.raiseTimeout := by
      rw [step_of_held held noFault noReset, runMicros_of_timeout (s := s.dropPresented) noReset]
      rw [adc, notDone, pollLook_one_false]
    obtain ⟨failed, ended⟩ := State.raiseTimeout_agreeOutside noResetThen
    have ctl : s.dropPresented.gapStep.raiseTimeout.ctl =
        { s.ctl with fault := true, phase := Phase.idle.code, loop := false } := by rw [failed.ctl]; simp
    refine ⟨_, stepped, ctl, ended, by simp [failed.res], by simp [failed.pin], by simp [failed.mot],
      s.dropPresented.gapStep_pwmKept.trans' (State.raiseTimeout_pwmKept noResetThen), ?_, fun stillAll => ?_⟩
    · simp [State.cmdReady, ctl]
    · have stillThen : s.dropPresented.gapStep.convEnabled = false ∨
          ∀ k, k < 3 → (s.dropPresented.gapStep.gapAt k).complete = false := by
        refine stillAll.imp (fun off => by simpa only [State.convEnabled, adc] using off) fun all k before => ?_
        rw [State.gapStep_gapAt]
        exact all (k + 1) (Nat.succ_lt_succ before)
      obtain ⟨adcThen, traceThen⟩ := State.raiseTimeout_of_still noResetThen stillThen
      exact ⟨adcThen.trans adc, traceThen.trans looked.trace⟩
  · have looked : s.gapStep.Agree s := State.gapStep_agree_of_still noReset still
    have noResetThen : s.gapStep.env.rst = [] := looked.rst.trans noReset
    have micro := microStep_of_lastLook held noReset (looked.adc ▸ notDone)
    have written := fun k => (State.inside_agreeOutside (ms := timeoutMicros) rfl noResetThen looked.outside k).ctl
    refine ⟨?_, ?_, ?_, ?_, fun k upTo => ?_⟩
    · rw [micro 0]; exact written 0
    · rw [micro 1]; exact written 1
    · rw [micro 2]; exact written 2
    · rw [micro 3]; exact written 3
    · cases k with
      | zero => exact State.cmdReady_of_pending (by simp [held])
      | succ k =>
        rw [micro k]
        exact State.inside_timeout_cmdReady noResetThen (Nat.le_of_succ_le_succ upTo)

/-! ## The failed block (R216) -/

/-- What a failed block keeps: all that an operation writes; of the converter, all that CONV does not write. -/
structure State.FailKept (s t : State) : Prop where
  ctl : t.ctl = s.ctl
  res : t.res = s.res
  en : t.adc.en = s.adc.en
  refs : t.adc.refs = s.adc.refs
  div : t.adc.div = s.adc.div
  ch : t.adc.ch = s.adc.ch
  pwm : s.PwmKept t
  pin : t.pin = s.pin
  mot : t.mot = s.mot
  draws : t.draws = s.draws
  params : t.params = s.params
  pending : t.pending = s.pending
  trace : ∃ es, t.trace = s.trace ++ es ∧ ∀ e ∈ es, ∃ v, e = .convDone v
  still : s.convEnabled = false → t.adc = s.adc ∧ t.convs = s.convs ∧ t.trace = s.trace

theorem State.FailKept.refl (s : State) : s.FailKept s :=
  ⟨rfl, rfl, rfl, rfl, rfl, rfl, s.pwmKept_refl, rfl, rfl, rfl, rfl, rfl, ⟨[], by simp, by simp⟩, fun _ => ⟨rfl, rfl, rfl⟩⟩

theorem State.failKept_dropPresented (s : State) : s.FailKept s.dropPresented :=
  ⟨rfl, rfl, rfl, rfl, rfl, rfl, s.pwmKept_refl, rfl, rfl, rfl, rfl, rfl, ⟨[], by simp, by simp⟩, fun _ => ⟨rfl, rfl, rfl⟩⟩

theorem State.FailKept.trans {s t u : State} (h : s.FailKept t) (k : t.FailKept u) : s.FailKept u where
  ctl := k.ctl.trans h.ctl
  res := k.res.trans h.res
  en := k.en.trans h.en
  refs := k.refs.trans h.refs
  div := k.div.trans h.div
  ch := k.ch.trans h.ch
  pwm := h.pwm.trans' k.pwm
  pin := k.pin.trans h.pin
  mot := k.mot.trans h.mot
  draws := k.draws.trans h.draws
  params := k.params.trans h.params
  pending := k.pending.trans h.pending
  trace := by
    obtain ⟨es, first, done⟩ := h.trace
    obtain ⟨es', second, done'⟩ := k.trace
    refine ⟨es ++ es', by rw [second, first, List.append_assoc], fun e mem => ?_⟩
    exact (List.mem_append.mp mem).elim (done e) (done' e)
  still := fun off => by
    obtain ⟨adc, convs, trace⟩ := h.still off
    obtain ⟨adc', convs', trace'⟩ := k.still (by simpa only [State.convEnabled, adc] using off)
    exact ⟨adc'.trans adc, convs'.trans convs, trace'.trans trace⟩

/-- A gap keeps it: CONV completes, or nothing happens. -/
theorem State.failKept_gapStep (s : State) : s.FailKept s.gapStep := by
  have still (off : s.convEnabled = false) : s.gapStep.adc = s.adc ∧ s.gapStep.convs = s.convs ∧ s.gapStep.trace = s.trace :=
    ⟨State.gapStep_adc_of_disabled off, State.gapStep_convs_of_disabled off, State.gapStep_trace_of_disabled off⟩
  obtain ⟨-, -, adc, -, trace⟩ | ⟨-, adc, -, trace⟩ := s.gapStep_conv
  · refine ⟨s.gapStep_ctl, s.gapStep_res, ?_, ?_, ?_, ?_, s.gapStep_pwmKept, s.gapStep_pin, s.gapStep_mot, s.gapStep_draws,
      s.gapStep_params, s.gapStep_pending, ⟨_, trace, by simp⟩, still⟩ <;> simp [adc]
  · refine ⟨s.gapStep_ctl, s.gapStep_res, ?_, ?_, ?_, ?_, s.gapStep_pwmKept, s.gapStep_pin, s.gapStep_mot, s.gapStep_draws,
      s.gapStep_params, s.gapStep_pending, ⟨[], by simp [trace], by simp⟩, still⟩ <;> simp [adc]

/-- Over any number of steps. -/
theorem run_of_fault (k : Nat) {s : State} (fault : s.ctl.fault = true) (noReset : s.env.rst = []) :
    ∃ t : State, Host.Core.run Sys2Proof.core k s = .next t ∧ s.FailKept t := by
  induction k generalizing s with
  | zero => exact ⟨s, run_zero s, .refl s⟩
  | succ k ih =>
    have kept : s.FailKept s.dropPresented.gapStep :=
      s.failKept_dropPresented.trans s.dropPresented.failKept_gapStep
    obtain ⟨t, ran, keptLast⟩ := ih (s := s.dropPresented.gapStep) (by simpa using fault) (by simp [noReset])
    exact ⟨t, by rw [run_succ_of_next (step_of_fault fault noReset), ran], kept.trans keptLast⟩

/-- Settles O30: each step of a failed block is one gap. -/
theorem failedBlockExecutesNothing : Obligations.FailedBlockExecutesNothing := by
  unfold Obligations.FailedBlockExecutesNothing
  intro k s fault noReset
  obtain ⟨t, ran, kept⟩ := run_of_fault k fault noReset
  have closed : t.cmdReady = false := by simp [State.cmdReady, kept.ctl, fault]
  exact ⟨t, ran, kept.ctl, closed, kept.res, kept.en, kept.refs, kept.div, kept.ch, kept.pwm, kept.pin, kept.mot, kept.draws,
    kept.params, kept.pending, kept.trace, kept.still⟩

end Sys2Proof.Machine

/-! The transducer and the timer, continued: what TEMP_CONV writes (42_temperature.md R130, R136), what PWM_START leaves
(43_pwm.md R142 to R147), and the count behind its reset (70_reset_and_hazards.md R246). -/

namespace Sys2Proof.Machine

/-! ## TEMP_CONV (R130, R136) -/

/-- Settles O31: TEMP_CONV is a plain run that writes RES alone, with the word of the temperature. -/
theorem tempConvWritesTheFlooredQuotient : Obligations.TempConvWritesTheFlooredQuotient := by
  unfold Obligations.TempConvWritesTheFlooredQuotient
  refine ⟨fun w op => ?decodes, fun s sample calm => ⟨_, rfl, ?_⟩⟩
  case decodes =>
    unfold decodeWord
    rw [op]
    rfl
  obtain ⟨agree, timer, -, ended⟩ := runMicros_settles (ms := tempConvMicros (.imm sample)) calm rfl rfl
  rw [replay_tempConv] at agree
  have quotient (vref : s.params.vrefMv < 655360) : (runMicros (tempConvMicros (.imm sample)) s).res.toNat =
      (150 * sample.toNat * s.params.vrefMv) / (1023 * 1500) := by
    rw [agree.res]
    exact tempWord_toNat vref sample
  exact ⟨quotient, agree.adc, timer, agree.pin, agree.mot, agree.ctl, agree.convs, agree.draws, agree.outsideKept, ended,
    agree.trace⟩

/-- Settles O32: what RES receives is read from the operand and the parameters. -/
theorem tempConvIsPure : Obligations.TempConvIsPure := by
  unfold Obligations.TempConvIsPure
  intro s u sample calmS calmU params
  obtain ⟨agreeS, -, -, endedS⟩ := runMicros_settles (ms := tempConvMicros (.imm sample)) calmS rfl rfl
  obtain ⟨agreeU, -, -, endedU⟩ := runMicros_settles (ms := tempConvMicros (.imm sample)) calmU rfl rfl
  rw [replay_tempConv] at agreeS agreeU
  refine ⟨_, _, rfl, rfl, ?_, endedS, endedU⟩
  calc (runMicros (tempConvMicros (.imm sample)) s).res
      = tempWord s.params sample := agreeS.res
    _ = tempWord u.params sample := by rw [params]
    _ = (runMicros (tempConvMicros (.imm sample)) u).res := agreeU.res.symm

/-! ## The count behind its reset -/

/-- A micro-step that does not write PWM.CNT. -/
def Micro.sparesCount (m : Micro) : Bool :=
  match m with
  | .pwmCntZero => false
  | _ => true

theorem Micro.apply_pwm_cnt {m : Micro} (spares : m.sparesCount = true) (s : State) : (m.apply s).pwm.cnt = s.pwm.cnt := by
  cases m with
  | pwmCntZero => exact absurd spares Bool.false_ne_true
  | _ => rfl

theorem replay_pwm_cnt {ms : List Micro} (spare : ms.all Micro.sparesCount = true) (s : State) :
    (replay ms s).pwm.cnt = s.pwm.cnt := by
  induction ms generalizing s with
  | nil => rfl
  | cons m ms ih =>
    simp only [List.all_cons, Bool.and_eq_true] at spare
    obtain ⟨spareHead, spareTail⟩ := spare
    rw [replay_cons, ih spareTail, Micro.apply_pwm_cnt spareHead]

theorem plain_writes {ms : List Micro} (plain : ms.all Micro.plain = true) : ∀ m ∈ ms, m.poll? = none :=
  fun m mem => Micro.plain_poll? (List.all_eq_true.mp plain m mem)

/-- Right after its reset the count is 0, whatever TMR did before. -/
theorem State.inside_cnt_of_reset {ms : List Micro} (writes : ∀ m ∈ ms, m.poll? = none) {s : State}
    (noReset : s.env.rst = []) {j : Nat} (reset : ms[j]? = some .pwmCntZero) : (s.inside ms (j + 1)).pwm.cnt = 0#8 := by
  induction j generalizing ms s with
  | zero =>
    obtain ⟨ms, rfl⟩ : ∃ rest, ms = .pwmCntZero :: rest := by cases ms <;> simp_all
    rw [State.inside_succ (State.rstNow_of_none noReset) rfl]
    rfl
  | succ j ih =>
    cases ms with
    | nil => cases reset
    | cons m ms =>
      rw [State.inside_succ (State.rstNow_of_none noReset) (writes m (List.mem_cons_self ..))]
      exact ih (fun m' mem => writes m' (List.mem_cons_of_mem m mem)) (by simp [noReset]) reset

/-- At the end of an operation the count is 0 if TMR has not ticked since its last reset. -/
theorem runMicros_cnt_of_reset {ms : List Micro} (writes : ∀ m ∈ ms, m.poll? = none) {s : State} (noReset : s.env.rst = [])
    {j : Nat} (reset : ms[j]? = some .pwmCntZero) (spare : (ms.drop (j + 1)).all Micro.sparesCount = true)
    (still : ∀ k, j + 1 ≤ k → k < ms.length → (s.gapAt k).ticks = 0) : (runMicros ms s).pwm.cnt = 0#8 := by
  rw [runMicros_cnt_from writes noReset (j + 1) still, replay_pwm_cnt spare, State.inside_cnt_of_reset writes noReset reset]

/-! ## PWM_START (R142 to R147) -/

/-- Within the contract the compare value is the ceiling of `255 d / 100` (R143). -/
theorem compareWord_ceil {duty : BitVec 8} (inContract : duty.toNat ≤ 100) :
    (compareWord duty).toNat = (255 * duty.toNat + 99) / 100 := compareWord_toNat inContract

/-- Settles O34: PWM_START is a plain run; its second micro-step resets the count, and none behind it writes it. -/
theorem pwmStartReprogramsTheTimer : Obligations.PwmStartReprogramsTheTimer := by
  unfold Obligations.PwmStartReprogramsTheTimer
  refine ⟨fun w op => ?decodes, fun s duty calm => ⟨_, rfl, ?_⟩⟩
  case decodes =>
    unfold decodeWord
    rw [op]
    rfl
  obtain ⟨agree, -, ended⟩ := runMicros_plain (ms := pwmStartMicros duty) rfl calm
  rw [replay_pwmStart] at agree
  have compare (inContract : duty.toNat ≤ 100) :
      (runMicros (pwmStartMicros duty) s).pwm.cmp.toNat = (255 * duty.toNat + 99) / 100 ∧
        (runMicros (pwmStartMicros duty) s).draws = s.draws := by
    rw [agree.cmp, agree.draws, State.compareValue_of_contract inContract, State.drawsAfter_of_contract inContract]
    exact ⟨compareWord_ceil inContract, rfl⟩
  have writes := plain_writes (ms := pwmStartMicros duty) rfl
  have trace : (runMicros (pwmStartMicros duty) s).trace =
      s.trace ++ pwmStartEvents (runMicros (pwmStartMicros duty) s).pwm.cmp := by rw [agree.trace, agree.cmp]
  exact ⟨agree.fast, agree.ninv, agree.ps, compare, runMicros_cnt_of_reset (j := 1) writes calm.1 rfl rfl,
    State.inside_cnt_of_reset writes calm.1 rfl, agree.pin, agree.adc, agree.mot, agree.ctl, agree.res, agree.convs,
    agree.outsideKept, ended, trace⟩

/-- What PWM_START leaves in the timer and the pins depends on the state only through the parameters, the pins and, above the
contract, the draws. -/
theorem runMicros_pwmStart_of_contract {s : State} (calm : s.Calm) {duty : BitVec 8} (inContract : duty.toNat ≤ 100) :
    (∃ cnt, (runMicros (pwmStartMicros duty) s).pwm =
        { fast := true, ninv := true, ps := s.params.pwmPsSel, cnt := cnt, cmp := compareWord duty }) ∧
      (runMicros (pwmStartMicros duty) s).pin = { s.pin with pwmOe := true } := by
  obtain ⟨agree, -⟩ := runMicros_plain (ms := pwmStartMicros duty) rfl calm
  rw [replay_pwmStart, State.compareValue_of_contract inContract] at agree
  exact ⟨⟨_, agree.pwm⟩, agree.pin⟩

/-- Settles O36: the first call leaves the parameters and the pins, PWM_OE apart, as the second finds them from the start. -/
theorem secondPwmStartLeavesNoResidue : Obligations.SecondPwmStartLeavesNoResidue := by
  unfold Obligations.SecondPwmStartLeavesNoResidue
  intro s d1 d2 calm inContract
  obtain ⟨first, calmThen, -⟩ := runMicros_plain (ms := pwmStartMicros d1) rfl calm
  rw [replay_pwmStart] at first
  obtain ⟨⟨_, pwmTwice⟩, pinTwice⟩ := runMicros_pwmStart_of_contract calmThen inContract
  obtain ⟨⟨_, pwmOnce⟩, pinOnce⟩ := runMicros_pwmStart_of_contract calm inContract
  refine ⟨_, _, _, rfl, rfl, rfl, ?_, ?_⟩
  · rw [pwmOnce, pwmTwice, first.params]
  · rw [pinOnce, pinTwice, first.pin]

/-- Settles O39: the only write of PS writes PWM_PS_SEL, and no reset comes. -/
theorem startedTimerKeepsItsClock : Obligations.StartedTimerKeepsItsClock := by
  unfold Obligations.StartedTimerKeepsItsClock
  intro s t select noReset clock next
  have kept : t.pwm.ps ≠ 0#3 ∧ t.params.pwmPsSel ≠ 0#3 ∧ t.env.rst = [] := by
    refine step_keeps (P := fun u => u.pwm.ps ≠ 0#3 ∧ u.params.pwmPsSel ≠ 0#3 ∧ u.env.rst = []) ?gap ?micro ?reset
      (fun _ _ kept => kept) (fun _ kept => kept) ⟨clock, select, noReset⟩ next
    case gap =>
      rintro u ⟨clock, select, noReset⟩
      simp [clock, select, noReset]
    case micro =>
      rintro m u ⟨clock, select, noReset⟩
      refine ⟨?_, by simpa using select, by simpa using noReset⟩
      cases m with
      | pwmPs => exact select
      | _ => exact clock
    case reset =>
      rintro u ⟨-, -, noReset⟩ now
      exact absurd (now.symm.trans (State.rstNow_of_none noReset)) (by decide)
  obtain ⟨clockThen, -⟩ := kept
  exact clockThen

end Sys2Proof.Machine

/-! The Motor Actuator, continued (44_motor.md): MOT_ROTATE (R165), MOT_STOP and its intermediate states (R168 to R170), the
transition table (R171), and the stop clause (10_state.md R43 (e)). -/

namespace Sys2Proof.Machine

/-! ## MOT_ROTATE (R164, R165) -/

/-- The direction of a word is its bit 16 (30_encoding.md R83, R92). -/
theorem Direction.ofCode_bit (w : CmdWord) :
    Direction.ofCode ((aField w).extractLsb' 0 1) = if w.getLsbD 16 then .ccw else .cw := by
  have code : (aField w).extractLsb' 0 1 = BitVec.ofBool (w.getLsbD 16) := by
    apply BitVec.eq_of_getLsbD_eq
    intro k below
    obtain rfl : k = 0 := by omega
    simp [aField]
  rw [code]
  cases w.getLsbD 16 <;> rfl

/-- Settles O41: MOT_ROTATE is a plain run; its fifth micro-step resets the count, and none behind it writes it. -/
theorem motRotateSetsPatternDutyAndRunning : Obligations.MotRotateSetsPatternDutyAndRunning := by
  unfold Obligations.MotRotateSetsPatternDutyAndRunning
  refine ⟨fun w op => ?decodes, fun s dir speed calm => ⟨_, rfl, ?_⟩⟩
  case decodes =>
    unfold decodeWord
    rw [op, ← Direction.ofCode_bit]
    rfl
  obtain ⟨agree, -, ended⟩ := runMicros_plain (motRotateMicros_plain dir speed) calm
  rw [replay_motRotate] at agree
  have compare (inContract : speed.toNat ≤ 100) :
      (runMicros (motRotateMicros dir speed) s).pwm.cmp.toNat = (255 * speed.toNat + 99) / 100 ∧
        (runMicros (motRotateMicros dir speed) s).draws = s.draws := by
    rw [agree.cmp, agree.draws, State.compareValue_of_contract inContract, State.drawsAfter_of_contract inContract]
    exact ⟨compareWord_ceil inContract, rfl⟩
  have trace : (runMicros (motRotateMicros dir speed) s).trace =
      s.trace ++ motRotateEvents dir (runMicros (motRotateMicros dir speed) s).pwm.cmp := by rw [agree.trace, agree.cmp]
  have writes := plain_writes (motRotateMicros_plain dir speed)
  have reset : (motRotateMicros dir speed)[4]? = some .pwmCntZero := by cases dir <;> rfl
  have spare : ((motRotateMicros dir speed).drop 5).all Micro.sparesCount = true := by cases dir <;> rfl
  have length : (motRotateMicros dir speed).length = 15 := by cases dir <;> rfl
  exact ⟨agree.pin, agree.mot, agree.fast, agree.ninv, agree.ps, compare, State.inside_cnt_of_reset writes calm.1 reset,
    fun still => runMicros_cnt_of_reset writes calm.1 reset spare (length ▸ still), agree.adc, agree.ctl, agree.res,
    agree.convs, agree.outsideKept, ended, trace⟩

/-! ## MOT_STOP (R168 to R170) -/

/-- Settles O43: MOT_STOP is a plain run; its sixth micro-step resets the count, and none behind it writes it. -/
theorem motStopStopsInTwoSteps : Obligations.MotStopStopsInTwoSteps := by
  unfold Obligations.MotStopStopsInTwoSteps
  refine ⟨fun w op => ?decodes, fun s calm => ⟨_, rfl, ?_⟩⟩
  case decodes =>
    unfold decodeWord
    rw [op]
    rfl
  obtain ⟨agree, -, ended⟩ := runMicros_plain motStopMicros_plain calm
  rw [replay_motStop] at agree
  have writes := plain_writes motStopMicros_plain
  exact ⟨agree.pin, agree.cmp, agree.fast, agree.ninv, agree.ps, State.inside_cnt_of_reset writes calm.1 rfl,
    runMicros_cnt_of_reset (j := 5) writes calm.1 rfl rfl, agree.mot, agree.adc, agree.ctl,
    agree.res, agree.convs, agree.draws, agree.outsideKept, ended, agree.trace⟩

/-- From the second pin write to the compare write: Clockwise at the previous compare value. -/
theorem replay_motStop_clockwise (s : State) {k : Nat} (lower : 4 ≤ k) (upper : k ≤ 9) :
    (replay (motStopMicros.take k) s).pin.in1 = false ∧ (replay (motStopMicros.take k) s).pin.in2 = true ∧
      (replay (motStopMicros.take k) s).pwm.cmp = s.pwm.cmp := by
  interval_cases k <;> exact ⟨rfl, rfl, rfl⟩

/-- From the compare write to the second pass: Clockwise at compare value 0. -/
theorem replay_motStop_clockwiseStopped (s : State) {k : Nat} (lower : 10 ≤ k) (upper : k ≤ 17) :
    (replay (motStopMicros.take k) s).pin.in1 = false ∧ (replay (motStopMicros.take k) s).pin.in2 = true ∧
      (replay (motStopMicros.take k) s).pwm.cmp = 0#8 := by
  interval_cases k <;> exact ⟨rfl, rfl, rfl⟩

/-- Settles O44: inside a calm stop the state agrees with the micro-steps executed so far. -/
theorem motStopIntermediateStates : Obligations.MotStopIntermediateStates := by
  unfold Obligations.MotStopIntermediateStates
  intro s calm
  have inside := State.inside_agree motStopMicros_plain calm (State.Agree.refl s)
  refine ⟨fun k lower upper => ?_, fun k lower upper => ?_, (inside 15).mot⟩
  · rw [(inside k).pin, (inside k).cmp]
    exact replay_motStop_clockwise s lower upper
  · rw [(inside k).pin, (inside k).cmp]
    exact replay_motStop_clockwiseStopped s lower upper

/-! ## What a kind of micro-steps keeps -/

/-- What every gap, reset, a change of `pending` and every micro-step of one kind keep, runs of that kind keep, if the
writes of HardwareTimeout are of it. -/
theorem runWrites_keeps_of {P : State → Prop} {kind : Micro → Bool} (gap : ∀ s, P s → P s.gapStep)
    (micro : ∀ m s, kind m = true → P s → P (m.apply s)) (reset : ∀ s, P s → s.rstNow = true → P s.applyReset)
    (hold : ∀ s p, P s → P { s with pending := p }) {ms : List Micro} (all : ms.all kind = true) {s : State} (h : P s) :
    P (runWrites ms s) := by
  induction ms generalizing s with
  | nil => exact hold s [] h
  | cons m ms ih =>
    simp only [List.all_cons, Bool.and_eq_true] at all
    obtain ⟨head, tail⟩ := all
    simp only [runWrites, gapThen]
    split
    · exact reset s h ‹_›
    · exact ih tail (micro m _ head (gap s h))

theorem runMicros_keeps_of {P : State → Prop} {kind : Micro → Bool} (gap : ∀ s, P s → P s.gapStep)
    (micro : ∀ m s, kind m = true → P s → P (m.apply s)) (reset : ∀ s, P s → s.rstNow = true → P s.applyReset)
    (hold : ∀ s p, P s → P { s with pending := p }) (timeout : timeoutMicros.all kind = true) {ms : List Micro}
    (all : ms.all kind = true) {s : State} (h : P s) : P (runMicros ms s) := by
  induction ms generalizing s with
  | nil => exact hold s [] h
  | cons m ms ih =>
    simp only [List.all_cons, Bool.and_eq_true] at all
    obtain ⟨head, tail⟩ := all
    simp only [runMicros, gapThen]
    split
    · exact reset s h ‹_›
    · split
      · exact ih tail (micro m _ head (gap s h))
      · exact hold _ _ (gap s h)
      · exact runWrites_keeps_of gap micro reset hold timeout (gap s h)

/-! ## The transition table (R171) -/

/-- A micro-step that writes none of the actuator's registers. -/
def Micro.sparesMotor (m : Micro) : Bool :=
  match m with
  | .motRun _ => false
  | .motDir _ => false
  | .motSpeed _ => false
  | _ => true

theorem Micro.apply_mot {m : Micro} (spares : m.sparesMotor = true) (s : State) : (m.apply s).mot = s.mot := by
  cases m with
  | motRun | motDir | motSpeed => exact absurd spares Bool.false_ne_true
  | _ => rfl

/-- Without reset, what is run without writing the actuator leaves it, whatever becomes of a read. -/
theorem runMicros_mot {ms : List Micro} (spare : ms.all Micro.sparesMotor = true) {s : State} (noReset : s.env.rst = []) :
    (runMicros ms s).mot = s.mot := by
  have kept : (runMicros ms s).mot = s.mot ∧ (runMicros ms s).env.rst = [] := by
    refine runMicros_keeps_of (P := fun u => u.mot = s.mot ∧ u.env.rst = []) ?gap ?micro ?reset (fun _ _ kept => kept) rfl
      spare ⟨rfl, noReset⟩
    case gap =>
      rintro u ⟨mot, none⟩
      simp [mot, none]
    case micro =>
      rintro m u spares ⟨mot, none⟩
      exact ⟨(Micro.apply_mot spares u).trans mot, by simp [none]⟩
    case reset =>
      rintro u ⟨-, none⟩ now
      exact absurd (now.symm.trans (State.rstNow_of_none none)) (by decide)
  obtain ⟨mot, -⟩ := kept
  exact mot

/-- Settles O45: the three operations that write the actuator are blind runs, and the others write nothing of it. -/
theorem motStateTransitions : Obligations.MotStateTransitions := by
  unfold Obligations.MotStateTransitions
  intro s
  refine ⟨rfl, s.gapStep_mot, fun noReset => ⟨⟨_, rfl, ?_⟩, ⟨_, rfl, ?_⟩, fun d v => ⟨_, rfl, ?_⟩, ?_⟩⟩
  · obtain ⟨agree, -⟩ := runMicros_blind (ms := motInitMicros) rfl noReset (.refl s)
    exact agree.mot.trans (by rw [replay_motInit])
  · obtain ⟨agree, -⟩ := runMicros_blind (ms := motStopMicros) rfl noReset (.refl s)
    exact agree.mot.trans (by rw [replay_motStop])
  · obtain ⟨agree, -⟩ := runMicros_blind (ms := motRotateMicros d v) (by cases d <;> rfl) noReset (.refl s)
    exact agree.mot.trans (by rw [replay_motRotate])
  · intro i notInit notStop notRotate notIter notRun
    cases i with
    | motInit => exact absurd rfl notInit
    | motStop => exact absurd rfl notStop
    | motRotate d v => exact absurd rfl (notRotate d v)
    | ctlIter => exact absurd rfl notIter
    | ctlRun => exact absurd rfl notRun
    | nop | adcInit | adcRead | adcShutdown | tempConv | pwmStart | bandSel => exact ⟨_, rfl, runMicros_mot rfl noReset⟩

/-! ## The stop clause (10_state.md R43 (e)) -/

/-- By its trace, no compare value other than 0 has been written since the last stop. -/
def State.StopSafe (s : State) : Prop := ∀ v, stopCmp s.trace = some v → v = 0#8

theorem State.StopSafe.of_stopCmp {s t : State} (h : t.StopSafe) (same : stopCmp s.trace = stopCmp t.trace) : s.StopSafe :=
  fun v last => h v (same.symm.trans last)

theorem State.applyReset_stopSafe (s : State) : s.applyReset.StopSafe := by
  intro v last
  rw [State.applyReset_trace, stopCmp_append] at last
  obtain ⟨_, -, zero⟩ := Option.map_eq_some_iff.mp last
  exact zero.symm

theorem stopCmp_append_event {e : Event} (neutral : ∀ c, stopCmpAfter c e = c) (trace : List Event) :
    stopCmp (trace ++ [e]) = stopCmp trace :=
  stopCmp_append_of_neutral (by simpa using neutral) trace

/-- No micro-step but a compare write takes it away. -/
theorem State.StopSafe.apply {s : State} (h : s.StopSafe) {m : Micro} (spares : m.sparesCompare = true) :
    (m.apply s).StopSafe := by
  intro v last
  cases m with
  | pwmCmp => exact absurd spares Bool.false_ne_true
  | opStart op =>
    rw [show (Micro.apply (.opStart op) s).trace = s.trace ++ [.opStart op] from rfl, stopCmp_append] at last
    by_cases rotation : op = 0x07#8
    · simp [stopCmpAfter, rotation] at last
    · exact h v (by simpa [stopCmpAfter, rotation] using last)
  | opReturn op =>
    rw [show (Micro.apply (.opReturn op) s).trace = s.trace ++ [.opReturn op] from rfl, stopCmp_append] at last
    by_cases stop : op = 0x08#8
    · have zero : 0#8 = v := by simpa [stopCmpAfter, stop] using last
      exact zero.symm
    · exact h v (by simpa [stopCmpAfter, stop] using last)
  | adcTrigger | pwmOe | in1Oe | in2Oe | in1 | in2 | dispInit | dispTemp | dispFan =>
    exact h v ((stopCmp_append_event (fun _ => rfl) s.trace).symm.trans last)
  | _ => exact h v last

/-- A run without a compare write keeps it. -/
theorem State.StopSafe.runMicros {s : State} (h : s.StopSafe) {ms : List Micro} (spare : ms.all Micro.sparesCompare = true) :
    (runMicros ms s).StopSafe :=
  runMicros_keeps_of (fun u safe => safe.of_stopCmp u.gapStep_stopCmp) (fun _ _ spares safe => safe.apply spares)
    (fun u _ _ => u.applyReset_stopSafe) (fun _ _ safe => safe) rfl spare h

/-- A plain run from rest has it if the micro-steps executed alone have. -/
theorem State.RestInv.runMicros_stopSafe {s : State} (h : s.RestInv) {ms : List Micro} (plain : ms.all Micro.plain = true)
    (after : (replay ms s).StopSafe) : (Machine.runMicros ms s).StopSafe := by
  rcases runMicros_reset_or_same ms s with ⟨u, -, -, reset⟩ | ⟨r, -, same⟩
  · exact reset ▸ u.applyReset_stopSafe
  · obtain ⟨agree, -⟩ := runMicros_plain (s := s.withRst []) plain ⟨rfl, h.notBusy⟩
    rw [replay_withRst] at agree
    rw [same]
    exact after.of_stopCmp (congrArg stopCmp agree.trace)

theorem replay_motRotate_stopSafe (dir : Direction) (speed : BitVec 8) (s : State) :
    (replay (motRotateMicros dir speed) s).StopSafe := by
  intro v last
  rw [replay_motRotate, stopCmp_motRotateEvents] at last
  cases last

theorem replay_motStop_stopSafe (s : State) : (replay motStopMicros s).StopSafe := by
  intro v last
  rw [replay_motStop, stopCmp_motStopEvents] at last
  exact (Option.some.inj last).symm

/-- One phase from rest keeps it: IT_ACT stops or rotates, and no other phase writes a compare value. -/
theorem State.RestInv.runMicros_phase_stopSafe {s : State} (h : s.RestInv) (safe : s.StopSafe) {p : Phase} {ms : List Micro}
    (micros : phaseMicros p s = .ok ms) : (Machine.runMicros ms s).StopSafe := by
  cases p with
  | itAct =>
    simp only [phaseMicros] at micros
    split at micros <;> cases micros
    unfold actMicros
    split
    · exact h.runMicros_stopSafe rfl (((replay_motStop_stopSafe s).apply (m := .ctlMstate _) rfl).apply (m := .ctlPhase _) rfl)
    · exact h.runMicros_stopSafe rfl
        (((replay_motRotate_stopSafe .cw _ s).apply (m := .ctlMstate _) rfl).apply (m := .ctlPhase _) rfl)
  | itDispFan =>
    cases micros
    unfold iterEndMicros
    split <;> exact safe.runMicros rfl
  | _ => cases micros; exact safe.runMicros rfl

theorem runPhases_stopSafe {n : Nat} {s t : State} (h : s.Inv) (safe : s.StopSafe) (ran : runPhases n s = .next t) :
    t.StopSafe := by
  induction n generalizing s with
  | zero => cases ran; exact safe
  | succ n ih =>
    cases next : s.nextPhase with
    | none => rw [runPhases_stop next] at ran; cases ran; exact safe
    | some p =>
      obtain ⟨rest, phase⟩ := h.rest_of_nextPhase next
      cases micros : phaseMicros p s with
      | error r => simp [runPhases, next, runPhase, micros] at ran
      | ok ms =>
        rw [runPhases_succ next micros] at ran
        exact ih (rest.runMicros_phase_inv phase micros) (rest.runMicros_phase_stopSafe safe micros) ran

/-- An operation from rest keeps it, but for a PWM_START of a non-zero duty. -/
theorem State.RestInv.exec_stopSafe {s t : State} (h : s.RestInv) (safe : s.StopSafe) {i : Instr}
    (zero : ∀ duty, i = .pwmStart duty → duty = 0#8) (next : exec i s = .next t) : t.StopSafe := by
  cases i with
  | pwmStart duty =>
    obtain rfl := zero duty rfl
    cases next
    refine h.runMicros_stopSafe rfl fun v last => ?_
    rw [Machine.replay_pwmStart, stopCmp_pwmStartEvents] at last
    obtain ⟨_, -, written⟩ := Option.map_eq_some_iff.mp last
    exact written.symm
  | motRotate dir speed =>
    cases next
    exact h.runMicros_stopSafe (motRotateMicros_plain dir speed) (replay_motRotate_stopSafe dir speed s)
  | motStop =>
    cases next
    exact h.runMicros_stopSafe motStopMicros_plain (replay_motStop_stopSafe s)
  | ctlIter => exact runPhases_stopSafe (h.runMicros_inv rfl h.replay_enterIter) (safe.runMicros rfl) next
  | ctlRun => exact runPhases_stopSafe (h.runMicros_inv rfl h.replay_enterRun) (safe.runMicros rfl) next
  | _ => cases next; exact safe.runMicros rfl

/-- A word that decodes to PWM_START has its code and its operand (30_encoding.md R83, R84). -/
theorem decodeWord_pwmStart {w : CmdWord} {duty : BitVec 8} (decoded : decodeWord w = .ok (.pwmStart duty)) :
    opField w = 0x05#8 ∧ duty = (bField w).extractLsb' 0 8 := by
  unfold decodeWord at decoded
  split at decoded <;> cases decoded
  exact ⟨BitVec.eq_of_toNat_eq ‹_›, rfl⟩

theorem State.RestInv.acceptWord_stopSafe {s t : State} (h : s.RestInv) (safe : s.StopSafe) {w : CmdWord}
    (zero : opField w = 0x05#8 → (bField w).extractLsb' 0 8 = 0#8) (next : acceptWord w s = .next t) : t.StopSafe := by
  cases decoded : decodeWord w with
  | ok i =>
    refine h.exec_stopSafe safe (fun duty start => ?_) ((acceptWord_of_decoded decoded s).symm.trans next)
    obtain ⟨op, operand⟩ := decodeWord_pwmStart (start ▸ decoded)
    exact operand.trans (zero op)
  | error e =>
    obtain ⟨reserved, -⟩ := decodeWord_error decoded
    rw [acceptWord_of_reserved reserved] at next
    cases next
    exact safe.runMicros rfl

/-- EVERY STEP KEEPS IT but one that accepts a PWM_START of a non-zero duty. -/
theorem step_stopSafe {s t : State} (h : s.Inv) (safe : s.StopSafe)
    (zero : ∀ w, s.cmdReady = true → s.presented = some w → opField w = 0x05#8 → (bField w).extractLsb' 0 8 = 0#8)
    (next : step s = .next t) : t.StopSafe := by
  have is := step_is s
  have dropped := h.dropPresented
  have safeDropped : s.dropPresented.StopSafe := safe
  generalize step s = outcome at next is
  cases is with
  | reset => cases next; exact s.dropPresented.applyReset_stopSafe
  | failed | quiet => cases next; exact safeDropped.of_stopCmp s.dropPresented.gapStep_stopCmp
  | held noReset noFault held =>
    cases next
    rcases h.cases with atRest | ⟨looks, rest, pending, poll⟩ | failed
    · exact absurd atRest.ended held
    · rw [pending]
      refine safeDropped.runMicros ?_
      rcases poll.place with ⟨-, rfl⟩ | ⟨-, rfl⟩ <;> rfl
    · exact absurd failed.ended held
  | start free => exact (dropped.rest free.ended free.noFault).exec_stopSafe (i := .ctlRun) safeDropped (fun _ => nofun) next
  | accept w free ready word =>
    exact (dropped.rest free.ended free.noFault).acceptWord_stopSafe safeDropped (zero w ready word) next
  | phase p free =>
    unfold runPhase at next
    split at next <;> cases next
    exact (dropped.rest free.ended free.noFault).runMicros_phase_stopSafe safeDropped ‹_›
  | badPhase => cases next

/-- Settles O46: under the invariant the clause is a property of the trace, which every step keeps but one with a compare
write of its own; such a write leaves the actuator and the pins as the stop left them. -/
theorem stopClauseFailsOnlyByPwmStartAlone : Obligations.StopClauseFailsOnlyByPwmStartAlone := by
  unfold Obligations.StopClauseFailsOnlyByPwmStartAlone
  refine ⟨⟨nofun, fun s t inv clause zero next => ?_⟩, fun s calm => ⟨_, _, rfl, rfl, ?_⟩⟩
  · have safe : s.StopSafe := inv.actuator.stopClause_iff.mp clause
    exact (step_inv inv next).actuator.stopClause_iff.mpr (step_stopSafe inv safe zero next)
  · obtain ⟨stopped, calmThen, -⟩ := runMicros_plain motStopMicros_plain calm
    obtain ⟨started, -⟩ := runMicros_plain (ms := pwmStartMicros 50#8) rfl calmThen
    rw [replay_motStop] at stopped
    rw [replay_pwmStart] at started
    have mot := started.mot.trans stopped.mot
    have pin := started.pin
    rw [stopped.pin] at pin
    exact ⟨congrArg Mot.run mot, congrArg Pins.in1 pin, congrArg Pins.in2 pin, started.cmp⟩

end Sys2Proof.Machine

/-! The Control Loop, continued (45_control_loop.md): each phase as one update of the state (R189 to R193), the steps of the
orchestrator (R196), one iteration of CTL_ITER (R188), and CTL_RUN's boot (R197). -/

namespace Sys2Proof.Machine

/-! ## CTL_RUN (R197, R198) -/

/-- In a phase other than IDLE the port is closed. -/
theorem State.cmdReady_of_phase {s : State} {p : Phase} (phase : s.ctl.phase = p.code) (notIdle : p ≠ .idle) :
    s.cmdReady = false := by
  refine Bool.eq_false_iff.mpr fun ready => notIdle ?_
  obtain ⟨idle, -⟩ := s.cmdReady_iff.mp ready
  exact Phase.code_injective (phase.symm.trans idle)

/-- Settles O51: CTL_RUN settles as `State.booted`. -/
theorem ctlRunBootsIntoTheLoop : Obligations.CtlRunBootsIntoTheLoop := by
  unfold Obligations.CtlRunBootsIntoTheLoop
  refine ⟨fun w op => ?decodes, fun s calm => ?_⟩
  case decodes =>
    unfold decodeWord
    rw [op]
    rfl
  obtain ⟨t, boots, agree, timer, -, ended⟩ := exec_ctlRun_settlesAs_booted calm
  have closed : t.cmdReady = false := State.cmdReady_of_phase (p := .itSample) (congrArg Ctl.phase agree.ctl) (by decide)
  exact ⟨t, boots, agree.ctl, agree.adc, agree.pin, agree.mot, timer, agree.res, agree.convs, agree.draws,
    agree.outsideKept, ended, closed, agree.trace⟩

/-! ## The phases of an iteration, executed alone -/

/-- A state after an answered IT_SAMPLE (R189). -/
def State.sampledPhase (s : State) : State :=
  let ch := chanTrunc s.params s.params.sensorChannel
  let v := s.ainAt ch s.convs
  { s with
    adc := { s.adc with ch := ch, data := v, busy := false, done := false }
    convs := s.convs + 1
    res := tempWord s.params v
    ctl := { s.ctl with temp := tempWord s.params v, phase := Phase.itDispTemp.code }
    trace := s.trace ++
      [.opStart 0x02#8, .convStart ch, .convDone v, .opReturn 0x02#8, .opStart 0x04#8, .opReturn 0x04#8] }

/-- What IT_SAMPLE executes behind its read. -/
def behindSample : List Micro := tempConvMicros .result ++ [.ctlTemp, .ctlPhase .itDispTemp]

theorem phaseMicros_itSample (s : State) :
    phaseMicros .itSample s = .ok (adcReadMicros s.params.pollBound s.params.sensorChannel ++ behindSample) := by
  rw [behindSample, ← List.append_assoc]
  rfl

/-- The sample is in RES when TEMP_CONV takes it from there. -/
theorem replay_behindSample (s : State) : replay behindSample (sampled s.params.sensorChannel s) = s.sampledPhase := by
  simp [behindSample, replay_append, replay_tempConv, replay_cons, replay_nil, Micro.apply, sampled, sampleOf,
    State.sampledPhase]

/-- A state after IT_SELECT (R191). -/
theorem replay_itSelect (s : State) :
    replay (bandSelMicros .latch ++ [.ctlTier, .ctlPhase .itAct]) s = { s with
      res := (bandTier s.ctl.temp).setWidth 16
      ctl := { s.ctl with tier := bandTier s.ctl.temp, phase := Phase.itAct.code }
      trace := s.trace ++ [.opStart 0x09#8, .opReturn 0x09#8] } := by
  simp [replay_append, replay_bandSel, replay_cons, replay_nil, Micro.apply, tempOf]

/-- A state after IT_ACT with a legal tier (R192): for the stop tier the duty is 0 and so is the compare value. -/
def State.actedPhase (s : State) (tier : BitVec 3) : State :=
  { s with
    pwm := { fast := true, ninv := true, ps := s.params.pwmPsSel, cnt := 0#8, cmp := compareWord (tierDuty tier) }
    pin := { s.pin with in1 := false, in2 := decide (tier ≠ 0#3), pwmOe := true }
    mot := { run := decide (tier ≠ 0#3), dir := .cw, speed := tierDuty tier }
    ctl := { s.ctl with mstate := mstateOfTier tier, phase := Phase.itDispFan.code }
    trace := s.trace ++ actEvents tier }

/-- The duty of a legal tier is within the contract (R191). -/
theorem tierDuty_inContract {tier : BitVec 3} (legal : tier.toNat ≤ 4) : (tierDuty tier).toNat ≤ 100 := by
  rw [tierDuty_toNat legal]
  omega

theorem replay_itAct {tier : BitVec 3} (legal : tier.toNat ≤ 4) (s : State) :
    replay (actMicros tier ++ [.ctlPhase .itDispFan]) s = s.actedPhase tier := by
  have compare := State.compareValue_of_contract (tierDuty_inContract legal)
  have draws := State.drawsAfter_of_contract (tierDuty_inContract legal)
  by_cases stop : tier = 0#3
  · subst stop
    simp [actMicros, replay_append, replay_motStop, replay_cons, replay_nil, Micro.apply, State.actedPhase, actEvents,
      tierDuty, compareWord, compareNat]
  · simp [actMicros, stop, replay_append, replay_motRotate, replay_cons, replay_nil, Micro.apply, State.actedPhase,
      actEvents, compare, draws, dirBit]

/-- A state after IT_DISP_FAN (R193). -/
theorem replay_itDispFan (s : State) :
    replay (.dispFan :: iterEndMicros s.ctl.loop) s = { s with
      ctl := { s.ctl with phase := if s.ctl.loop then Phase.itSample.code else Phase.idle.code }
      trace := s.trace ++ [.dispFan s.ctl.mstate] ++ (if s.ctl.loop then [] else [.opReturn 0x0A#8]) } := by
  cases loop : s.ctl.loop <;> simp [iterEndMicros, replay_cons, replay_nil, Micro.apply, State.emit]

theorem actMicros_plain (tier : BitVec 3) : (actMicros tier ++ [Micro.ctlPhase .itDispFan]).all Micro.plain = true := by
  unfold actMicros
  split <;> rfl

/-- IT_ACT is at most the stop's 22 micro-steps and its own two. -/
theorem actMicros_length_le (tier : BitVec 3) : (actMicros tier ++ [Micro.ctlPhase .itDispFan]).length ≤ 24 := by
  unfold actMicros
  split
  · exact Nat.le_refl 24
  · exact (by decide : 17 ≤ 24)

theorem dispFanMicros_plain (loop : Bool) : (Micro.dispFan :: iterEndMicros loop).all Micro.plain = true := by
  cases loop <;> rfl

theorem dispFanMicros_sparesTimer (loop : Bool) : (Micro.dispFan :: iterEndMicros loop).all Micro.sparesTimer = true := by
  cases loop <;> rfl

/-! ## The steps of the orchestrator (R196) -/

/-- A step in a phase other than IDLE runs the phase's micro-steps. -/
theorem step_of_phaseMicros {s : State} {p : Phase} {ms : List Micro} (noReset : s.env.rst = []) (noFault : s.ctl.fault = false)
    (ended : s.pending = []) (phase : s.ctl.phase = p.code) (notIdle : p ≠ .idle) (micros : phaseMicros p s = .ok ms) :
    step s = .next (runMicros ms s.dropPresented) := by
  have dropped : phaseMicros p s.dropPresented = .ok ms := micros
  rw [step_of_phase noReset noFault ended phase notIdle, runPhase, dropped]

/-- An answered IT_SAMPLE settles. -/
theorem runMicros_itSample_answered {s : State} (calm : s.Calm) (can : s.canConvert = true) (looks : s.params.pollBound ≠ some 0)
    (answered : (s.gapAt 3).complete = true) :
    s.SettlesAs s.sampledPhase
      (runMicros (adcReadMicros s.params.pollBound s.params.sensorChannel ++ behindSample) s) := by
  obtain ⟨agree, calmThen, ended⟩ :=
    runMicros_adcRead_answered calm can looks answered s.params.sensorChannel (rest := behindSample) rfl
  rw [replay_behindSample] at agree
  exact ⟨agree, runMicros_pwmKept rfl calm.1, calmThen, ended⟩

/-- Settles O54: IT_SAMPLE settles as `State.sampledPhase`, or is held with the read begun. -/
theorem samplePhaseSamplesAndLatches : Obligations.SamplePhaseSamplesAndLatches := by
  unfold Obligations.SamplePhaseSamplesAndLatches
  intro s calm noFault ended phase notDone
  have stepped := step_of_phaseMicros calm.1 noFault ended phase (by decide) (phaseMicros_itSample s)
  have calmDropped : s.dropPresented.Calm := calm
  constructor
  · intro can looks answered
    obtain ⟨agree, timer, -, endedThen⟩ := runMicros_itSample_answered calmDropped can looks answered
    exact ⟨_, stepped, endedThen, agree.adc, agree.convs, agree.res, agree.ctl, agree.trace, timer, agree.pin, agree.mot,
      agree.draws⟩
  · intro infinite unanswered
    rw [infinite] at stepped
    obtain ⟨agree, held⟩ := runMicros_adcRead_held calmDropped notDone unanswered s.params.sensorChannel behindSample
    have closed := State.cmdReady_of_pending (held ▸ List.cons_ne_nil _ _)
    exact ⟨_, stepped, held, closed, agree.adc, agree.convs, agree.res, agree.ctl, agree.trace, runMicros_pwmKept rfl calm.1,
      agree.pin, agree.mot, agree.draws⟩

/-- Settles O55: the three phases are plain runs that spare the timer. -/
theorem displayAndSelectPhases : Obligations.DisplayAndSelectPhases := by
  unfold Obligations.DisplayAndSelectPhases
  intro s calm noFault ended
  have calmDropped : s.dropPresented.Calm := calm
  refine ⟨fun phase => ⟨_, step_of_phaseMicros calm.1 noFault ended phase (by decide) rfl, ?_⟩,
    fun phase => ⟨_, step_of_phaseMicros calm.1 noFault ended phase (by decide) rfl, ?_⟩,
    fun phase => ⟨_, step_of_phaseMicros calm.1 noFault ended phase (by decide) rfl, ?_⟩⟩
  · obtain ⟨agree, timer, -, -⟩ := runMicros_settles (ms := [.dispTemp, .ctlPhase .itSelect]) calmDropped rfl rfl
    exact ⟨agree.trace, agree.ctl, agree.res, agree.adc, agree.pin, agree.mot, timer⟩
  · obtain ⟨agree, timer, -, -⟩ :=
      runMicros_settles (ms := bandSelMicros .latch ++ [.ctlTier, .ctlPhase .itAct]) calmDropped rfl rfl
    rw [replay_itSelect] at agree
    exact ⟨agree.trace, agree.ctl, agree.res, agree.adc, agree.pin, agree.mot, timer⟩
  · obtain ⟨agree, timer, -, -⟩ :=
      runMicros_settles calmDropped (dispFanMicros_plain s.ctl.loop) (dispFanMicros_sparesTimer s.ctl.loop)
    rw [show s.ctl.loop = s.dropPresented.ctl.loop from rfl, replay_itDispFan] at agree
    exact ⟨agree.trace, agree.ctl, agree.res, agree.adc, agree.pin, agree.mot, timer⟩

/-- Settles O56: IT_ACT is a plain run that leaves `State.actedPhase`. -/
theorem actPhaseActsOnTheTier : Obligations.ActPhaseActsOnTheTier := by
  unfold Obligations.ActPhaseActsOnTheTier
  intro s calm noFault ended phase legal
  have micros : phaseMicros .itAct s = .ok (actMicros s.ctl.tier ++ [.ctlPhase .itDispFan]) := if_pos legal
  have calmDropped : s.dropPresented.Calm := calm
  obtain ⟨agree, -, endedThen⟩ := runMicros_plain (actMicros_plain s.ctl.tier) calmDropped
  rw [replay_itAct legal] at agree
  refine ⟨_, step_of_phaseMicros calm.1 noFault ended phase (by decide) micros, agree.draws, agree.trace, agree.ctl, ?_, ?_, ?_,
    ?_, agree.pin, ?_, agree.fast, agree.ninv, agree.ps, fun still => ?_, agree.adc, agree.res, agree.convs, endedThen⟩
  · rw [agree.ctl, agree.mot]
    exact MotorState.bit_mstateOfTier _
  · rw [agree.mot]
    rfl
  · rw [agree.mot]
    exact tierDuty_toNat legal
  · rw [agree.mot]
    rfl
  · rw [agree.cmp, ← tierDuty_toNat legal]
    exact compareWord_ceil (tierDuty_inContract legal)
  · rw [runMicros_cnt_of_still (plain_writes (actMicros_plain _)) (s := s.dropPresented) calm.1
      fun k below => still k (below.trans_le (actMicros_length_le _)), replay_itAct legal]
    rfl

/-- Settles O53: each phase's run ends, with the write of the successor. -/
theorem phasesFollowTheSuccessorTable : Obligations.PhasesFollowTheSuccessorTable := by
  unfold Obligations.PhasesFollowTheSuccessorTable
  intro s p calm noFault ended phase notIdle sample act
  have calmDropped : s.dropPresented.Calm := calm
  have stepTo {ms : List Micro} (micros : phaseMicros p s = .ok ms) {q : Phase} (plain : ms.all Micro.plain = true)
      (enters : (replay ms s.dropPresented).ctl.phase = q.code) :
      ∃ t, step s = .next t ∧ t.pending = [] ∧ t.ctl.phase = q.code := by
    obtain ⟨agree, -, endedThen⟩ := runMicros_plain plain calmDropped
    exact ⟨_, step_of_phaseMicros calm.1 noFault ended phase notIdle micros, endedThen,
      (congrArg Ctl.phase agree.ctl).trans enters⟩
  cases p with
  | idle => exact absurd rfl notIdle
  | itSample =>
    obtain ⟨-, can, looks, answered⟩ := sample rfl
    obtain ⟨agree, -, -, endedThen⟩ := runMicros_itSample_answered calmDropped can looks answered
    exact ⟨_, step_of_phaseMicros calm.1 noFault ended phase notIdle (phaseMicros_itSample s), endedThen,
      congrArg Ctl.phase agree.ctl⟩
  | itAct =>
    exact stepTo (if_pos (act rfl)) (actMicros_plain _) (congrArg (fun t => t.ctl.phase) (replay_itAct (act rfl) _))
  | itDispFan =>
    refine stepTo rfl (dispFanMicros_plain s.ctl.loop) ?_
    rw [show s.ctl.loop = s.dropPresented.ctl.loop from rfl, replay_itDispFan]
    cases s.dropPresented.ctl.loop <;> rfl
  | bootAdc | bootMot | bootDisp | itDispTemp | itSelect => exact stepTo rfl rfl rfl

end Sys2Proof.Machine

/-! One iteration of CTL_ITER (45_control_loop.md R185 to R193): its five phases one after the other, the gaps they use up,
and the count behind its PWM restart (70_reset_and_hazards.md R246). -/

namespace Sys2Proof.Machine

/-! ## Phase after phase, with the gaps counted -/

/-- Work begun in `s` has come calmly to its end in `u`, which agrees with `t`, and has used up `n` gaps. -/
structure State.ReachedAs (s t u : State) (n : Nat) : Prop where
  agree : u.Agree t
  calm : u.Calm
  ended : u.pending = []
  gaps : ∀ k, u.gapAt k = s.gapAt (k + n)

/-- A plain run of a calm state uses up a gap for each micro-step. -/
theorem runMicros_plain_gapAt {ms : List Micro} {s : State} (plain : ms.all Micro.plain = true) (calm : s.Calm) (k : Nat) :
    (runMicros ms s).gapAt k = s.gapAt (k + ms.length) := by
  have run := runMicros_append plain calm []
  rw [List.append_nil] at run
  rw [run, runMicros_nil, ← runFree_gapAt]
  rfl

theorem runMicros_reachedAs {r s t : State} {n : Nat} {ms : List Micro} (agree : s.Agree t) (calm : s.Calm)
    (gaps : ∀ k, s.gapAt k = r.gapAt (k + n)) (plain : ms.all Micro.plain = true) :
    r.ReachedAs (replay ms t) (runMicros ms s) (n + ms.length) := by
  obtain ⟨agreeRun, calmThen, ended⟩ := runMicros_plain plain calm
  refine ⟨agreeRun.trans (replay_agree ms agree), calmThen, ended, fun k => ?_⟩
  rw [runMicros_plain_gapAt plain calm, gaps, Nat.add_assoc, Nat.add_comm ms.length]

/-- The first of several phases is the run of its micro-steps. -/
theorem State.ReachedAs.runPhases_succ {r s t : State} {n : Nat} (reached : r.ReachedAs t s n) {p : Phase}
    (phase : t.ctl.phase = p.code) (notIdle : p ≠ .idle) {ms : List Micro} (micros : phaseMicros p t = .ok ms) (m : Nat) :
    runPhases (m + 1) s = runPhases m (runMicros ms s) :=
  Machine.runPhases_succ
    (State.nextPhase_of reached.ended ((congrArg Ctl.phase reached.agree.ctl).trans phase) notIdle)
    ((reached.agree.phaseMicros_congr p).trans micros)

theorem State.ReachedAs.run {r s t : State} {n : Nat} (reached : r.ReachedAs t s n) {ms : List Micro}
    (plain : ms.all Micro.plain = true) : r.ReachedAs (replay ms t) (runMicros ms s) (n + ms.length) :=
  runMicros_reachedAs reached.agree reached.calm reached.gaps plain

/-! ## The answered read, with the gaps counted -/

/-- Behind its poll an answered read goes on calmly, four gaps after its start. -/
theorem runMicros_adcRead_through {s : State} (calm : s.Calm) (can : s.canConvert = true) {bound : Option Nat}
    (looks : bound ≠ some 0) (answered : (s.gapAt 3).complete = true) (channel : Nat) (rest : List Micro) :
    ∃ u : State, u.Calm ∧ (∀ k, u.gapAt k = s.gapAt (k + 4)) ∧
      runMicros (adcReadMicros bound channel ++ rest) s = runMicros (afterPoll ++ rest) u := by
  obtain ⟨u, started, -, gaps, run⟩ := runMicros_adcRead calm bound channel rest
  have noReset : u.env.rst = [] := started.rst.trans calm.1
  have enabled : u.convEnabled = true := by
    rw [show u.convEnabled = (u.adc.busy && u.canConvert) from Bool.and_assoc .., State.canConvert, started.adc]
    exact can
  have agree : u.gapStep.Agree u.convComplete :=
    State.gapStep_agree_of_complete noReset enabled (by rw [gaps]; exact answered)
  refine ⟨u.gapStep, ⟨by simp [noReset], congrArg Adc.busy agree.adc⟩, fun k => ?_, ?_⟩
  · rw [State.gapStep_gapAt, gaps]
  · rw [run, List.cons_append, runMicros_cons_poll (State.rstNow_of_none noReset), congrArg Adc.done agree.adc,
      show u.convComplete.adc.done = true from rfl, pollLook_true looks]

theorem State.Agree.sampledPhase {s t : State} (agree : s.Agree t) : s.sampledPhase.Agree t.sampledPhase := by
  obtain ⟨adc, fast, ninv, ps, cmp, pin, mot, ctl, res, convs, trace, rst, cmds, ain, draws, params⟩ := agree
  constructor <;> simp only [State.sampledPhase, State.ainAt, adc, fast, ninv, ps, cmp, pin, mot, ctl, convs, trace, rst, cmds,
    ain, draws, params]

/-- IT_SAMPLE, answered at its first look, uses up twelve gaps. -/
theorem State.ReachedAs.sample {r s t : State} {n : Nat} (reached : r.ReachedAs t s n)
    (phase : t.ctl.phase = Phase.itSample.code) (can : t.canConvert = true) (looks : t.params.pollBound ≠ some 0)
    (answered : (r.gapAt (n + 3)).complete = true) (m : Nat) :
    ∃ u, runPhases (m + 1) s = runPhases m u ∧ r.ReachedAs t.sampledPhase u (n + 12) := by
  have next := reached.runPhases_succ phase (by decide) (phaseMicros_itSample t) m
  obtain ⟨agree, calm, -, gaps⟩ := reached
  have canNow : s.canConvert = true := by rw [State.canConvert, agree.adc]; exact can
  have answeredNow : (s.gapAt 3).complete = true := by rw [gaps, Nat.add_comm]; exact answered
  rw [← agree.params] at next looks
  obtain ⟨agreeThen, -, calmThen, ended⟩ := runMicros_itSample_answered calm canNow looks answeredNow
  obtain ⟨u, calmBehind, gapsBehind, run⟩ :=
    runMicros_adcRead_through calm canNow looks answeredNow s.params.sensorChannel behindSample
  refine ⟨_, next, agreeThen.trans agree.sampledPhase, calmThen, ended, fun k => ?_⟩
  have eight : (afterPoll ++ behindSample).length = 8 := rfl
  rw [run, runMicros_plain_gapAt (ms := afterPoll ++ behindSample) rfl calmBehind, gapsBehind, gaps, eight]
  exact congrArg r.gapAt (by omega)

/-! ## One iteration (R188) -/

/-- The state in which IT_ACT begins, in an answered iteration from `s`. -/
def State.selected (s : State) : State :=
  let ch := chanTrunc s.params s.params.sensorChannel
  let v := s.ainAt ch s.convs
  let temp := tempWord s.params v
  { s with
    adc := { s.adc with ch := ch, data := v, busy := false, done := false }
    ctl := { s.ctl with temp := temp, tier := bandTier temp, phase := Phase.itAct.code }
    res := (bandTier temp).setWidth 16
    convs := s.convs + 1
    trace := s.trace ++
      [.opStart 0x0A#8, .opStart 0x02#8, .convStart ch, .convDone v, .opReturn 0x02#8, .opStart 0x04#8,
        .opReturn 0x04#8, .dispTemp temp, .opStart 0x09#8, .opReturn 0x09#8] }

/-- The start of CTL_ITER and its first three phases lead there. -/
theorem replay_selected (s : State) :
    replay (bandSelMicros .latch ++ [.ctlTier, .ctlPhase .itAct])
      (replay [.dispTemp, .ctlPhase .itSelect]
        (replay [.opStart 0x0A#8, .ctlPhase .itSample] s).sampledPhase) = s.selected := by
  have entered : (replay [.opStart 0x0A#8, .ctlPhase .itSample] s).sampledPhase =
      { s.sampledPhase with trace := (s.emit (.opStart 0x0A#8)).sampledPhase.trace } := rfl
  rw [entered, replay_itSelect]
  simp [replay_cons, replay_nil, Micro.apply, State.emit, State.sampledPhase, State.selected]
  rfl

/-- The state after an answered iteration from `s`: the actuation and the display behind it. -/
def State.iterated (s : State) : State :=
  let acted := s.selected.actedPhase s.selected.ctl.tier
  { acted with
    ctl := { acted.ctl with phase := if s.ctl.loop then Phase.itSample.code else Phase.idle.code }
    trace := acted.trace ++ [.dispFan acted.ctl.mstate] ++ (if s.ctl.loop then [] else [.opReturn 0x0A#8]) }

theorem replay_iterated (s : State) :
    replay (.dispFan :: iterEndMicros s.selected.ctl.loop) (s.selected.actedPhase s.selected.ctl.tier) = s.iterated :=
  replay_itDispFan (s.selected.actedPhase s.selected.ctl.tier)

/-- CTL_ITER enters IT_SAMPLE with the converter as it was. -/
theorem runMicros_enterIter {s : State} (calm : s.Calm) :
    s.ReachedAs (replay [.opStart 0x0A#8, .ctlPhase .itSample] s) (runMicros [.opStart 0x0A#8, .ctlPhase .itSample] s) 2 :=
  runMicros_reachedAs (n := 0) (.refl s) calm (fun _ => rfl) rfl

/-- AN ANSWERED ITERATION comes to its end with `State.iterated`; if TMR does not tick in it, with the count at 0. -/
theorem exec_ctlIter_iterated {s : State} (calm : s.Calm) (can : s.canConvert = true) (looks : s.params.pollBound ≠ some 0)
    (answered : (s.gapAt 5).complete = true) :
    ∃ t, exec .ctlIter s = .next t ∧ t.Agree s.iterated ∧ t.pending = [] ∧
      ((∀ k, k < 48 → (s.gapAt k).ticks = 0) → t.pwm.cnt = 0#8) := by
  obtain ⟨a, sampling, sampled⟩ := (runMicros_enterIter calm).sample rfl can looks answered 4
  have showing := sampled.runPhases_succ (p := .itDispTemp) rfl (by decide) rfl 3
  have shown := sampled.run (ms := [.dispTemp, .ctlPhase .itSelect]) rfl
  have selecting := shown.runPhases_succ (p := .itSelect) rfl (by decide) rfl 2
  have selected := shown.run (ms := bandSelMicros .latch ++ [.ctlTier, .ctlPhase .itAct]) rfl
  rw [replay_selected] at selected
  have legal : s.selected.ctl.tier.toNat ≤ 4 := bandTier_le _
  have acting := selected.runPhases_succ (p := .itAct) rfl (by decide) (if_pos legal) 1
  have acted := selected.run (actMicros_plain s.selected.ctl.tier)
  rw [replay_itAct legal] at acted
  have ending := acted.runPhases_succ (p := .itDispFan) rfl (by decide) rfl 0
  have iterated := acted.run (dispFanMicros_plain s.selected.ctl.loop)
  rw [replay_iterated] at iterated
  refine ⟨_, ?_, iterated.agree, iterated.ended, fun still => ?_⟩
  · calc exec .ctlIter s
        = runPhases 5 (runMicros [.opStart 0x0A#8, .ctlPhase .itSample] s) := rfl
      _ = runPhases 4 a := sampling
      _ = _ := showing
      _ = _ := selecting
      _ = _ := acting
      _ = _ := ending
      _ = .next _ := rfl
  · have actLength := actMicros_length_le s.selected.ctl.tier
    have endLength : (Micro.dispFan :: iterEndMicros s.selected.ctl.loop).length ≤ 3 := by
      cases s.selected.ctl.loop <;> decide
    have firstLength : 2 + 12 + [Micro.dispTemp, .ctlPhase .itSelect].length +
      (bandSelMicros .latch ++ [Micro.ctlTier, .ctlPhase .itAct]).length = 21 := rfl
    rw [runMicros_cnt_of_still (plain_writes (dispFanMicros_plain _)) acted.calm.1 fun k below => ?atEnd, replay_pwm_cnt ?spare,
      runMicros_cnt_of_still (plain_writes (actMicros_plain _)) selected.calm.1 fun k below => ?atAct, replay_itAct legal]
    · rfl
    case atEnd => rw [acted.gaps]; exact still _ (by omega)
    case atAct => rw [selected.gaps]; exact still _ (by omega)
    case spare => cases s.selected.ctl.loop <;> rfl

/-- Settles O49. -/
theorem ctlIterRunsOneIteration : Obligations.CtlIterRunsOneIteration := by
  unfold Obligations.CtlIterRunsOneIteration
  refine ⟨fun w op => ?decodes, fun s calm _ can looks answered => ?_⟩
  case decodes =>
    unfold decodeWord
    rw [op]
    rfl
  obtain ⟨t, iterates, agree, ended, count⟩ := exec_ctlIter_iterated calm can looks answered
  refine ⟨t, iterates, agree.adc, agree.convs, agree.ctl, agree.res, fun stop => ?_, fun rotate => ?_, agree.fast, agree.ninv,
    agree.ps, count, agree.draws, agree.outsideKept, ended, agree.trace⟩
  · rw [agree.mot, agree.pin, agree.cmp]
    simp [State.iterated, State.actedPhase, State.selected, stop, tierDuty, compareWord, compareNat]
  · rw [agree.mot, agree.pin, agree.cmp]
    simp [State.iterated, State.actedPhase, State.selected, rotate, tierDuty]

theorem State.Agree.readStarted {s t : State} (agree : s.Agree t) (channel : Nat) :
    (readStarted channel s).Agree (readStarted channel t) := by
  obtain ⟨adc, fast, ninv, ps, cmp, pin, mot, ctl, res, convs, trace, rst, cmds, ain, draws, params⟩ := agree
  constructor <;> simp only [Machine.readStarted, adc, fast, ninv, ps, cmp, pin, mot, ctl, res, convs, trace, rst, cmds, ain,
    draws, params]

/-- Settles O50: CTL_ITER enters IT_SAMPLE, and there the read is held. -/
theorem ctlIterWaitsInTheSamplePhase : Obligations.CtlIterWaitsInTheSamplePhase := by
  unfold Obligations.CtlIterWaitsInTheSamplePhase
  intro s calm notDone infinite unanswered
  have entered := runMicros_enterIter calm
  have sampling := entered.runPhases_succ (p := .itSample) rfl (by decide) (phaseMicros_itSample _) 4
  obtain ⟨agree, calmThen, -, gaps⟩ := entered
  have unansweredThen : (runMicros [.opStart 0x0A#8, .ctlPhase .itSample] s).canConvert = false ∨
      ((runMicros [.opStart 0x0A#8, .ctlPhase .itSample] s).gapAt 3).complete = false := by
    rw [gaps, State.canConvert, agree.adc]
    exact unanswered
  have bound : (replay [.opStart 0x0A#8, .ctlPhase .itSample] s).params.pollBound = none := infinite
  rw [bound] at sampling
  obtain ⟨begun, held⟩ := runMicros_adcRead_held calmThen (by rw [agree.adc]; exact notDone) unansweredThen
    s.params.sensorChannel behindSample
  have started := begun.trans (agree.readStarted s.params.sensorChannel)
  have notEnded := held ▸ List.cons_ne_nil _ _
  have timer := (runMicros_pwmKept (ms := [.opStart 0x0A#8, .ctlPhase .itSample]) rfl calm.1).trans'
    (runMicros_pwmKept (ms := adcReadMicros none s.params.sensorChannel ++ behindSample) rfl calmThen.1)
  exact ⟨_, sampling.trans (runPhases_stop (State.nextPhase_of_held notEnded)), held, started.adc, started.ctl,
    started.trace.trans (List.append_assoc ..), started.pin, started.mot, timer, started.res,
    State.cmdReady_of_pending notEnded⟩

end Sys2Proof.Machine

/-! What is seen from outside: the twelve registers on the observation port (10_state.md R20, 20_memory.md R63), and the
wires (10_state.md R28, R29; 43_pwm.md R151; 20_memory.md R71). -/

namespace Sys2Proof.Machine

/-! ## The observation port (R20, R63) -/

/-- The bit of a MotorDirection is its code. -/
theorem Direction.code_eq_ofBool (dir : Direction) : dir.code = BitVec.ofBool (dirBit dir) := by cases dir <;> rfl

/-- A word is the concatenation of two fields if its lower bits are those of the one and the others those of the other. -/
theorem eq_append_of_getLsbD (n m : Nat) {r : BitVec (n + m)} {x : BitVec n} {y : BitVec m}
    (bits : ∀ i < n + m, r.getLsbD i = if i < m then y.getLsbD i else x.getLsbD (i - m)) : r = x ++ y :=
  BitVec.eq_of_getLsbD_eq fun i below => (bits i below).trans (BitVec.getLsbD_append ..).symm

/-- Settles O57: each register and its layout agree on each of the 16 bits; the registers end at number 11. -/
theorem observationPortShowsTheLayout : Obligations.ObservationPortShowsTheLayout := by
  unfold Obligations.ObservationPortShowsTheLayout
  intro s
  refine ⟨eq_append_of_getLsbD (8 + 1 + 2 + 2) 3 ?_, eq_append_of_getLsbD 8 8 ?_, eq_append_of_getLsbD (14 + 1) 1 ?_,
    eq_append_of_getLsbD 6 10 ?_, eq_append_of_getLsbD (8 + 1 + 1 + 3) 3 ?_, eq_append_of_getLsbD 8 8 ?_,
    eq_append_of_getLsbD 8 8 ?_, eq_append_of_getLsbD (13 + 1 + 1) 1 ?_, eq_append_of_getLsbD (14 + 1) 1 ?_,
    eq_append_of_getLsbD (1 + 1 + 6) 8 ?_, eq_append_of_getLsbD (8 + 1 + 1 + 1 + 1) 4 ?_, rfl, fun n => s.readReg_of_above⟩
  all_goals
    intro i below
    simp only [State.readReg, bitAt, BitVec.getLsbD_append]
    interval_cases i <;> simp [Direction.code_eq_ofBool]

/-! ## The wires (R28, R29, R71, R151) -/

/-- An output bound to no existing pin has no level (R71). -/
theorem State.wire_of_absent {s : State} {p : PinName} (absent : PinMap.bound s.params.pinMap p ∉ s.params.pinMap.present) :
    s.wire p = none := if_neg absent

/-- An output that is not driven has no level on any wire. -/
theorem State.wire_eq_none {s : State} {p : PinName} (undriven : (match p with
    | .in1 => s.in1Out
    | .in2 => s.in2Out
    | .pwmOut => s.pwmOut) = none) : s.wire p = none := by
  unfold State.wire
  split
  · exact undriven
  · rfl

theorem State.in1Out_of_disabled {s : State} (off : s.pin.in1Oe = false) : s.in1Out = none := by simp [State.in1Out, off]

theorem State.in2Out_of_disabled {s : State} (off : s.pin.in2Oe = false) : s.in2Out = none := by simp [State.in2Out, off]

theorem State.pwmOut_of_undriven {s : State} (off : s.pin.pwmOe = false ∨ s.pwm.fast = false ∨ s.pwm.ninv = false) :
    s.pwmOut = none := by
  rcases off with off | off | off <;> simp [State.pwmOut, off]

/-- Settles O58: a wire has the level of its output where its pin exists, and each output by its enables. -/
theorem wiresFollowEnablesAndBinding : Obligations.WiresFollowEnablesAndBinding := by
  unfold Obligations.WiresFollowEnablesAndBinding
  intro s
  refine ⟨?reset, fun p => State.wire_of_absent, fun off => State.wire_eq_none (State.in1Out_of_disabled off),
    fun off => State.wire_eq_none (State.in2Out_of_disabled off), fun present on => ?in1, fun present on => ?in2,
    fun off => State.wire_eq_none (State.pwmOut_of_undriven off), fun present on fast ninv => ?pwm⟩
  case reset =>
    rintro ⟨-, -, pin, -⟩ p
    cases p with
    | in1 => exact State.wire_eq_none (State.in1Out_of_disabled (congrArg Pins.in1Oe pin))
    | in2 => exact State.wire_eq_none (State.in2Out_of_disabled (congrArg Pins.in2Oe pin))
    | pwmOut => exact State.wire_eq_none (State.pwmOut_of_undriven (.inl (congrArg Pins.pwmOe pin)))
  case in1 =>
    rw [State.wire, if_pos (show PinMap.bound s.params.pinMap .in1 ∈ s.params.pinMap.present from present)]
    exact if_pos on
  case in2 =>
    rw [State.wire, if_pos (show PinMap.bound s.params.pinMap .in2 ∈ s.params.pinMap.present from present)]
    exact if_pos on
  case pwm =>
    refine ⟨_, ?_, decide_eq_true_iff⟩
    rw [State.wire, if_pos (show PinMap.bound s.params.pinMap .pwmOut ∈ s.params.pinMap.present from present)]
    exact State.pwmOut_of_driven on fast ninv

end Sys2Proof.Machine
